-- ==== Sys2Proof/Word.lean ====
section
/-! DEFINITION. The word types of APE-CORE (00_scope.md R10). Every register is 32 bits wide (R26), `WIN` holds
bytes (R60), the NNFilter weights are 16 bits wide (R33). -/

namespace Sys2Proof

/-- A register, a command word, a word of `OUT`: 32 bits. -/
abbrev Word := BitVec 32

/-- An NNFilter weight: 16 bits, two's complement (R33). -/
abbrev Half := BitVec 16

/-- A byte of `WIN` (R60). -/
abbrev Byte := BitVec 8

end Sys2Proof
end

