-- ==== Sys2Proof/Machine/Arith.lean ====
section
/-! DEFINITION. The integer laws (00_scope.md R8, R9, 60_exceptions.md R222): arithmetic is exact on `Int` and `Nat`,
and a result is tested against the width of the element it is stored in. -/

namespace Sys2Proof.Machine

/-- `v` is in `iN`, `-2^(N-1) .. 2^(N-1)-1` (R8). -/
def fitsSigned (bits : Nat) (v : Int) : Bool := decide (-(2 : Int) ^ (bits - 1) ≤ v ∧ v < (2 : Int) ^ (bits - 1))

/-- `a >> n` on a signed value: floor division by `2^n` (R8). -/
def sar (a : Int) (n : Nat) : Int := a / (2 : Int) ^ n

/-- `sign(v)`, with `sign(0) = 0` (R9). -/
def sgn (v : Int) : Int := if 0 < v then 1 else if v < 0 then -1 else 0

/-- The two's complement 32-bit word that holds `v` (R8, "two's complement when stored"). -/
def toWord (v : Int) : Word := BitVec.ofInt 32 v

/-- The two's complement 16-bit weight that holds `v` (R33). -/
def toHalf (v : Int) : Half := BitVec.ofInt 16 v

/-- The word that holds the unsigned `v`. -/
def natWord (v : Nat) : Word := BitVec.ofNat 32 v

/-- `sum over j of u[j] * v[j]`, exact (R161, R181). -/
def dot : List Int → List Int → Int
  | u :: us, v :: vs => u * v + dot us vs
  | _, _ => 0

/-- The sign-sign update of one vector: `u[j] + sign(h[j]) * sx` for each `j` (R161, R181). -/
def signUpdate (sx : Int) : List Int → List Int → List Int
  | u :: us, h :: hs => (u + sgn h * sx) :: signUpdate sx us hs
  | _, _ => []

/-- A new entry at index 0, the oldest dropped: the first `n` entries of `x :: h` (R161, R181). -/
def shiftIn {w : Nat} (n : Nat) (x : BitVec w) (h : List (BitVec w)) : List (BitVec w) := (x :: h).take n

end Sys2Proof.Machine
end

