-- ==== Sys2Proof/Config.lean ====
section
/-! DEFINITION. What an implementation of APE-CORE fixes (00_scope.md R6): the parameters the spec makes arguments of
a model, and the free values for everything the spec leaves unspecified (93_implementation_defined.md U19, U20). The
default parameter values and the constraints of R7 are in Machine/Params.lean. -/

namespace Sys2Proof

/-- One NNFilter stage of a row of `NNF_TABLE`: `(order, shift)` (R6, R160). -/
structure StageSpec where
  order : Nat
  shift : Nat
  deriving DecidableEq, Repr

/-- `NNF_TABLE`: exactly five rows (R7), one for each compression level, the outermost stage first (R6). -/
structure NnfTable where
  l1000 : List StageSpec
  l2000 : List StageSpec
  l3000 : List StageSpec
  l4000 : List StageSpec
  l5000 : List StageSpec
  deriving DecidableEq, Repr

/-- The implementation parameters of R6. They are no state of the hardware (R20); the model carries them in its
`State`, and no step changes them. DESIGN CHOICE, safe: notes/assumptions/2.md. -/
structure Config where
  /-- `NNF_TABLE` -/
  nnfTable : NnfTable
  /-- `PRED_NY` -/
  predNY : Nat
  /-- `PRED_NZ` -/
  predNZ : Nat
  /-- `PRED_SHIFT` -/
  predShift : Nat
  /-- `K_INIT` -/
  kInit : Nat
  /-- `K_MAX` -/
  kMax : Nat
  /-- `ENT_SHARED` -/
  entShared : Bool
  /-- `OVF_SHIFT` -/
  ovfShift : Nat
  /-- `OVF_CUM`, `OVF_NSYM + 1` entries -/
  ovfCum : List Nat
  /-- `BLOCKS_MAX` -/
  blocksMax : Nat
  /-- `WIN_CAP`, bytes -/
  winCap : Nat
  /-- `OUT_CAP`, 32-bit words -/
  outCap : Nat
  /-- `REG_BASE` -/
  regBase : Nat
  /-- `WIN_BASE` -/
  winBase : Nat
  /-- `OUT_BASE` -/
  outBase : Nat
  deriving DecidableEq, Repr

/-- A state element or a bus read whose value the spec leaves unspecified: after hardware reset `winByte`, `outWord`
(R260); after an error every one but `winByte` (R225); `busRead` for a read in `ERR` (R28, R66). -/
inductive Slot where
  | winByte (a : Nat)
  | outWord (i : Nat)
  | busRead
  | silent
  | fstereo
  | rcInit
  | frameCrc
  | frameFlags
  | res
  | bidx
  | sample (c : Nat)
  | rcLow
  | rcRange
  | rcPos
  | k (c : Nat)
  | nnfH (c st j : Nat)
  | nnfW (c st j : Nat)
  | predA (c i : Nat)
  | predB (c j : Nat)
  | predY (c j : Nat)
  | predZ (c i : Nat)
  deriving DecidableEq, Repr

/-- THE FREE VALUES ("any value", U19, U20): what an unspecified element holds, for each event that leaves it
unspecified (the first argument is the value of `State.draws` at the event). No body: nothing can be proved of a value
of it. Reduced to the element's own type where it is used. DESIGN CHOICE, safe: notes/assumptions/3.md. -/
opaque Config.freeNat : Nat → Slot → Nat

end Sys2Proof
end

