-- ==== Sys2Proof/Machine/Params.lean ====
section
/-! DEFINITION. The parameters' default values (00_scope.md R6), their constraints (R7, 20_memory.md R68), and the
functions of them the rules use (10_state.md R30). -/

namespace Sys2Proof

/-- The row of `NNF_TABLE` for a value of `COMPRESSION_LEVEL`; none unless it is one of the five levels (R5, R30). -/
def NnfTable.row (t : NnfTable) (level : Nat) : Option (List StageSpec) :=
  if level = 1000 then some t.l1000
  else if level = 2000 then some t.l2000
  else if level = 3000 then some t.l3000
  else if level = 4000 then some t.l4000
  else if level = 5000 then some t.l5000
  else none

/-- `OVF_NSYM`: one less than the number of entries of `OVF_CUM` (R6). -/
def Config.ovfNsym (p : Config) : Nat := p.ovfCum.length - 1

/-- A row of `NNF_TABLE` meets R7. -/
abbrev rowLegal (row : List StageSpec) : Prop :=
  row.length ≤ 3 ∧ ∀ g ∈ row, 1 ≤ g.order ∧ g.order ≤ 1024 ∧ g.shift ≤ 31

/-- `[a, a + m)` and `[b, b + n)` do not overlap (R68). -/
abbrev disjointRegions (a m b n : Nat) : Prop := a + m ≤ b ∨ b + n ≤ a

/-- The constraints of R7 on every parameter, and of R68 on the three bases. That the bases are multiples of 4 is the
model's (DESIGN CHOICE, safe: notes/assumptions/2.md). -/
abbrev Config.Legal (p : Config) : Prop :=
  rowLegal p.nnfTable.l1000 ∧ rowLegal p.nnfTable.l2000 ∧ rowLegal p.nnfTable.l3000 ∧
  rowLegal p.nnfTable.l4000 ∧ rowLegal p.nnfTable.l5000 ∧
  1 ≤ p.predNY ∧ p.predNY ≤ 32 ∧ 1 ≤ p.predNZ ∧ p.predNZ ≤ 32 ∧ p.predShift ≤ 31 ∧
  p.kInit ≤ p.kMax ∧ p.kMax ≤ 31 ∧
  1 ≤ p.ovfShift ∧ p.ovfShift ≤ 16 ∧
  2 ≤ p.ovfNsym ∧ p.ovfCum.head? = some 0 ∧ p.ovfCum.getLast? = some (2 ^ p.ovfShift) ∧
  p.ovfCum.Pairwise (· < ·) ∧
  p.winCap % 4 = 0 ∧ 16 ≤ p.winCap ∧ p.winCap < 2 ^ 28 ∧
  1 ≤ p.outCap ∧ p.outCap < 2 ^ 28 ∧
  1 ≤ p.blocksMax ∧ p.blocksMax ≤ 2 ^ 24 - 1 ∧
  p.regBase % 4 = 0 ∧ p.winBase % 4 = 0 ∧ p.outBase % 4 = 0 ∧
  disjointRegions p.regBase 0x100 p.winBase p.winCap ∧
  disjointRegions p.regBase 0x100 p.outBase (4 * p.outCap) ∧
  disjointRegions p.winBase p.winCap p.outBase (4 * p.outCap)

/-- The default `NNF_TABLE` (R6, the 5000 row as 90_conflicts.md C2 reads it). -/
def NnfTable.standard : NnfTable where
  l1000 := [⟨8, 11⟩]
  l2000 := [⟨16, 11⟩]
  l3000 := [⟨32, 12⟩, ⟨8, 11⟩]
  l4000 := [⟨64, 13⟩, ⟨16, 12⟩]
  l5000 := [⟨128, 14⟩, ⟨32, 13⟩, ⟨8, 11⟩]

/-- The default column of R6. `WIN_CAP` and `OUT_CAP` are open; 2^20 is the value of every vector of
95_test_vectors.md. The bases are open. DESIGN CHOICE, safe: notes/assumptions/2.md. -/
def Config.standard : Config where
  nnfTable := NnfTable.standard
  predNY := 8
  predNZ := 5
  predShift := 10
  kInit := 10
  kMax := 24
  entShared := false
  ovfShift := 16
  ovfCum := [0, 32768, 49152, 57344, 61440, 63488, 64512, 65024, 65280, 65408, 65472, 65504, 65520, 65528, 65532,
    65534, 65535, 65536]
  blocksMax := 2 ^ 24 - 1
  winCap := 2 ^ 20
  outCap := 2 ^ 20
  regBase := 0x10000000
  winBase := 0x20000000
  outBase := 0x30000000

end Sys2Proof
end

