-- ==== Sys2Proof/Machine/State.lean ====
section
/-! DEFINITION. The state of APE-CORE (10_state.md R20 to R40) as plain data, what stops the model, and the state after
hardware reset (R40, R260). -/

namespace Sys2Proof.Machine

/-- `STATE`, bits `[1:0]` of `STATUS` (R24, R25). -/
inductive Phase where
  /-- `IDLE` = 0 -/
  | idle
  /-- `OPEN` = 1: a frame is open in step mode -/
  | opened
  /-- `DONE` = 2: `OUT` holds a whole decoded frame -/
  | done
  /-- `ERR` = 3: sticky error state -/
  | err
  deriving DecidableEq, Repr

/-- `ERRCODE` (60_exceptions.md R220). Codes 10 to 15 are never held. -/
inductive ErrKind where
  /-- 0: no error recorded -/
  | none
  /-- 1: never raised, reserved for the host's numbering -/
  | io
  /-- 2 -/
  | unsupportedVersion
  /-- 3 -/
  | invalidHeader
  /-- 4 -/
  | truncatedFrame
  /-- 5 -/
  | corruptBitstream
  /-- 6 -/
  | corruptFrame
  /-- 7 -/
  | unsupportedConfiguration
  /-- 8 -/
  | arithmeticOverflow
  /-- 9 -/
  | illegalCommand
  deriving DecidableEq, Repr

/-- What a `raise <Kind>(info)` carries (00_scope.md R11, R221). -/
structure Err where
  kind : ErrKind
  info : Word
  deriving DecidableEq, Repr

/-- The twelve configuration registers, offsets 0x10 to 0x3C (R26). -/
structure ConfigRegs where
  formatVersion : Word
  channels : Word
  bitsPerSample : Word
  compressionLevel : Word
  blocksPerFrame : Word
  finalFrameBlocks : Word
  totalFrames : Word
  frameIndex : Word
  nblocks : Word
  startBit : Word
  winLen : Word
  winExpect : Word
  deriving DecidableEq, Repr

/-- The range decoder's registers `RC_LOW`, `RC_RANGE`, `RC_POS` (R31). -/
structure RangeState where
  low : Word
  range : Word
  pos : Word
  deriving DecidableEq, Repr

/-- One NNFilter stage of one channel: history `NNF_H[c][st]` (index 0 the most recent output) and weights
`NNF_W[c][st]` (R33). -/
structure Stage where
  h : List Word
  w : List Half
  deriving DecidableEq, Repr

/-- One channel's predictor: `PRED_A`, `PRED_B`, `PRED_Y`, `PRED_Z`, index 0 the most recent (R34). -/
structure Predictor where
  a : List Word
  b : List Word
  y : List Word
  z : List Word
  deriving DecidableEq, Repr

/-- Everything the spec gives one channel `c`: the sample register `S[c]` (R22), `K[c]` (R32), the NNFilter bank,
stage 0 first (R33), the predictor (R34). -/
structure Chan where
  sample : Word
  k : Nat
  nnf : List Stage
  pred : Predictor
  deriving DecidableEq, Repr

/-- A memory of `w`-bit cells: what has been written since the contents last were unspecified, as (address, content)
pairs with strictly rising addresses. An address with no pair holds a free value of the event `epoch`
(`Config.freeNat`), so no pair can say what an unlisted address says. For `WIN`, `w = 8` and a pair is a `Host.Cell`;
for `OUT`, `w = 32`, since `OUT` is word indexed and has no byte order (20_memory.md R66). DESIGN CHOICE, safe:
notes/assumptions/3.md. -/
structure Memory (w : Nat) where
  epoch : Nat
  cells : List (Nat × BitVec w)
  deriving DecidableEq, Repr

/-- The canonical form: strictly rising addresses. -/
abbrev Memory.wf {w : Nat} (m : Memory w) : Prop := m.cells.Pairwise (fun p q => p.1 < q.1)

/-- What the host (or the reset input) asks of APE-CORE, one at a time (R20, R260, R266): `bytes` is the width of the
access, `addr` the bus address (20_memory.md R68, R69). DESIGN CHOICE, safe: notes/assumptions/1.md. -/
inductive BusReq where
  /-- a bus read of `bytes` bytes -/
  | read (addr bytes : Nat)
  /-- a bus write of `bytes` bytes -/
  | write (addr bytes : Nat) (data : Word)
  /-- the reset input asserted and released (R260) -/
  | hardReset
  deriving DecidableEq, Repr

/-- The whole state: R21's inventory, then the model's own four fields (`cfg`, `bus`, `readData`, `draws`). -/
structure State where
  /-- `STATE` -/
  phase : Phase
  /-- `ERRCODE` -/
  errCode : ErrKind
  /-- `ERRINFO` -/
  errInfo : Word
  /-- flag `SILENT` -/
  silent : Bool
  /-- flag `FSTEREO` -/
  fstereo : Bool
  /-- flag `RCINIT` -/
  rcInit : Bool
  /-- the twelve configuration registers -/
  regs : ConfigRegs
  /-- `FRAME_CRC` -/
  frameCrc : Word
  /-- `FRAME_FLAGS` -/
  frameFlags : Word
  /-- `RES` -/
  res : Word
  /-- `BIDX` -/
  bidx : Word
  /-- `RC_LOW`, `RC_RANGE`, `RC_POS` -/
  rc : RangeState
  /-- channel 0: `S[0]`, `K[0]`, `NNF_*[0]`, `PRED_*[0]` -/
  ch0 : Chan
  /-- channel 1 -/
  ch1 : Chan
  /-- `WIN`, keyed by byte address -/
  win : Memory 8
  /-- `OUT`, keyed by word index -/
  out : Memory 32
  /-- the implementation parameters; no step changes them (notes/assumptions/2.md) -/
  cfg : Config
  /-- the model's own: pending bus requests, the next one first (notes/assumptions/1.md) -/
  bus : List BusReq
  /-- the model's own: what the last bus read handed to the host (notes/assumptions/1.md) -/
  readData : Word
  /-- the model's own: the number of the next event that leaves something unspecified (notes/assumptions/3.md) -/
  draws : Nat
  deriving DecidableEq, Repr

/-- The machine never stops with a fault: every operation completes, enters `ERR` (a next state) or is ignored (R12,
R267), so this type has no constructor. -/
inductive Fault where
  deriving DecidableEq, Repr

/-- Why the model gives a step no meaning. -/
inductive Refusal where
  /-- an instruction without a meaning; raised by no arm of this model. Safe. -/
  | notModelled (mnemonic : String)
  /-- raised by `step` when the parameters violate R7 or R68: "a model should refuse to be instantiated with it" (R7,
  U23). Safe. -/
  | illegalParameters
  /-- raised by `step` for a bus access of another width than 32 bits, misaligned, or outside the three regions:
  "outside this spec: a model refuses it" (20_memory.md R69, U21). Safe. -/
  | busAccessOutsideSpec
  deriving DecidableEq, Repr

/-- All twelve configuration registers 0 (R40). -/
def ConfigRegs.zero : ConfigRegs := ⟨0, 0, 0, 0, 0, 0, 0, 0, 0, 0, 0, 0⟩

/-- A predictor with every entry 0 (R40); the lengths are R34's. -/
def Predictor.zero (p : Config) : Predictor :=
  ⟨List.replicate p.predNZ 0, List.replicate p.predNY 0, List.replicate p.predNY 0, List.replicate p.predNZ 0⟩

/-- A bank of stages with every entry 0 (R40); `row` is the row of `NNF_TABLE` (R33). -/
def Stage.zeroBank (row : List StageSpec) : List Stage :=
  row.map fun g => ⟨List.replicate g.order 0, List.replicate g.order 0⟩

/-- The machine right after hardware reset (R40, R260). `WIN` and `OUT` are unspecified: nothing is listed, every
address holds a free value of event 0. With `COMPRESSION_LEVEL = 0` no stage exists (R33, notes/assumptions/6.md). The
model's own fields: notes/assumptions/1.md, 2.md, 3.md. -/
def State.reset : State where
  phase := .idle
  errCode := .none
  errInfo := 0
  silent := false
  fstereo := false
  rcInit := false
  regs := ConfigRegs.zero
  frameCrc := 0
  frameFlags := 0
  res := 0
  bidx := 0
  rc := ⟨0, 0, 0⟩
  ch0 := ⟨0, 0, [], Predictor.zero Config.standard⟩
  ch1 := ⟨0, 0, [], Predictor.zero Config.standard⟩
  win := ⟨0, []⟩
  out := ⟨0, []⟩
  cfg := Config.standard
  bus := []
  readData := 0
  draws := 1

end Sys2Proof.Machine
end

