-- ==== Sys2Proof/Machine/Flags.lean ====
section
/-! DEFINITION. The flag and status computations: `STATUS` (10_state.md R24), the frame flags word (30_encoding.md
R93), the error codes and information words (60_exceptions.md R220, R221). APE-CORE has no arithmetic condition codes
(R24). -/

namespace Sys2Proof.Machine

/-- A flag as a bit. -/
def bit (b : Bool) : Nat := if b then 1 else 0

/-- The number of a state in `STATUS[1:0]` (R24). -/
def phaseCode : Phase → Nat
  | .idle => 0
  | .opened => 1
  | .done => 2
  | .err => 3

/-- `STATUS`: `STATE` in `[1:0]`, `BUSY` in `[2]` always 0 (R266), `SILENT` in `[3]`, `FSTEREO` in `[4]`, `RCINIT` in
`[5]`, the rest 0 (R24). -/
def statusWord (s : State) : Word :=
  natWord (phaseCode s.phase + 2 ^ 3 * bit s.silent + 2 ^ 4 * bit s.fstereo + 2 ^ 5 * bit s.rcInit)

/-- The number of an error kind in `ERRCODE` (R220). -/
def errNumber : ErrKind → Nat
  | .none => 0
  | .io => 1
  | .unsupportedVersion => 2
  | .invalidHeader => 3
  | .truncatedFrame => 4
  | .corruptBitstream => 5
  | .corruptFrame => 6
  | .unsupportedConfiguration => 7
  | .arithmeticOverflow => 8
  | .illegalCommand => 9

/-- `UnsupportedVersion(FORMAT_VERSION)` (R221 code 2). -/
def unsupportedVersion (version : Word) : Err := ⟨.unsupportedVersion, version⟩

/-- `InvalidHeader(info)` (R221 code 3). -/
def invalidHeader (info : Nat) : Err := ⟨.invalidHeader, natWord info⟩

/-- `TruncatedFrame(info)` (R221 code 4). -/
def truncatedFrame (info : Nat) : Err := ⟨.truncatedFrame, natWord info⟩

/-- `CorruptBitstream(info)` (R221 code 5). -/
def corruptBitstream (info : Nat) : Err := ⟨.corruptBitstream, natWord info⟩

/-- `CorruptFrame(info)` (R221 code 6). -/
def corruptFrame (info : Nat) : Err := ⟨.corruptFrame, natWord info⟩

/-- `UnsupportedConfiguration(info)` (R221 code 7). -/
def unsupportedConfiguration (info : Nat) : Err := ⟨.unsupportedConfiguration, natWord info⟩

/-- `ArithmeticOverflow` at a site, channel and stage: `[7:0]` site, `[15:8]` channel, `[23:16]` stage (R221 code
8). -/
def arithmeticOverflow (site c st : Nat) : Err := ⟨.arithmeticOverflow, natWord (site + 2 ^ 8 * c + 2 ^ 16 * st)⟩

/-- `IllegalCommand(w)`: the offending command word (R221 code 9, R223). -/
def illegalCommand (w : Word) : Err := ⟨.illegalCommand, w⟩

/-- The silence bits `[1:0]` of a flags word (R93). -/
def flagSilence (f : Word) : Nat := (f.extractLsb' 0 2).toNat

/-- The bit `[2]`, `FALSE_STEREO`, of a flags word (R93). -/
def flagFalseStereo (f : Word) : Bool := f.extractLsb' 2 1 == 1#1

/-- A reserved bit `[31:3]` of a flags word is set (R93). -/
def flagReservedSet (f : Word) : Bool := f.extractLsb' 3 29 != 0#29

/-- `ncoded'`: 1 if `CHANNELS = 1` or `FALSE_STEREO = 1`, else 2 (R93, R115 `nc`). -/
def codedChannels (channels : Word) (falseStereo : Bool) : Nat := if channels = 1 ∨ falseStereo = true then 1 else 2

end Sys2Proof.Machine
end

