-- ==== Sys2Proof/Machine/Ops.lean ====
section
/-! DEFINITION. The named operations over memory and registers: the two memories (20_memory.md R60, R66), the stream
view (R61 to R64), the channel registers, `K`, taking an error (60_exceptions.md R224, R225) and the two returns from
it (R228: `SRESET`, R111; hardware reset, R260), the ordered checks and the counted loop of the pseudocode (00_scope.md
R11). -/

namespace Sys2Proof.Machine

/-- What has been written to address `a`, none if nothing. -/
def lookupCell {w : Nat} (a : Nat) : List (Nat × BitVec w) → Option (BitVec w)
  | [] => none
  | (b, v) :: rest => if a = b then some v else lookupCell a rest

/-- The cells after a write of `v` to address `a`; keeps the addresses strictly rising. -/
def insertCell {w : Nat} (a : Nat) (v : BitVec w) : List (Nat × BitVec w) → List (Nat × BitVec w)
  | [] => [(a, v)]
  | (b, u) :: rest =>
    if a < b then (a, v) :: (b, u) :: rest
    else if a = b then (a, v) :: rest
    else (b, u) :: insertCell a v rest

/-- The memory after a write of `v` to address `a`. -/
def Memory.write {w : Nat} (m : Memory w) (a : Nat) (v : BitVec w) : Memory w :=
  { m with cells := insertCell a v m.cells }

/-- WHAT AN UNLISTED ADDRESS READS AS, for both memories: the free value of the memory's last "unspecified" event
(R40, R225, notes/assumptions/3.md). -/
def unlistedCell (w : Nat) (epoch : Nat) (slot : Slot) : BitVec w := BitVec.ofNat w (Config.freeNat epoch slot)

/-- `MemRead(WIN, a, 1)` (R11, R60), defined by the spec for `a < WIN_CAP`. At `a ≥ WIN_CAP`, which no write lists, it is
the free value of the epoch: only a read of `RC_BUFFER` gets there, with `WIN_LEN > WIN_CAP`. DESIGN CHOICE, safe
for the value: notes/assumptions/9.md. -/
def winByte (m : Memory 8) (a : Nat) : Byte := (lookupCell a m.cells).getD (unlistedCell 8 m.epoch (.winByte a))

/-- `MemRead(OUT, i, 4)` (R11, R66). -/
def outWord (m : Memory 32) (i : Nat) : Word := (lookupCell i m.cells).getD (unlistedCell 32 m.epoch (.outWord i))

/-- `MemWrite(OUT, i, 4, v)` (R11, R66). -/
def State.writeOut (s : State) (i : Nat) (v : Word) : State := { s with out := s.out.write i v }

/-- What the engine reads the stream from: `WIN` and `WIN_LEN` (R60, R64). -/
structure View where
  win : Memory 8
  len : Nat
  deriving DecidableEq, Repr

/-- The state's stream view. -/
def State.view (s : State) : View := ⟨s.win, s.regs.winLen.toNat⟩

/-- `ViewByte(i) = WIN[i xor 3]` (R61). -/
def viewByte (v : View) (i : Nat) : Nat := (winByte v.win (i ^^^ 3)).toNat

/-- View byte `i` is inside the window iff `(i xor 3) < WIN_LEN` (R64). -/
def insideWindow (v : View) (i : Nat) : Bool := decide (i ^^^ 3 < v.len)

/-- Bit position `t` of the stream view: bit `7 - (t mod 8)` of `ViewByte(t // 8)` (R63). -/
def streamBit (v : View) (t : Nat) : Nat := viewByte v (t / 8) / 2 ^ (7 - t % 8) % 2

/-- `StreamBits(p, n)`: the bits at positions `p .. p+n-1`, the most significant first (R63). -/
def streamBits (v : View) (p : Nat) : Nat → Nat
  | 0 => 0
  | n + 1 => streamBits v p n * 2 + streamBit v (p + n)

/-- `StreamBits(p, n)` is defined: every view byte it touches, `p // 8` to `(p+n-1) // 8`, is inside the window
(R64). -/
def streamDefined (v : View) (p n : Nat) : Bool :=
  n == 0 || (List.range ((p + n - 1) / 8 + 1 - p / 8)).all fun j => insideWindow v (p / 8 + j)

/-- Channel `c`'s registers. -/
def State.chan (s : State) (c : Nat) : Chan := if c = 0 then s.ch0 else s.ch1

/-- The state with channel `c`'s registers replaced. -/
def State.setChan (s : State) (c : Nat) (ch : Chan) : State :=
  if c = 0 then { s with ch0 := ch } else { s with ch1 := ch }

/-- `S[c] <- v` (R11, R22). -/
def State.setSample (s : State) (c : Nat) (v : Word) : State := s.setChan c { s.chan c with sample := v }

/-- `K[e] <- k` (R32). -/
def State.setK (s : State) (e k : Nat) : State := s.setChan e { s.chan e with k := k }

/-- The row of `NNF_TABLE` that `COMPRESSION_LEVEL` selects; no stage if it is no level (R30). -/
def State.row (s : State) : List StageSpec := (s.cfg.nnfTable.row s.regs.compressionLevel.toNat).getD []

/-- A free word: the value of element `slot` left unspecified by event `n`. -/
def freeWord (n : Nat) (slot : Slot) : Word := natWord (Config.freeNat n slot)

/-- A free 16-bit weight. -/
def freeHalf (n : Nat) (slot : Slot) : Half := BitVec.ofNat 16 (Config.freeNat n slot)

/-- A free flag. -/
def freeFlag (n : Nat) (slot : Slot) : Bool := Config.freeNat n slot % 2 == 1

/-- A list of `len` free words. -/
def freeWords (n len : Nat) (slot : Nat → Slot) : List Word := (List.range len).map fun j => freeWord n (slot j)

/-- Channel `c` with every element unspecified: any value of its type (R40), which for `K[c]` is `0..K_MAX` (R32). -/
def freeChan (n : Nat) (s : State) (c : Nat) : Chan where
  sample := freeWord n (.sample c)
  k := Config.freeNat n (.k c) % (s.cfg.kMax + 1)
  nnf := (List.range s.row.length).map fun st =>
    let order := ((s.row)[st]?.getD ⟨0, 0⟩).order
    ⟨freeWords n order (.nnfH c st), (List.range order).map fun j => freeHalf n (.nnfW c st j)⟩
  pred :=
    ⟨freeWords n s.cfg.predNZ (.predA c), freeWords n s.cfg.predNY (.predB c), freeWords n s.cfg.predNY (.predY c),
      freeWords n s.cfg.predNZ (.predZ c)⟩

/-- TAKING AN ERROR (R224): `ERRCODE`, `ERRINFO` and `STATE = ERR`; every other state element except the twelve
configuration registers and `WIN` becomes unspecified (R225), a free value of the event `s.draws`. Nothing is saved and
control goes nowhere (R224). -/
def raise (e : Err) (s : State) : State where
  phase := .err
  errCode := e.kind
  errInfo := e.info
  silent := freeFlag s.draws .silent
  fstereo := freeFlag s.draws .fstereo
  rcInit := freeFlag s.draws .rcInit
  regs := s.regs
  frameCrc := freeWord s.draws .frameCrc
  frameFlags := freeWord s.draws .frameFlags
  res := freeWord s.draws .res
  bidx := freeWord s.draws .bidx
  rc := ⟨freeWord s.draws .rcLow, freeWord s.draws .rcRange, freeWord s.draws .rcPos⟩
  ch0 := freeChan s.draws s 0
  ch1 := freeChan s.draws s 1
  win := s.win
  out := ⟨s.draws, []⟩
  cfg := s.cfg
  bus := s.bus
  readData := s.readData
  draws := s.draws + 1

/-- A channel with every element 0 and `K[c] = k` (R40, R114). -/
def clearChan (s : State) (k : Nat) : Chan := ⟨0, k, Stage.zeroBank s.row, Predictor.zero s.cfg⟩

/-- THE RETURN FROM AN ERROR: `SRESET` (R111, R228). Every element takes the "SRESET" value of R40; the configuration
registers, `WIN` and `OUT` are kept. -/
def softReset (s : State) : State where
  phase := .idle
  errCode := .none
  errInfo := 0
  silent := false
  fstereo := false
  rcInit := false
  regs := s.regs
  frameCrc := 0
  frameFlags := 0
  res := 0
  bidx := 0
  rc := ⟨0, 0, 0⟩
  ch0 := clearChan s 0
  ch1 := clearChan s 0
  win := s.win
  out := s.out
  cfg := s.cfg
  bus := s.bus
  readData := s.readData
  draws := s.draws

/-- The reset input (R260, R262): every element takes the "hardware reset" value of R40; `WIN` and `OUT` become
unspecified, free values of the event `s.draws`. -/
def hardReset (s : State) : State :=
  { softReset { s with regs := ConfigRegs.zero } with
    win := ⟨s.draws, []⟩
    out := ⟨s.draws, []⟩
    draws := s.draws + 1 }

/-- The state at an operation's outcome (R12): it completed, or it raised and the error is taken from the state before
it (R224; nothing of the abandoned operation survives, R225). -/
def settle (r : Except Err State) (s : State) : State :=
  match r with
  | .ok t => t
  | .error e => raise e s

/-- A write to `CMD` of a word that is no operation (check 1 of R87): ignored in `ERR` (R119), else `IllegalCommand`
with the word (R88, R223). -/
def rejectWord (w : Word) (s : State) : State := if s.phase = .err then s else raise (illegalCommand w) s

/-- Checks run in order: "the first that fails raises and ends the operation" (R112). Each pair is (the condition that
faults, what it raises). -/
def runChecks : List (Bool × Err) → Except Err Unit
  | [] => .ok ()
  | (fails, e) :: rest => if fails then .error e else runChecks rest

/-- `for i in 0 .. n-1` (R11): `f 0`, `f 1`, .., `f (n-1)` in that order, nothing when `n = 0`. -/
def forUpTo (n : Nat) (f : Nat → State → Except Err State) (s : State) : Except Err State :=
  match n with
  | 0 => .ok s
  | m + 1 => do
    let t ← forUpTo m f s
    f m t

end Sys2Proof.Machine
end

