-- ==== Sys2Proof/Machine/Bus.lean ====
section
/-! DEFINITION. The host's side: the register file (10_state.md R26 to R28), the three bus regions (20_memory.md R68,
R69), host accesses to `WIN` and `OUT` (R60, R62, R66), `RC_BUFFER` (R38). -/

namespace Sys2Proof.Machine

/-- The registers of R26 and the reserved offsets. -/
inductive Reg where
  | cmd
  | status
  | errCode
  | errInfo
  | formatVersion
  | channels
  | bitsPerSample
  | compressionLevel
  | blocksPerFrame
  | finalFrameBlocks
  | totalFrames
  | frameIndex
  | nblocks
  | startBit
  | winLen
  | winExpect
  | frameCrc
  | frameFlags
  | res
  | bidx
  | s0
  | s1
  | rcLow
  | rcRange
  | rcPos
  | rcBuffer
  | entK0
  | entK1
  | reserved
  deriving DecidableEq, Repr

/-- The registers in the order of their offsets, 4 bytes apart from 0x00 (R26). -/
def regTable : List Reg :=
  [.cmd, .status, .errCode, .errInfo, .formatVersion, .channels, .bitsPerSample, .compressionLevel, .blocksPerFrame,
    .finalFrameBlocks, .totalFrames, .frameIndex, .nblocks, .startBit, .winLen, .winExpect, .frameCrc, .frameFlags,
    .res, .bidx, .s0, .s1, .rcLow, .rcRange, .rcPos, .rcBuffer, .entK0, .entK1]

/-- The register at a byte offset from `REG_BASE`; 0x70 to 0xFC are reserved (R26). -/
def regAt (off : Nat) : Reg := regTable[off / 4]?.getD .reserved

/-- `ViewWord(q)`, the little-endian load at byte address `4q` of `WIN` (R62). -/
def viewWord (m : Memory 8) (q : Nat) : Nat :=
  (winByte m (4 * q + 3)).toNat * 2 ^ 24 + (winByte m (4 * q + 2)).toNat * 2 ^ 16
    + (winByte m (4 * q + 1)).toNat * 2 ^ 8 + (winByte m (4 * q)).toNat

/-- View byte `i`, 0 outside the window (R38). With `WIN_LEN > WIN_CAP` a byte that R64 calls inside the window may be one
that `WIN` does not have (R60): a free value. DESIGN CHOICE, safe for the value:
notes/assumptions/9.md. -/
def bufferByte (v : View) (i : Nat) : Nat := if insideWindow v i then viewByte v i else 0

/-- `RC_BUFFER`: the view word that holds the next unread bit, bytes outside the window 0 (R38). -/
def rcBuffer (s : State) : Word :=
  let q := s.rc.pos.toNat / 32
  natWord (bufferByte s.view (4 * q) * 2 ^ 24 + bufferByte s.view (4 * q + 1) * 2 ^ 16
    + bufferByte s.view (4 * q + 2) * 2 ^ 8 + bufferByte s.view (4 * q + 3))

/-- The current value of a register (R26). `CMD` and the reserved offsets read 0. -/
def regValue (s : State) : Reg → Word
  | .cmd => 0
  | .status => statusWord s
  | .errCode => natWord (errNumber s.errCode)
  | .errInfo => s.errInfo
  | .formatVersion => s.regs.formatVersion
  | .channels => s.regs.channels
  | .bitsPerSample => s.regs.bitsPerSample
  | .compressionLevel => s.regs.compressionLevel
  | .blocksPerFrame => s.regs.blocksPerFrame
  | .finalFrameBlocks => s.regs.finalFrameBlocks
  | .totalFrames => s.regs.totalFrames
  | .frameIndex => s.regs.frameIndex
  | .nblocks => s.regs.nblocks
  | .startBit => s.regs.startBit
  | .winLen => s.regs.winLen
  | .winExpect => s.regs.winExpect
  | .frameCrc => s.frameCrc
  | .frameFlags => s.frameFlags
  | .res => s.res
  | .bidx => s.bidx
  | .s0 => s.ch0.sample
  | .s1 => s.ch1.sample
  | .rcLow => s.rc.low
  | .rcRange => s.rc.range
  | .rcPos => s.rc.pos
  | .rcBuffer => rcBuffer s
  | .entK0 => natWord s.ch0.k
  | .entK1 => natWord s.ch1.k
  | .reserved => 0

/-- The registers that read as their current values in `ERR`: `STATUS`, `ERRCODE`, `ERRINFO` and the twelve
configuration registers (R28). A reserved offset is no register and reads 0 in every state (R26, notes/assumptions/4.md).
-/
def readableInErr : Reg → Bool
  | .cmd => false
  | .status => true
  | .errCode => true
  | .errInfo => true
  | .formatVersion => true
  | .channels => true
  | .bitsPerSample => true
  | .compressionLevel => true
  | .blocksPerFrame => true
  | .finalFrameBlocks => true
  | .totalFrames => true
  | .frameIndex => true
  | .nblocks => true
  | .startBit => true
  | .winLen => true
  | .winExpect => true
  | .frameCrc => false
  | .frameFlags => false
  | .res => false
  | .bidx => false
  | .s0 => false
  | .s1 => false
  | .rcLow => false
  | .rcRange => false
  | .rcPos => false
  | .rcBuffer => false
  | .entK0 => false
  | .entK1 => false
  | .reserved => true

/-- The configuration registers after a write of `v` to one of them; unchanged for every other register (R26). -/
def writeConfigReg (g : ConfigRegs) (v : Word) : Reg → ConfigRegs
  | .cmd => g
  | .status => g
  | .errCode => g
  | .errInfo => g
  | .formatVersion => { g with formatVersion := v }
  | .channels => { g with channels := v }
  | .bitsPerSample => { g with bitsPerSample := v }
  | .compressionLevel => { g with compressionLevel := v }
  | .blocksPerFrame => { g with blocksPerFrame := v }
  | .finalFrameBlocks => { g with finalFrameBlocks := v }
  | .totalFrames => { g with totalFrames := v }
  | .frameIndex => { g with frameIndex := v }
  | .nblocks => { g with nblocks := v }
  | .startBit => { g with startBit := v }
  | .winLen => { g with winLen := v }
  | .winExpect => { g with winExpect := v }
  | .frameCrc => g
  | .frameFlags => g
  | .res => g
  | .bidx => g
  | .s0 => g
  | .s1 => g
  | .rcLow => g
  | .rcRange => g
  | .rcPos => g
  | .rcBuffer => g
  | .entK0 => g
  | .entK1 => g
  | .reserved => g

/-- Configuration registers and `WIN` take writes only in `IDLE` and `DONE` (R27, R60, R270). -/
def configWritable (p : Phase) : Bool := p == .idle || p == .done

/-- A host write to a register other than `CMD` (R27): a configuration register in `IDLE` or `DONE`, `S0` and `S1` in
`OPEN`; every other write is ignored. -/
def writeReg (s : State) (r : Reg) (v : Word) : State :=
  if configWritable s.phase then { s with regs := writeConfigReg s.regs v r }
  else if s.phase = .opened ∧ r = .s0 then s.setSample 0 v
  else if s.phase = .opened ∧ r = .s1 then s.setSample 1 v
  else s

/-- Byte `j` of a word, `w[8j+7 : 8j]`. -/
def byteOf (w : Word) (j : Nat) : Byte := w.extractLsb' (8 * j) 8

/-- A host write of `v` to `WIN_BASE + 4q` (R60, R62): four bytes, the least significant at `WIN[4q]`; only in `IDLE`
and `DONE`. -/
def writeWin (s : State) (q : Nat) (v : Word) : State :=
  if configWritable s.phase then
    { s with
      win := (((s.win.write (4 * q) (byteOf v 0)).write (4 * q + 1) (byteOf v 1)).write (4 * q + 2) (byteOf v 2)).write
        (4 * q + 3) (byteOf v 3) }
  else s

/-- The read data of a read that the spec leaves unspecified (R28, R66): a fresh free value each time (U19). -/
def readUnspecified (s : State) : State :=
  { s with readData := freeWord s.draws .busRead, draws := s.draws + 1 }

/-- A host read of a register (R28). -/
def readReg (s : State) (r : Reg) : State :=
  if s.phase = .err ∧ readableInErr r = false then readUnspecified s else { s with readData := regValue s r }

/-- A host read of `WIN`, in every state (R60, R62). -/
def readWin (s : State) (q : Nat) : State := { s with readData := natWord (viewWord s.win q) }

/-- A host read of `OUT`: unspecified in `ERR` (R66). -/
def readOut (s : State) (i : Nat) : State :=
  if s.phase = .err then readUnspecified s else { s with readData := outWord s.out i }

/-- Where a bus access lands (R68). -/
inductive BusTarget where
  /-- a register, by its byte offset from `REG_BASE` -/
  | reg (off : Nat)
  /-- the word at `WIN_BASE + 4q` -/
  | win (q : Nat)
  /-- word `i` of `OUT` -/
  | out (i : Nat)
  deriving DecidableEq, Repr

/-- The target of an aligned 32-bit access inside one of the three regions; none for every other access (R68, R69). -/
def busTarget (p : Config) (addr bytes : Nat) : Option BusTarget :=
  if bytes ≠ 4 ∨ addr % 4 ≠ 0 then none
  else if p.regBase ≤ addr ∧ addr < p.regBase + 0x100 then some (.reg (addr - p.regBase))
  else if p.winBase ≤ addr ∧ addr < p.winBase + p.winCap then some (.win ((addr - p.winBase) / 4))
  else if p.outBase ≤ addr ∧ addr < p.outBase + 4 * p.outCap then some (.out ((addr - p.outBase) / 4))
  else none

/-- What a bus request comes to: the issue of an operation, a new state, or nothing the spec describes. -/
inductive BusEffect where
  /-- a write to `CMD` (R81) -/
  | command (w : Word)
  /-- any other request, done -/
  | state (s : State)
  /-- an access the spec gives no meaning (R69) -/
  | outside
  deriving DecidableEq, Repr

/-- A bus read (R28, R60, R66). -/
def busRead (s : State) (addr bytes : Nat) : BusEffect :=
  match busTarget s.cfg addr bytes with
  | some (.reg off) => .state (readReg s (regAt off))
  | some (.win q) => .state (readWin s q)
  | some (.out i) => .state (readOut s i)
  | none => .outside

/-- A bus write (R27, R60, R66, R81): a write to `CMD` issues an operation in every state; writes to `OUT` are
ignored. -/
def busWrite (s : State) (addr bytes : Nat) (v : Word) : BusEffect :=
  match busTarget s.cfg addr bytes with
  | some (.reg off) => if regAt off = .cmd then .command v else .state (writeReg s (regAt off) v)
  | some (.win q) => .state (writeWin s q v)
  | some (.out _) => .state s
  | none => .outside

/-- The effect of a request on the state. -/
def serve (s : State) : BusReq → BusEffect
  | .read addr bytes => busRead s addr bytes
  | .write addr bytes v => busWrite s addr bytes v
  | .hardReset => .state (hardReset s)

end Sys2Proof.Machine
end

