-- ==== Sys2Proof/Syntax.lean ====
section
/-! DEFINITION. The fourteen operations of APE-CORE (30_encoding.md R82), one constructor for each row of
spec/opcode_table.json. -/

namespace Sys2Proof

/-- An operation with its operands (30_encoding.md R82, R89). Operands are numbers; whether the encoding can hold them
is `Instr.WellFormed`, whether the operation is legal in a state is `Machine.legal` (R87). -/
inductive Instr where
  /-- `NOP` (R110) -/
  | nop
  /-- `SRESET` (R111) -/
  | sreset
  /-- `FRAME_START` (R116) -/
  | frameStart
  /-- `FRAME` (R117) -/
  | frame
  /-- `RC_INIT` (R132) -/
  | rcInit
  /-- `RC_NORM` (R133) -/
  | rcNorm
  /-- `RC_BITS n` (R134) -/
  | rcBits (n : Nat)
  /-- `RC_SYM` (R135) -/
  | rcSym
  /-- `RC_VALUE k` (R136) -/
  | rcValue (k : Nat)
  /-- `ENT_RES c` (R137) -/
  | entRes (c : Nat)
  /-- `NNF_STEP st, c` (R161) -/
  | nnfStep (st c : Nat)
  /-- `PRED_STEP c` (R181) -/
  | predStep (c : Nat)
  /-- `STEREO_STEP` (R201) -/
  | stereoStep
  /-- `EMIT` (R203) -/
  | emit
  deriving DecidableEq, Repr

end Sys2Proof
end

