-- ==== Sys2Proof/WellFormed.lean ====
section
/-! DEFINITION. Which operands the encoding of an operation can hold (30_encoding.md R83 to R86). This is not
legality: `RC_BITS 31` is encodable and raises `IllegalCommand` (R87). -/

namespace Sys2Proof

/-- Every operand fits its field: `N` is `[4:0]` (R84), `C` is `[0]` (R85, R86), `ST` is `[9:8]` (R86). -/
def Instr.wellFormed : Instr → Bool
  | .nop => true
  | .sreset => true
  | .frameStart => true
  | .frame => true
  | .rcInit => true
  | .rcNorm => true
  | .rcBits n => decide (n < 32)
  | .rcSym => true
  | .rcValue k => decide (k < 32)
  | .entRes c => decide (c < 2)
  | .nnfStep st c => decide (st < 4) && decide (c < 2)
  | .predStep c => decide (c < 2)
  | .stereoStep => true
  | .emit => true

/-- `i` has an encoding. -/
abbrev Instr.WellFormed (i : Instr) : Prop := i.wellFormed = true

end Sys2Proof
end

