-- ==== Sys2Proof/Decode.lean ====
section
/-! DEFINITION. The command word (30_encoding.md R80 to R88): the decoder, total on all 32-bit words, refusing by
name, and the encoder. A command is one 32-bit value, consumed at the write to `CMD` (R74, R81); it has no byte
order. -/

namespace Sys2Proof

/-- Why a word is no operation: check 1 of R87. Both raise `IllegalCommand` outside `ERR` (R88). -/
inductive DecodeError where
  /-- `OP` is none of the 14 opcodes of R82. -/
  | unassignedOpcode (op : Nat)
  /-- The opcode is assigned and a reserved bit of its format is set. -/
  | reservedBitSet (op : Nat)
  deriving DecidableEq, Repr

/-- Bits `[31:24]`, the opcode `OP` (R82). -/
def opField (w : Word) : Nat := (w.extractLsb' 24 8).toNat

/-- Bits `[4:0]` of format N (R84). -/
def nField (w : Word) : Nat := (w.extractLsb' 0 5).toNat

/-- Bit `[0]` of formats C and SC (R85, R86). -/
def cField (w : Word) : Nat := (w.extractLsb' 0 1).toNat

/-- Bits `[9:8]` of format SC (R86). -/
def stField (w : Word) : Nat := (w.extractLsb' 8 2).toNat

/-- The reserved bits of format Z, `[23:0]`, are 0 (R83). -/
def reservedZ (w : Word) : Bool := w.extractLsb' 0 24 == 0#24

/-- The reserved bits of format N, `[23:5]`, are 0 (R84). -/
def reservedN (w : Word) : Bool := w.extractLsb' 5 19 == 0#19

/-- The reserved bits of format C, `[23:1]`, are 0 (R85). -/
def reservedC (w : Word) : Bool := w.extractLsb' 1 23 == 0#23

/-- The reserved bits of format SC, `[23:10]` and `[7:1]`, are 0 (R86). -/
def reservedSC (w : Word) : Bool := w.extractLsb' 10 14 == 0#14 && w.extractLsb' 1 7 == 0#7

/-- `i` if the reserved bits are 0, else refused by name. -/
def ifReserved (ok : Bool) (op : Nat) (i : Instr) : Except DecodeError Instr :=
  if ok then .ok i else .error (.reservedBitSet op)

/-- The operation a command word encodes (check 1 of R87, table of R82). -/
def decode (w : Word) : Except DecodeError Instr :=
  match opField w with
  | 0x00 => ifReserved (reservedZ w) 0x00 .nop
  | 0x01 => ifReserved (reservedZ w) 0x01 .sreset
  | 0x02 => ifReserved (reservedZ w) 0x02 .frameStart
  | 0x03 => ifReserved (reservedZ w) 0x03 .frame
  | 0x10 => ifReserved (reservedZ w) 0x10 .rcInit
  | 0x11 => ifReserved (reservedZ w) 0x11 .rcNorm
  | 0x12 => ifReserved (reservedN w) 0x12 (.rcBits (nField w))
  | 0x13 => ifReserved (reservedZ w) 0x13 .rcSym
  | 0x14 => ifReserved (reservedN w) 0x14 (.rcValue (nField w))
  | 0x15 => ifReserved (reservedC w) 0x15 (.entRes (cField w))
  | 0x20 => ifReserved (reservedSC w) 0x20 (.nnfStep (stField w) (cField w))
  | 0x30 => ifReserved (reservedC w) 0x30 (.predStep (cField w))
  | 0x40 => ifReserved (reservedZ w) 0x40 .stereoStep
  | 0x41 => ifReserved (reservedZ w) 0x41 .emit
  | op => .error (.unassignedOpcode op)

/-- The opcode of an operation (R82). -/
def opcodeOf : Instr → Nat
  | .nop => 0x00
  | .sreset => 0x01
  | .frameStart => 0x02
  | .frame => 0x03
  | .rcInit => 0x10
  | .rcNorm => 0x11
  | .rcBits _ => 0x12
  | .rcSym => 0x13
  | .rcValue _ => 0x14
  | .entRes _ => 0x15
  | .nnfStep _ _ => 0x20
  | .predStep _ => 0x30
  | .stereoStep => 0x40
  | .emit => 0x41

/-- The operand fields of an operation, in place (R83 to R86). -/
def operandBits : Instr → Nat
  | .nop => 0
  | .sreset => 0
  | .frameStart => 0
  | .frame => 0
  | .rcInit => 0
  | .rcNorm => 0
  | .rcBits n => n
  | .rcSym => 0
  | .rcValue k => k
  | .entRes c => c
  | .nnfStep st c => st * 2 ^ 8 + c
  | .predStep c => c
  | .stereoStep => 0
  | .emit => 0

/-- The command word of an operation: `OP * 2^24 + operand fields` (R89). For a well-formed operation this is its one
encoding. -/
def encode (i : Instr) : Word := BitVec.ofNat 32 (opcodeOf i * 2 ^ 24 + operandBits i)

/-- The mnemonic of an operation (R82). -/
def mnemonicOf : Instr → String
  | .nop => "NOP"
  | .sreset => "SRESET"
  | .frameStart => "FRAME_START"
  | .frame => "FRAME"
  | .rcInit => "RC_INIT"
  | .rcNorm => "RC_NORM"
  | .rcBits _ => "RC_BITS"
  | .rcSym => "RC_SYM"
  | .rcValue _ => "RC_VALUE"
  | .entRes _ => "ENT_RES"
  | .nnfStep _ _ => "NNF_STEP"
  | .predStep _ => "PRED_STEP"
  | .stereoStep => "STEREO_STEP"
  | .emit => "EMIT"

/-- The operands of an operation in the order of R82. -/
def operandsOf : Instr → List Nat
  | .nop => []
  | .sreset => []
  | .frameStart => []
  | .frame => []
  | .rcInit => []
  | .rcNorm => []
  | .rcBits n => [n]
  | .rcSym => []
  | .rcValue k => [k]
  | .entRes c => [c]
  | .nnfStep st c => [st, c]
  | .predStep c => [c]
  | .stereoStep => []
  | .emit => []

/-- An operation as an assembler line: its mnemonic, then its operands in decimal separated by a comma (R89). -/
def assembly (i : Instr) : String :=
  match operandsOf i with
  | [] => mnemonicOf i
  | x :: xs => mnemonicOf i ++ " " ++ xs.foldl (fun line y => line ++ ", " ++ Nat.repr y) (Nat.repr x)

/-- What the decoder reads from a row of the opcode table whose bits are `w`: a command is one 32-bit word, the bits
above `nbits` are 0. -/
def decodeTableWord (nbits w : Nat) : Option Instr :=
  match decode (BitVec.ofNat 32 (w % 2 ^ nbits)) with
  | .ok i => some i
  | .error _ => none

end Sys2Proof
end

