-- ==== Sys2Proof/Machine/Operands.lean ====
section
/-! DEFINITION. The operands: the derived configuration (10_state.md R30), the legality of an operation in a state
(30_encoding.md R87) and the issue of a legal, illegal or ignored operation (R81, 40_frame_control.md R119). -/

namespace Sys2Proof.Machine

/-- `nch = CHANNELS` (R30). -/
def State.nch (s : State) : Nat := s.regs.channels.toNat

/-- `ncoded` (R30). -/
def State.ncoded (s : State) : Nat := codedChannels s.regs.channels s.fstereo

/-- `nstages` (R30). -/
def State.nstages (s : State) : Nat := s.row.length

/-- Check 2 of R87: the state. -/
def legalState (i : Instr) (p : Phase) : Bool :=
  match i with
  | .nop => p != .err
  | .sreset => p != .err
  | .frameStart => p != .err
  | .frame => p != .err
  | .rcInit => p == .opened
  | .rcNorm => p == .opened
  | .rcBits _ => p == .opened
  | .rcSym => p == .opened
  | .rcValue _ => p == .opened
  | .entRes _ => p == .opened
  | .nnfStep _ _ => p == .opened
  | .predStep _ => p == .opened
  | .stereoStep => p == .opened
  | .emit => p == .opened

/-- Check 3 of R87: the operand range. -/
def legalOperand (i : Instr) (s : State) : Bool :=
  match i with
  | .nop => true
  | .sreset => true
  | .frameStart => true
  | .frame => true
  | .rcInit => true
  | .rcNorm => true
  | .rcBits n => decide (n ≤ 16)
  | .rcSym => true
  | .rcValue k => decide (k ≤ s.cfg.kMax)
  | .entRes c => decide (c < s.ncoded)
  | .nnfStep st c => decide (c < s.ncoded) && decide (st < s.nstages)
  | .predStep c => decide (c < s.ncoded)
  | .stereoStep => true
  | .emit => true

/-- Check 4 of R87: the unit precondition. -/
def legalUnit (i : Instr) (s : State) : Bool :=
  match i with
  | .nop => true
  | .sreset => true
  | .frameStart => true
  | .frame => true
  | .rcInit => !s.silent
  | .rcNorm => s.rcInit
  | .rcBits _ => s.rcInit
  | .rcSym => s.rcInit
  | .rcValue _ => s.rcInit
  | .entRes _ => s.rcInit
  | .nnfStep _ _ => true
  | .predStep _ => true
  | .stereoStep => s.regs.channels == 2#32 && !s.fstereo
  | .emit => decide (s.bidx < s.regs.nblocks)

/-- Checks 2 to 4 of R87; check 1 is the decoder's. All raise the same error, so their order shows nowhere. -/
def legal (i : Instr) (s : State) : Bool := legalState i s.phase && legalOperand i s && legalUnit i s

/-- The issue of an operation other than `SRESET` (R81): ignored in `ERR` (R119); `IllegalCommand` with its word if a
check of R87 fails (R223); else it runs to its outcome (R12). -/
def issue (i : Instr) (op : State → Except Err State) (s : State) : Host.Outcome State Fault Refusal :=
  if s.phase = .err then .next s
  else if legal i s then .next (settle (op s) s)
  else .next (raise (illegalCommand (encode i)) s)

end Sys2Proof.Machine
end

