-- ==== Sys2Proof/Machine/NnFilter.lean ====
section
/-! DEFINITION. The NNFilter bank (42_nnfilter.md): `NnfStep` and the operation `NNF_STEP`. -/

namespace Sys2Proof.Machine

/-- `acc` of `NnfStep`: the exact sum of `w[j] * h[j]` (R161); it fits `i64` (R162). -/
def nnfAcc (g : Stage) : Int := dot (g.w.map BitVec.toInt) (g.h.map BitVec.toInt)

/-- `NnfStep(st, c, x)` on the stage's own state `g` (R161): the output and the stage advanced by one sample. The update
uses the old history and the input. -/
def nnfStage (spec : StageSpec) (st c : Nat) (x : Word) (g : Stage) : Except Err (Word × Stage) :=
  let h := g.h.map BitVec.toInt
  let w := g.w.map BitVec.toInt
  let y := x.toInt + sar (nnfAcc g) spec.shift
  let w' := signUpdate (sgn x.toInt) w h
  if !fitsSigned 32 y then .error (arithmeticOverflow 1 c st)
  else if !w'.all (fitsSigned 16) then .error (arithmeticOverflow 2 c st)
  else .ok (toWord y, ⟨shiftIn spec.order (toWord y) g.h, w'.map toHalf⟩)

/-- `NnfStep(st, c, x)` on the state (R161): stage `st` of channel `c`, with `(order[st], shift[st])` from the selected
row (R30). -/
def nnfStep (st c : Nat) (x : Word) (s : State) : Except Err (Word × State) := do
  let (y, g) ← nnfStage (s.row[st]?.getD ⟨0, 0⟩) st c x ((s.chan c).nnf[st]?.getD ⟨[], []⟩)
  .ok (y, s.setChan c { s.chan c with nnf := (s.chan c).nnf.set st g })

/-- The operation `NNF_STEP st, c` (R161): `S[c] <- NnfStep(st, c, S[c])`. -/
def opNnfStep (st c : Nat) (s : State) : Except Err State := do
  let (y, s) ← nnfStep st c (s.chan c).sample s
  .ok (s.setSample c y)

/-- `NNF_STEP st, c` (R161). -/
def execNnfStep (st c : Nat) (s : State) : Host.Outcome State Fault Refusal := issue (.nnfStep st c) (opNnfStep st c) s

end Sys2Proof.Machine
end

