-- ==== Sys2Proof/Machine/Predict.lean ====
section
/-! DEFINITION. The predictor (43_predictor.md): `PredStep` and the operation `PRED_STEP`. -/

namespace Sys2Proof.Machine

/-- `PredStep(c, y)` on the channel's predictor `q` (R181): the output and the predictor advanced by one sample. The
update uses the old histories and the input. -/
def predStage (p : Config) (c : Nat) (y : Word) (q : Predictor) : Except Err (Word × Predictor) :=
  let a := q.a.map BitVec.toInt
  let b := q.b.map BitVec.toInt
  let ys := q.y.map BitVec.toInt
  let zs := q.z.map BitVec.toInt
  let acc := dot a zs + dot b ys
  let z := y.toInt + sar acc p.predShift
  let a' := signUpdate (sgn y.toInt) a zs
  let b' := signUpdate (sgn y.toInt) b ys
  if !fitsSigned 64 acc then .error (arithmeticOverflow 5 c 0)
  else if !fitsSigned 32 z then .error (arithmeticOverflow 3 c 0)
  else if !(a'.all (fitsSigned 32) && b'.all (fitsSigned 32)) then .error (arithmeticOverflow 4 c 0)
  else .ok (toWord z,
    ⟨a'.map toWord, b'.map toWord, shiftIn p.predNY y q.y, shiftIn p.predNZ (toWord z) q.z⟩)

/-- `PredStep(c, y)` on the state (R181). -/
def predStep (c : Nat) (y : Word) (s : State) : Except Err (Word × State) := do
  let (z, q) ← predStage s.cfg c y (s.chan c).pred
  .ok (z, s.setChan c { s.chan c with pred := q })

/-- The operation `PRED_STEP c` (R181): `S[c] <- PredStep(c, S[c])`. -/
def opPredStep (c : Nat) (s : State) : Except Err State := do
  let (z, s) ← predStep c (s.chan c).sample s
  .ok (s.setSample c z)

/-- `PRED_STEP c` (R181). -/
def execPredStep (c : Nat) (s : State) : Host.Outcome State Fault Refusal := issue (.predStep c) (opPredStep c) s

end Sys2Proof.Machine
end

