-- ==== Sys2Proof/Machine/RangeDecoder.lean ====
section
/-! DEFINITION. The range decoder (41_range_decoder.md): `NextByte`, `RcInit`, `RcNorm`, `RcBits`, `RcSym`, `RcValue`,
`Fold`, `Adapt`, `EntRes`, and the operations `RC_INIT`, `RC_NORM`, `RC_BITS`, `RC_SYM`, `RC_VALUE`, `ENT_RES`. Each
function takes the stream view and the range decoder's registers and gives the registers after it. -/

namespace Sys2Proof.Machine

/-- `NextByte()` (R131). -/
def nextByte (v : View) (r : RangeState) : Except Err (Nat × RangeState) :=
  if streamDefined v r.pos.toNat 8 then
    .ok (streamBits v r.pos.toNat 8, { r with pos := natWord (r.pos.toNat + 8) })
  else .error (corruptBitstream 1)

/-- `RcInit()` (R132): the leading bit of the byte is discarded. `RCINIT <- 1` is its caller's. -/
def rcInit (v : View) (r : RangeState) : Except Err RangeState := do
  let (b0, r) ← nextByte v r
  .ok { r with low := natWord (b0 % 2 ^ 7), range := natWord (2 ^ 7) }

/-- At most `fuel` iterations of the loop of `RcNorm` (R133). A range of 1 or more reaches `2^24` within 3 (R141); with
`RC_RANGE = 0`, which no run reaches (R140), the loop ends only by `NextByte` leaving the window, so running out of
fuel is `CorruptBitstream(1)` (notes/assumptions/7.md). -/
def rcNormLoop (v : View) (fuel : Nat) (r : RangeState) : Except Err RangeState :=
  if r.range.toNat < 2 ^ 24 then
    match fuel with
    | 0 => .error (corruptBitstream 1)
    | fuel + 1 => do
      let (b, r) ← nextByte v r
      rcNormLoop v fuel
        { r with low := natWord (r.low.toNat * 2 ^ 8 + b), range := natWord (r.range.toNat * 2 ^ 8) }
  else .ok r

/-- `RcNorm()` (R133). -/
def rcNorm (v : View) (r : RangeState) : Except Err RangeState := rcNormLoop v 3 r

/-- `RcBits(n)` (R134). -/
def rcBits (v : View) (n : Nat) (r : RangeState) : Except Err (Nat × RangeState) := do
  let r ← rcNorm v r
  let help := r.range.toNat / 2 ^ n
  let x := r.low.toNat / help
  if x ≥ 2 ^ n then .error (corruptBitstream 2)
  else .ok (x, { r with low := natWord (r.low.toNat - help * x), range := natWord help })

/-- The unique `s` with `OVF_CUM[s] <= cf < OVF_CUM[s+1]`, with the two bounds (R135); `i` is the index of the list's
first entry. -/
def ovfFind (cf : Nat) (i : Nat) : List Nat → Option (Nat × Nat × Nat)
  | [] => none
  | lo :: rest =>
    match rest with
    | [] => none
    | hi :: _ => if lo ≤ cf ∧ cf < hi then some (i, lo, hi) else ovfFind cf (i + 1) rest

/-- `RcSym()` (R135). With a legal table (R7) a symbol is always found; without one the code belongs to no symbol,
`CorruptBitstream(2)` (notes/assumptions/7.md). -/
def rcSym (p : Config) (v : View) (r : RangeState) : Except Err (Nat × RangeState) := do
  let r ← rcNorm v r
  let help := r.range.toNat / 2 ^ p.ovfShift
  let cf := r.low.toNat / help
  if cf ≥ 2 ^ p.ovfShift then .error (corruptBitstream 2)
  else
    match ovfFind cf 0 p.ovfCum with
    | some (s, lo, hi) =>
      .ok (s, { r with low := natWord (r.low.toNat - help * lo), range := natWord (help * (hi - lo)) })
    | none => .error (corruptBitstream 2)

/-- At most `fuel` iterations of the loop of `RcValue` (R136), `ovf` the count so far; gives the overflow count. Out of
fuel the count has passed every value that fits (R141), `CorruptBitstream(3)`. -/
def rcOverflow (p : Config) (v : View) (k : Nat) : Nat → Nat → RangeState → Except Err (Nat × RangeState)
  | 0, _, _ => .error (corruptBitstream 3)
  | fuel + 1, ovf, r => do
    let (s, r) ← rcSym p v r
    if (ovf + s) * 2 ^ k ≥ 2 ^ 32 then .error (corruptBitstream 3)
    else if s = p.ovfNsym - 1 then rcOverflow p v k fuel (ovf + s) r
    else .ok (ovf + s, r)

/-- The bound of R141 on the iterations of the loop of `RcValue`. -/
def overflowBound (p : Config) : Nat := 2 ^ 32 / (p.ovfNsym - 1) + 1

/-- The `k` refinement bits (R136): none, one field, or the low 16 then the high `k - 16`. -/
def rcRefine (v : View) (k : Nat) (r : RangeState) : Except Err (Nat × RangeState) :=
  if k = 0 then .ok (0, r)
  else if k ≤ 16 then rcBits v k r
  else do
    let (lo, r) ← rcBits v 16 r
    let (hi, r) ← rcBits v (k - 16) r
    .ok (hi * 2 ^ 16 + lo, r)

/-- `RcValue(k)` (R136). -/
def rcValue (p : Config) (v : View) (k : Nat) (r : RangeState) : Except Err (Nat × RangeState) := do
  let (ovf, r) ← rcOverflow p v k (overflowBound p) 0 r
  let (bits, r) ← rcRefine v k r
  .ok (ovf * 2 ^ k + bits, r)

/-- `Fold(v)` (R138). -/
def fold (v : Nat) : Int := if v % 2 = 0 then (v : Int) / 2 else -(((v : Int) + 1) / 2)

/-- `Adapt(k, v)` (R139). -/
def adapt (kMax k v : Nat) : Nat :=
  if v ≥ 2 ^ (k + 1) then min (k + 1) kMax
  else if 0 < k ∧ v < 2 ^ (k - 1) then k - 1
  else k

/-- Which `K[e]` channel `c` uses (R32, R137). -/
def kIndex (p : Config) (c : Nat) : Nat := if p.entShared then 0 else c

/-- `EntRes(c)` (R137): the value, its fold, and the state with the range decoder and `K[e]` advanced. -/
def entRes (c : Nat) (s : State) : Except Err (Nat × Int × State) := do
  let e := kIndex s.cfg c
  let k := (s.chan e).k
  let (v, r) ← rcValue s.cfg s.view k s.rc
  .ok (v, fold v, { s with rc := r }.setK e (adapt s.cfg.kMax k v))

/-- The operation `RC_INIT` (R132). -/
def opRcInit (s : State) : Except Err State := do
  let r ← rcInit s.view s.rc
  .ok { s with rc := r, rcInit := true }

/-- The operation `RC_NORM` (R133). -/
def opRcNorm (s : State) : Except Err State := do
  let r ← rcNorm s.view s.rc
  .ok { s with rc := r }

/-- The operation `RC_BITS n` (R134). -/
def opRcBits (n : Nat) (s : State) : Except Err State := do
  let (v, r) ← rcBits s.view n s.rc
  .ok { s with rc := r, res := natWord v }

/-- The operation `RC_SYM` (R135). -/
def opRcSym (s : State) : Except Err State := do
  let (v, r) ← rcSym s.cfg s.view s.rc
  .ok { s with rc := r, res := natWord v }

/-- The operation `RC_VALUE k` (R136). -/
def opRcValue (k : Nat) (s : State) : Except Err State := do
  let (v, r) ← rcValue s.cfg s.view k s.rc
  .ok { s with rc := r, res := natWord v }

/-- The operation `ENT_RES c` (R137): `(RES, S[c]) <- EntRes(c)`. -/
def opEntRes (c : Nat) (s : State) : Except Err State := do
  let (v, x, s) ← entRes c s
  .ok ({ s with res := natWord v }.setSample c (toWord x))

/-- `RC_INIT` (R132). -/
def execRcInit (s : State) : Host.Outcome State Fault Refusal := issue .rcInit opRcInit s

/-- `RC_NORM` (R133). -/
def execRcNorm (s : State) : Host.Outcome State Fault Refusal := issue .rcNorm opRcNorm s

/-- `RC_BITS n` (R134). -/
def execRcBits (n : Nat) (s : State) : Host.Outcome State Fault Refusal := issue (.rcBits n) (opRcBits n) s

/-- `RC_SYM` (R135). -/
def execRcSym (s : State) : Host.Outcome State Fault Refusal := issue .rcSym opRcSym s

/-- `RC_VALUE k` (R136). -/
def execRcValue (k : Nat) (s : State) : Host.Outcome State Fault Refusal := issue (.rcValue k) (opRcValue k) s

/-- `ENT_RES c` (R137). -/
def execEntRes (c : Nat) (s : State) : Host.Outcome State Fault Refusal := issue (.entRes c) (opEntRes c) s

end Sys2Proof.Machine
end

