-- ==== Sys2Proof/Machine/StereoOutput.lean ====
section
/-! DEFINITION. The stereo decorrelator and the output stage (44_stereo_output.md): `Stereo`, and the operations
`STEREO_STEP` and `EMIT`. -/

namespace Sys2Proof.Machine

/-- `Stereo(X, Y)`, giving `(left, right)` (R200). -/
def stereo (x y : Word) : Except Err (Word × Word) :=
  let right := x.toInt - sar y.toInt 1
  let left := right + y.toInt
  if !fitsSigned 32 right then .error (arithmeticOverflow 6 0 0)
  else if !fitsSigned 32 left then .error (arithmeticOverflow 6 0 0)
  else .ok (toWord left, toWord right)

/-- The operation `STEREO_STEP` (R201): `S[0]` becomes left, `S[1]` right, both from the old values. -/
def opStereoStep (s : State) : Except Err State := do
  let (left, right) ← stereo s.ch0.sample s.ch1.sample
  .ok ((s.setSample 0 left).setSample 1 right)

/-- The operation `EMIT` (R203). -/
def opEmit (s : State) : Except Err State :=
  let b := s.bidx.toNat
  let written :=
    if s.regs.channels = 1 then s.writeOut b s.ch0.sample
    else (s.writeOut (2 * b) s.ch0.sample).writeOut (2 * b + 1) (if s.fstereo then s.ch0.sample else s.ch1.sample)
  .ok { written with bidx := natWord (b + 1) }

/-- `STEREO_STEP` (R201). -/
def execStereoStep (s : State) : Host.Outcome State Fault Refusal := issue .stereoStep opStereoStep s

/-- `EMIT` (R203). -/
def execEmit (s : State) : Host.Outcome State Fault Refusal := issue .emit opEmit s

end Sys2Proof.Machine
end

