-- ==== Sys2Proof/Machine/FrameControl.lean ====
section
/-! DEFINITION. Frame control (40_frame_control.md): `ValidateStream`, `ValidateFrame`, `ClearFrameState`,
`ReadHeader`, and the operations `NOP`, `SRESET`, `FRAME_START`, `FRAME`. -/

namespace Sys2Proof.Machine

/-- The eight checks of `ValidateStream()`, in order (R112). -/
def streamChecks (s : State) : List (Bool × Err) :=
  [ (decide (s.regs.formatVersion.toNat < 3990), unsupportedVersion s.regs.formatVersion),
    (!(s.regs.channels.toNat == 1 || s.regs.channels.toNat == 2), unsupportedConfiguration 1),
    (!(s.regs.bitsPerSample.toNat == 8 || s.regs.bitsPerSample.toNat == 16 || s.regs.bitsPerSample.toNat == 24),
      unsupportedConfiguration 2),
    ((s.cfg.nnfTable.row s.regs.compressionLevel.toNat).isNone, unsupportedConfiguration 3),
    (s.regs.blocksPerFrame.toNat == 0 || decide (s.regs.blocksPerFrame.toNat > s.cfg.blocksMax), invalidHeader 1),
    (s.regs.finalFrameBlocks.toNat == 0 || decide (s.regs.finalFrameBlocks.toNat > s.regs.blocksPerFrame.toNat),
      invalidHeader 2),
    (s.regs.totalFrames.toNat == 0, invalidHeader 3),
    (decide (s.regs.startBit.toNat > 31), invalidHeader 4) ]

/-- The expected block count of frame `FRAME_INDEX` (R113 check 2). -/
def expectedBlocks (s : State) : Nat :=
  if s.regs.frameIndex.toNat < s.regs.totalFrames.toNat - 1 then s.regs.blocksPerFrame.toNat
  else s.regs.finalFrameBlocks.toNat

/-- The five checks of `ValidateFrame()`, in order (R113). -/
def frameChecks (s : State) : List (Bool × Err) :=
  [ (decide (s.regs.frameIndex.toNat ≥ s.regs.totalFrames.toNat), corruptFrame 1),
    (s.regs.nblocks.toNat != expectedBlocks s, corruptFrame 2),
    (decide (s.regs.winLen.toNat > s.cfg.winCap), unsupportedConfiguration 4),
    (decide (s.regs.nblocks.toNat * s.regs.channels.toNat > s.cfg.outCap), unsupportedConfiguration 5),
    (decide (s.regs.winLen.toNat < s.regs.winExpect.toNat), truncatedFrame 1) ]

/-- `ClearFrameState()` (R114): the "per-frame clear" column of R40. -/
def clearFrameState (s : State) : State :=
  { s with
    silent := false
    fstereo := false
    rcInit := false
    res := 0
    bidx := 0
    rc := ⟨0, 0, s.regs.startBit⟩
    ch0 := clearChan s s.cfg.kInit
    ch1 := clearChan s s.cfg.kInit }

/-- The checks on the flags word `f` of `ReadHeader()`, in order (R115, R93). -/
def flagChecks (s : State) (f : Word) : List (Bool × Err) :=
  [ (flagReservedSet f, corruptFrame 3),
    (flagFalseStereo f && s.regs.channels == 1#32, corruptFrame 4),
    (flagSilence f != 0 && flagSilence f != 2 ^ codedChannels s.regs.channels (flagFalseStereo f) - 1,
      corruptFrame 4) ]

/-- `StreamBits(p, 32)  else raise TruncatedFrame(2)` (R115). -/
def headerWord (v : View) (p : Nat) : Except Err Word :=
  if streamDefined v p 32 then .ok (natWord (streamBits v p 32)) else .error (truncatedFrame 2)

/-- `ReadHeader()` (R115). -/
def readHeader (s : State) : Except Err State := do
  let p := s.regs.startBit.toNat
  let crc ← headerWord s.view p
  let f ← headerWord s.view (p + 32)
  runChecks (flagChecks s f)
  .ok { s with
    rc := { s.rc with pos := natWord (p + 64) }
    frameCrc := crc
    frameFlags := f
    fstereo := flagFalseStereo f
    silent := flagSilence f != 0 }

/-- The six lines of `FRAME_START` (R116). -/
def frameStart (s : State) : Except Err State := do
  runChecks (streamChecks s)
  runChecks (frameChecks s)
  let s ← readHeader (clearFrameState s)
  let s ← if s.silent then .ok s else opRcInit s
  .ok { s with phase := .opened }

/-- One iteration of step 4 of `FRAME`: channel `c` of block `b` (R117). -/
def entropyChannel (b c : Nat) (s : State) : Except Err State := do
  let (_, x, t) ← entRes c s
  .ok (t.writeOut (b * t.nch + c) (toWord x))

/-- Step 4 of `FRAME` for block `b`: channel 0 before channel 1 (R117). -/
def entropyBlock (b : Nat) (s : State) : Except Err State := forUpTo s.ncoded (entropyChannel b) s

/-- `for st in 0 .. m-1: x <- NnfStep(st, c, x)` (R117). -/
def cascade (c : Nat) (x : Word) (s : State) : Nat → Except Err (Word × State)
  | 0 => .ok (x, s)
  | m + 1 => do
    let (y, t) ← cascade c x s m
    nnfStep m c y t

/-- One iteration of step 5 of `FRAME`: block `b` of channel `c` through the cascade and the predictor (R117). -/
def filterBlock (c b : Nat) (s : State) : Except Err State := do
  let (x, t) ← cascade c (outWord s.out (b * s.nch + c)) s s.nstages
  let (z, t) ← predStep c x t
  .ok (t.writeOut (b * t.nch + c) z)

/-- Step 5 of `FRAME` for channel `c`: all blocks in order (R117). -/
def filterChannel (n c : Nat) (s : State) : Except Err State := forUpTo n (filterBlock c) s

/-- One iteration of step 6 of `FRAME` (R117, R202). -/
def stereoBlock (b : Nat) (s : State) : Except Err State :=
  if s.nch = 2 then
    if s.fstereo then .ok (s.writeOut (2 * b + 1) (outWord s.out (2 * b)))
    else do
      let (left, right) ← stereo (outWord s.out (2 * b)) (outWord s.out (2 * b + 1))
      .ok ((s.writeOut (2 * b) left).writeOut (2 * b + 1) right)
  else .ok s

/-- `MemWrite(OUT, i, 4, 0)` of a silent frame (R117, R204). -/
def silenceWord (i : Nat) (s : State) : Except Err State := .ok (s.writeOut i 0)

/-- `FRAME` between `FRAME_START`'s six lines and its end, with `n = NBLOCKS` (R117). -/
def frameBody (s : State) : Except Err State :=
  let n := s.regs.nblocks.toNat
  if s.silent then forUpTo (n * s.nch) silenceWord s
  else do
    let s ← forUpTo n entropyBlock s
    let s ← forUpTo s.ncoded (filterChannel n) s
    forUpTo n stereoBlock s

/-- The operation `FRAME` (R117). -/
def opFrame (s : State) : Except Err State := do
  let s ← frameStart s
  let s ← frameBody s
  .ok { s with bidx := s.regs.nblocks, phase := .done }

/-- The operation `NOP` (R110): nothing. -/
def opNop (s : State) : Except Err State := .ok s

/-- `NOP` (R110). -/
def execNop (s : State) : Host.Outcome State Fault Refusal := issue .nop opNop s

/-- `SRESET` (R111): legal in every state, `ERR` included. -/
def execSreset (s : State) : Host.Outcome State Fault Refusal := .next (softReset s)

/-- `FRAME_START` (R116). -/
def execFrameStart (s : State) : Host.Outcome State Fault Refusal := issue .frameStart frameStart s

/-- `FRAME` (R117). -/
def execFrame (s : State) : Host.Outcome State Fault Refusal := issue .frame opFrame s

end Sys2Proof.Machine
end

