-- ==== Sys2Proof/Machine/Dispatch.lean ====
section
/-! DEFINITION. One arm for each operation (30_encoding.md R82). -/

namespace Sys2Proof.Machine

def exec (i : Instr) (s : State) : Host.Outcome State Fault Refusal :=
  match i with
  | .nop => Sys2Proof.Machine.execNop s
  | .sreset => Sys2Proof.Machine.execSreset s
  | .frameStart => Sys2Proof.Machine.execFrameStart s
  | .frame => Sys2Proof.Machine.execFrame s
  | .rcInit => Sys2Proof.Machine.execRcInit s
  | .rcNorm => Sys2Proof.Machine.execRcNorm s
  | .rcBits n => Sys2Proof.Machine.execRcBits n s
  | .rcSym => Sys2Proof.Machine.execRcSym s
  | .rcValue k => Sys2Proof.Machine.execRcValue k s
  | .entRes c => Sys2Proof.Machine.execEntRes c s
  | .nnfStep st c => Sys2Proof.Machine.execNnfStep st c s
  | .predStep c => Sys2Proof.Machine.execPredStep c s
  | .stereoStep => Sys2Proof.Machine.execStereoStep s
  | .emit => Sys2Proof.Machine.execEmit s

end Sys2Proof.Machine
end

