-- ==== Sys2Proof/Machine/Step.lean ====
section
/-! DEFINITION. One step: the host's next pending request is served (10_state.md R20, 70_reset_and_hazards.md R266). A
write to `CMD` runs the operation to its outcome. -/

namespace Sys2Proof.Machine

/-- The issue of the word `w` (R81): decoded (check 1 of R87), then executed or rejected. -/
def issueWord (w : Word) (s : State) : Host.Outcome State Fault Refusal :=
  match decode w with
  | .ok i => exec i s
  | .error _ => .next (rejectWord w s)

/-- What a served request comes to. -/
def finish (e : BusEffect) (s : State) : Host.Outcome State Fault Refusal :=
  match e with
  | .command w => issueWord w s
  | .state t => .next t
  | .outside => .refused .busAccessOutsideSpec

/-- One step. With no request pending the engine does nothing (R260); with parameters that violate R7 the model is not
instantiated (R7). -/
def step (s : State) : Host.Outcome State Fault Refusal :=
  if s.cfg.Legal then
    match s.bus with
    | [] => .next s
    | q :: rest => finish (serve { s with bus := rest } q) { s with bus := rest }
  else .refused .illegalParameters

/-- `s` with a write of the instruction's word to `CMD` as the host's next request: where the next operation comes from
(R23, R81). -/
def State.withFetchWord (s : State) (nbits w : Nat) : State :=
  { s with bus := .write s.cfg.regBase 4 (BitVec.ofNat 32 (w % 2 ^ nbits)) :: s.bus }

end Sys2Proof.Machine
end

