-- ==== Sys2Proof/Machine/StepMode.lean ====
section
/-! DEFINITION. The two pseudo-instructions (30_encoding.md R90), abbreviations of the host's program: `BLOCK`, the
step-mode sequence of one block, and `CFG`, seven register writes. No operation of the hardware. -/

namespace Sys2Proof.Machine

/-- `NNF_STEP 0, c` .. `NNF_STEP nstages-1, c`; `PRED_STEP c` (R90). -/
def filterOps (nstages c : Nat) : List Instr := (List.range nstages).map (fun st => .nnfStep st c) ++ [.predStep c]

/-- `BLOCK` for the open frame of `s` (R90). -/
def blockOps (s : State) : List Instr :=
  if s.silent then [.emit]
  else
    (List.range s.ncoded).map (fun c => .entRes c)
      ++ ((List.range s.ncoded).map (filterOps s.nstages)).flatten
      ++ (if s.regs.channels = 2 ∧ s.fstereo = false then [.stereoStep] else [])
      ++ [.emit]

/-- Operations one after the other, each to its outcome (R266). -/
def runOps : List Instr → State → Host.Outcome State Fault Refusal
  | [], s => .next s
  | i :: rest, s =>
    match exec i s with
    | .next t => runOps rest t
    | .fault f => .fault f
    | .refused r => .refused r

/-- `n` times `BLOCK` (R90). -/
def runBlocks : Nat → State → Host.Outcome State Fault Refusal
  | 0, s => .next s
  | n + 1, s =>
    match runOps (blockOps s) s with
    | .next t => runBlocks n t
    | .fault f => .fault f
    | .refused r => .refused r

/-- `CFG v, ch, bps, lvl, bpf, ffb, tf`: the seven writes, at offsets 0x10 to 0x28 (R90, R26). -/
def cfgWrites (p : Config) (v ch bps lvl bpf ffb tf : Word) : List BusReq :=
  [.write (p.regBase + 0x10) 4 v, .write (p.regBase + 0x14) 4 ch, .write (p.regBase + 0x18) 4 bps,
    .write (p.regBase + 0x1C) 4 lvl, .write (p.regBase + 0x20) 4 bpf, .write (p.regBase + 0x24) 4 ffb,
    .write (p.regBase + 0x28) 4 tf]

end Sys2Proof.Machine
end

