-- ==== Sys2Proof/Safety.lean ====
section
/-! DEFINITION. What a well-formed state is, in the terms the statements use: the facts the spec says hold in every
state a run reaches. -/

namespace Sys2Proof.Machine

/-- A channel's predictor vectors have the lengths of R34, and `K[c]` is in `0..K_MAX` (R32). -/
abbrev ChanOk (p : Config) (ch : Chan) : Prop :=
  ch.k ≤ p.kMax ∧ ch.pred.a.length = p.predNZ ∧ ch.pred.b.length = p.predNY ∧ ch.pred.y.length = p.predNY ∧
    ch.pred.z.length = p.predNZ

/-- A channel's NNFilter bank has the stages and orders of the row of `NNF_TABLE` (R33). -/
abbrev BankOk (row : List StageSpec) (ch : Chan) : Prop :=
  ch.nnf.map (fun g => (g.h.length, g.w.length)) = row.map (fun g => (g.order, g.order))

/-- The memories are in canonical form and hold nothing outside their capacity (R60, R66); no free value has been used
twice. -/
abbrev MemoryOk (s : State) : Prop :=
  s.win.wf ∧ (∀ c ∈ s.win.cells, c.1 < s.cfg.winCap) ∧ s.win.epoch < s.draws ∧
  s.out.wf ∧ (∀ c ∈ s.out.cells, c.1 < s.cfg.outCap) ∧ s.out.epoch < s.draws

/-- `STATE = ERR` exactly when an error is recorded (R25, R220, R226); `Io` is never recorded (R220); `ERRINFO` is 0
with no error (R221). -/
abbrev ErrorOk (s : State) : Prop :=
  (s.phase = .err ↔ s.errCode ≠ .none) ∧ s.errCode ≠ .io ∧ (s.errCode = .none → s.errInfo = 0)

/-- The configuration an open frame was validated against still holds (R27, R112, R113). -/
abbrev Validated (s : State) : Prop :=
  3990 ≤ s.regs.formatVersion.toNat ∧
  (s.regs.channels = 1 ∨ s.regs.channels = 2) ∧
  (s.regs.bitsPerSample = 8 ∨ s.regs.bitsPerSample = 16 ∨ s.regs.bitsPerSample = 24) ∧
  (s.cfg.nnfTable.row s.regs.compressionLevel.toNat).isSome = true ∧
  1 ≤ s.regs.blocksPerFrame.toNat ∧ s.regs.blocksPerFrame.toNat ≤ s.cfg.blocksMax ∧
  1 ≤ s.regs.finalFrameBlocks.toNat ∧ s.regs.finalFrameBlocks.toNat ≤ s.regs.blocksPerFrame.toNat ∧
  1 ≤ s.regs.totalFrames.toNat ∧ s.regs.startBit.toNat ≤ 31 ∧
  s.regs.frameIndex.toNat < s.regs.totalFrames.toNat ∧
  s.regs.nblocks.toNat = expectedBlocks s ∧
  s.regs.winLen.toNat ≤ s.cfg.winCap ∧
  s.regs.nblocks.toNat * s.regs.channels.toNat ≤ s.cfg.outCap ∧
  s.regs.winExpect.toNat ≤ s.regs.winLen.toNat

/-- The flags agree with the latched flags word (R93, R115): no reserved bit, `FALSE_STEREO` only with two channels, the
silence bits all or none over the coded channels. -/
abbrev FlagsOk (s : State) : Prop :=
  flagReservedSet s.frameFlags = false ∧
  s.fstereo = flagFalseStereo s.frameFlags ∧
  s.silent = (flagSilence s.frameFlags != 0) ∧
  (s.fstereo = true → s.regs.channels = 2) ∧
  (s.silent = true → flagSilence s.frameFlags = 2 ^ s.ncoded - 1)

/-- The range decoder's invariant (R140). -/
abbrev RangeOk (r : RangeState) : Prop := r.low.toNat < r.range.toNat ∧ 2 ^ 7 ≤ r.range.toNat

/-- What holds while a frame is open. `RCINIT` is 0 exactly in a silent frame (R116, R204). -/
abbrev OpenOk (s : State) : Prop :=
  Validated s ∧ FlagsOk s ∧ BankOk s.row s.ch0 ∧ BankOk s.row s.ch1 ∧
  s.bidx.toNat ≤ s.regs.nblocks.toNat ∧
  (s.rcInit = !s.silent) ∧ (s.rcInit = true → RangeOk s.rc)

/-- THE INVARIANT: what holds in every state a run reaches. -/
abbrev State.Inv (s : State) : Prop :=
  s.cfg.Legal ∧ MemoryOk s ∧ ErrorOk s ∧ ChanOk s.cfg s.ch0 ∧ ChanOk s.cfg s.ch1 ∧
  (s.phase = .opened → OpenOk s)

end Sys2Proof.Machine
end

