-- ==== Sys2Proof/Certificates/Slice0/Obligations.lean ====
section
/-! DEFINITION. The statements for the provers. `Sys2Proof.Spec` says in the spec's own words, without the model's
functions where it can, what a statement compares the model with. -/

namespace Sys2Proof.Spec

open Sys2Proof.Machine

/-! ## The range decoder in closed form (41_range_decoder.md R133 to R136) -/

/-- How many bytes normalisation consumes (R133, R141): `2^7 → 2^15 → 2^23 → 2^31`. -/
def normBytes (range : Nat) : Nat :=
  if 2 ^ 24 ≤ range then 0 else if 2 ^ 16 ≤ range then 1 else if 2 ^ 8 ≤ range then 2 else 3

/-- The bits normalisation consumes from `RC_POS` on. -/
def normBits (r : RangeState) : Nat := 8 * normBytes r.range.toNat

/-- Every byte normalisation needs is inside the window (R64, R131). -/
abbrev Available (v : View) (r : RangeState) : Prop := streamDefined v r.pos.toNat (normBits r) = true

/-- `RC_LOW` after normalisation. -/
def normLow (v : View) (r : RangeState) : Nat :=
  r.low.toNat * 2 ^ normBits r + streamBits v r.pos.toNat (normBits r)

/-- `RC_RANGE` after normalisation. -/
def normRange (r : RangeState) : Nat := r.range.toNat * 2 ^ normBits r

/-- `RC_POS` after normalisation. -/
def normPos (r : RangeState) : Word := BitVec.ofNat 32 (r.pos.toNat + normBits r)

/-- The registers after normalisation. -/
def normalised (v : View) (r : RangeState) : RangeState :=
  ⟨BitVec.ofNat 32 (normLow v r), BitVec.ofNat 32 (normRange r), normPos r⟩

/-- `help` of R134 and R135 with shift `n`. -/
def help (r : RangeState) (n : Nat) : Nat := normRange r / 2 ^ n

/-- The code's place in the interval, `RC_LOW // help`, of R134 and R135. -/
def place (v : View) (r : RangeState) (n : Nat) : Nat := normLow v r / help r n

/-- The registers after a decode that takes the part of the interval from `help * lo` on, `help * freq` wide. -/
def taken (v : View) (r : RangeState) (n lo freq : Nat) : RangeState :=
  ⟨BitVec.ofNat 32 (normLow v r - help r n * lo), BitVec.ofNat 32 (help r n * freq), normPos r⟩

/-- `RcBits(n)` gives `x` and the registers `r'` (R134). -/
def BitsAt (v : View) (n : Nat) (r : RangeState) (x : Nat) (r' : RangeState) : Prop :=
  Available v r ∧ x = place v r n ∧ x < 2 ^ n ∧ r' = taken v r n x 1

/-- `RcSym()` gives the symbol `y` and the registers `r'` (R135). -/
def SymbolAt (p : Config) (v : View) (r : RangeState) (y : Nat) (r' : RangeState) : Prop :=
  Available v r ∧ ∃ lo hi, p.ovfCum[y]? = some lo ∧ p.ovfCum[y + 1]? = some hi ∧
    lo ≤ place v r p.ovfShift ∧ place v r p.ovfShift < hi ∧ r' = taken v r p.ovfShift lo (hi - lo)

/-- The overflow count: the sum of the symbols up to the first that is not the last of the table (R136). -/
inductive CountAt (p : Config) (v : View) : RangeState → Nat → RangeState → Prop where
  | stop {r r' : RangeState} {y : Nat} : SymbolAt p v r y r' → y ≠ p.ovfNsym - 1 → CountAt p v r y r'
  | go {r r₁ r' : RangeState} {n : Nat} :
      SymbolAt p v r (p.ovfNsym - 1) r₁ → CountAt p v r₁ n r' → CountAt p v r (p.ovfNsym - 1 + n) r'

/-- `n` is the overflow count after some continuation symbols from `r` to `r'` (R136): "the last symbol means add and
continue". -/
inductive PrefixAt (p : Config) (v : View) : RangeState → Nat → RangeState → Prop where
  | none {r : RangeState} : PrefixAt p v r 0 r
  | more {r r₁ r' : RangeState} {n : Nat} :
      SymbolAt p v r (p.ovfNsym - 1) r₁ → PrefixAt p v r₁ n r' → PrefixAt p v r (p.ovfNsym - 1 + n) r'

/-- `RcBits(n)` raises `CorruptBitstream(info)` (R131, R133, R134). -/
def BitsFail (v : View) (n : Nat) (r : RangeState) (info : Nat) : Prop :=
  (¬ Available v r ∧ info = 1) ∨ (Available v r ∧ 2 ^ n ≤ place v r n ∧ info = 2)

/-- `RcSym()` raises `CorruptBitstream(info)` (R131, R133, R135). -/
def SymbolFails (p : Config) (v : View) (r : RangeState) (info : Nat) : Prop :=
  (¬ Available v r ∧ info = 1) ∨ (Available v r ∧ 2 ^ p.ovfShift ≤ place v r p.ovfShift ∧ info = 2)

/-- The overflow count of `RcValue(k)` raises `CorruptBitstream(info)` (R136): a symbol fails, or the value leaves 32
bits. -/
def CountFails (p : Config) (v : View) (k : Nat) (r : RangeState) (info : Nat) : Prop :=
  ∃ n r₁, PrefixAt p v r n r₁ ∧
    ((n * 2 ^ k < 2 ^ 32 ∧ SymbolFails p v r₁ info) ∨
      (∃ y r', SymbolAt p v r₁ y r' ∧ 2 ^ 32 ≤ (n + y) * 2 ^ k ∧ info = 3))

/-- The refinement bits (R136). -/
def RefineAt (v : View) (k : Nat) (r : RangeState) (bits : Nat) (r' : RangeState) : Prop :=
  (k = 0 ∧ bits = 0 ∧ r' = r) ∨ (1 ≤ k ∧ k ≤ 16 ∧ BitsAt v k r bits r') ∨
    (17 ≤ k ∧ ∃ lo hi r₁, BitsAt v 16 r lo r₁ ∧ BitsAt v (k - 16) r₁ hi r' ∧ bits = hi * 2 ^ 16 + lo)

/-- The refinement bits of `RcValue(k)` raise `CorruptBitstream(info)` (R136). -/
def RefineFails (v : View) (k : Nat) (r : RangeState) (info : Nat) : Prop :=
  (1 ≤ k ∧ k ≤ 16 ∧ BitsFail v k r info) ∨
    (17 ≤ k ∧ (BitsFail v 16 r info ∨ ∃ lo r₁, BitsAt v 16 r lo r₁ ∧ BitsFail v (k - 16) r₁ info))

/-- `RcValue(k)` gives `x` and the registers `r'` (R136). -/
def ValueAt (p : Config) (v : View) (k : Nat) (r : RangeState) (x : Nat) (r' : RangeState) : Prop :=
  ∃ ovf bits r₁, CountAt p v r ovf r₁ ∧ ovf * 2 ^ k < 2 ^ 32 ∧ RefineAt v k r₁ bits r' ∧ x = ovf * 2 ^ k + bits

/-- `RcValue(k)` raises `CorruptBitstream(info)` (R136). -/
def ValueFails (p : Config) (v : View) (k : Nat) (r : RangeState) (info : Nat) : Prop :=
  CountFails p v k r info ∨ ∃ ovf r₁, CountAt p v r ovf r₁ ∧ ovf * 2 ^ k < 2 ^ 32 ∧ RefineFails v k r₁ info

/-- The fold of R138. -/
def residualOf (x : Nat) : Int := if x % 2 = 0 then ((x / 2 : Nat) : Int) else -(((x + 1) / 2 : Nat) : Int)

/-- The adaptation of R139. -/
def adapted (kMax k x : Nat) : Nat :=
  if 2 ^ (k + 1) ≤ x then min (k + 1) kMax else if 0 < k ∧ x < 2 ^ (k - 1) then k - 1 else k

/-! ## The filters entry by entry (42_nnfilter.md R161, 43_predictor.md R181) -/

/-- Entry `j` of a vector as an integer. -/
def entry {w : Nat} (l : List (BitVec w)) (j : Nat) : Int := (l.getD j 0).toInt

/-- `sum over j in 0..n-1 of a[j] * b[j]`. -/
def weighted {u w : Nat} (n : Nat) (a : List (BitVec u)) (b : List (BitVec w)) : Int :=
  ∑ j ∈ Finset.range n, entry a j * entry b j

/-- `v` is in `iN`. -/
abbrev Fits (bits : Nat) (v : Int) : Prop := -(2 : Int) ^ (bits - 1) ≤ v ∧ v ≤ (2 : Int) ^ (bits - 1) - 1

/-- `y <- x + floor(acc / 2^s)` of R161. -/
def stageOut (g : StageSpec) (q : Stage) (x : Word) : Int :=
  x.toInt + Int.fdiv (weighted g.order q.w q.h) ((2 : Int) ^ g.shift)

/-- `w'[j]` of R161. -/
def stageWeight (q : Stage) (x : Word) (j : Nat) : Int := entry q.w j + Int.sign (entry q.h j) * Int.sign x.toInt

/-- The stage after the sample (R161). -/
def stageAfter (g : StageSpec) (q : Stage) (x : Word) : Stage where
  h := (BitVec.ofInt 32 (stageOut g q x) :: q.h).take g.order
  w := (List.range g.order).map fun j => BitVec.ofInt 16 (stageWeight q x j)

/-- `acc` of R181. -/
def predAcc (p : Config) (q : Predictor) : Int := weighted p.predNZ q.a q.z + weighted p.predNY q.b q.y

/-- `z <- y + (acc >> PRED_SHIFT)` of R181. -/
def predOut (p : Config) (q : Predictor) (y : Word) : Int :=
  y.toInt + Int.fdiv (predAcc p q) ((2 : Int) ^ p.predShift)

/-- `A'[i]` of R181. -/
def predA (q : Predictor) (y : Word) (i : Nat) : Int := entry q.a i + Int.sign y.toInt * Int.sign (entry q.z i)

/-- `B'[j]` of R181. -/
def predB (q : Predictor) (y : Word) (j : Nat) : Int := entry q.b j + Int.sign y.toInt * Int.sign (entry q.y j)

/-- Every updated coefficient is an `i32` (R181). -/
abbrev PredFits (p : Config) (q : Predictor) (y : Word) : Prop :=
  (∀ i < p.predNZ, Fits 32 (predA q y i)) ∧ ∀ j < p.predNY, Fits 32 (predB q y j)

/-- The predictor after the sample (R181). -/
def predAfter (p : Config) (q : Predictor) (y : Word) : Predictor where
  a := (List.range p.predNZ).map fun i => BitVec.ofInt 32 (predA q y i)
  b := (List.range p.predNY).map fun j => BitVec.ofInt 32 (predB q y j)
  y := (y :: q.y).take p.predNY
  z := (BitVec.ofInt 32 (predOut p q y) :: q.z).take p.predNZ

/-- `right` of R200. -/
def stereoRight (x y : Word) : Int := x.toInt - Int.fdiv y.toInt 2

/-- `left` of R200. -/
def stereoLeft (x y : Word) : Int := stereoRight x y + y.toInt

/-! ## Legality and the start of a frame (30_encoding.md R87, 40_frame_control.md R112 to R116) -/

/-- Checks 2 to 4 of R87 for an operation outside `ERR`, in the rule's words. -/
def Legal (s : State) : Instr → Prop
  | .nop => True
  | .sreset => True
  | .frameStart => True
  | .frame => True
  | .rcInit => s.phase = .opened ∧ s.silent = false
  | .rcNorm => s.phase = .opened ∧ s.rcInit = true
  | .rcBits n => s.phase = .opened ∧ n ≤ 16 ∧ s.rcInit = true
  | .rcSym => s.phase = .opened ∧ s.rcInit = true
  | .rcValue k => s.phase = .opened ∧ k ≤ s.cfg.kMax ∧ s.rcInit = true
  | .entRes c => s.phase = .opened ∧ c < s.ncoded ∧ s.rcInit = true
  | .nnfStep st c => s.phase = .opened ∧ c < s.ncoded ∧ st < s.nstages
  | .predStep c => s.phase = .opened ∧ c < s.ncoded
  | .stereoStep => s.phase = .opened ∧ s.regs.channels = 2 ∧ s.fstereo = false
  | .emit => s.phase = .opened ∧ s.bidx.toNat < s.regs.nblocks.toNat

/-- The CRC word of the header at `START_BIT` (R91, R115). -/
def headerCrc (s : State) : Word := BitVec.ofNat 32 (streamBits s.view s.regs.startBit.toNat 32)

/-- The flags word of the header (R91, R115). -/
def headerFlags (s : State) : Word := BitVec.ofNat 32 (streamBits s.view (s.regs.startBit.toNat + 32) 32)

/-- `FALSE_STEREO`, bit 2 of the flags word (R93). -/
def headerFalseStereo (s : State) : Bool := (headerFlags s).getLsbD 2

/-- `f[1:0]` of the flags word (R93). -/
def headerSilence (s : State) : Nat := (headerFlags s).toNat % 4

/-- `nc` of R115. -/
def headerCoded (s : State) : Nat := if s.regs.channels = 1 ∨ headerFalseStereo s = true then 1 else 2

/-- The first error of `FRAME_START` in the order of R227 (2): R112, R113, R115, R132; none if it completes. -/
def startError (s : State) : Option Err :=
  let g := s.regs
  if g.formatVersion.toNat < 3990 then some ⟨.unsupportedVersion, g.formatVersion⟩
  else if g.channels ≠ 1 ∧ g.channels ≠ 2 then some ⟨.unsupportedConfiguration, 1⟩
  else if g.bitsPerSample ≠ 8 ∧ g.bitsPerSample ≠ 16 ∧ g.bitsPerSample ≠ 24 then some ⟨.unsupportedConfiguration, 2⟩
  else if g.compressionLevel ∉ ([1000, 2000, 3000, 4000, 5000] : List Word) then some ⟨.unsupportedConfiguration, 3⟩
  else if g.blocksPerFrame = 0 ∨ s.cfg.blocksMax < g.blocksPerFrame.toNat then some ⟨.invalidHeader, 1⟩
  else if g.finalFrameBlocks = 0 ∨ g.blocksPerFrame < g.finalFrameBlocks then some ⟨.invalidHeader, 2⟩
  else if g.totalFrames = 0 then some ⟨.invalidHeader, 3⟩
  else if 31 < g.startBit.toNat then some ⟨.invalidHeader, 4⟩
  else if g.totalFrames ≤ g.frameIndex then some ⟨.corruptFrame, 1⟩
  else if g.nblocks ≠ (if g.frameIndex.toNat + 1 < g.totalFrames.toNat then g.blocksPerFrame else g.finalFrameBlocks)
  then some ⟨.corruptFrame, 2⟩
  else if s.cfg.winCap < g.winLen.toNat then some ⟨.unsupportedConfiguration, 4⟩
  else if s.cfg.outCap < g.nblocks.toNat * g.channels.toNat then some ⟨.unsupportedConfiguration, 5⟩
  else if g.winLen < g.winExpect then some ⟨.truncatedFrame, 1⟩
  else if ¬ streamDefined s.view g.startBit.toNat 64 then some ⟨.truncatedFrame, 2⟩
  else if 8 ≤ (headerFlags s).toNat then some ⟨.corruptFrame, 3⟩
  else if headerFalseStereo s = true ∧ g.channels = 1 then some ⟨.corruptFrame, 4⟩
  else if headerSilence s ≠ 0 ∧ headerSilence s ≠ 2 ^ headerCoded s - 1 then some ⟨.corruptFrame, 4⟩
  else if headerSilence s = 0 ∧ ¬ streamDefined s.view (g.startBit.toNat + 64) 8 then some ⟨.corruptBitstream, 1⟩
  else none

/-- Every entry of a channel 0 but `K[c] = K_INIT` (R114, R40). -/
def clearedChan (s : State) : Chan where
  sample := 0
  k := s.cfg.kInit
  nnf := s.row.map fun g => ⟨List.replicate g.order 0, List.replicate g.order 0⟩
  pred :=
    ⟨List.replicate s.cfg.predNZ 0, List.replicate s.cfg.predNY 0, List.replicate s.cfg.predNY 0,
      List.replicate s.cfg.predNZ 0⟩

/-- The state after a `FRAME_START` that completes (R114, R115, R116). -/
def started (s : State) : State :=
  let p := s.regs.startBit.toNat
  let silent := decide (headerSilence s ≠ 0)
  { s with
    phase := .opened
    silent := silent
    fstereo := headerFalseStereo s
    rcInit := !silent
    frameCrc := headerCrc s
    frameFlags := headerFlags s
    res := 0
    bidx := 0
    rc :=
      if silent then ⟨0, 0, BitVec.ofNat 32 (p + 64)⟩
      else ⟨BitVec.ofNat 32 (streamBits s.view (p + 64) 8 % 2 ^ 7), 2 ^ 7, BitVec.ofNat 32 (p + 72)⟩
    ch0 := clearedChan s
    ch1 := clearedChan s }

/-- `t` has entered `ERR` from `s` by `raise <Kind>(info)` (R224, R225): what the rule fixes, nothing of what it leaves
unspecified. -/
def Raised (s t : State) (kind : ErrKind) (info : Word) : Prop :=
  t.phase = .err ∧ t.errCode = kind ∧ t.errInfo = info ∧ t.regs = s.regs ∧ t.win = s.win

/-- Everything the host can see of a memory cell is unchanged. -/
def SameMemory (s t : State) : Prop :=
  (∀ a, winByte t.win a = winByte s.win a) ∧ ∀ i, outWord t.out i = outWord s.out i

/-- The next step serves the bus request `q`. -/
def Pending (s : State) (q : BusReq) (rest : List BusReq) : Prop := s.cfg.Legal ∧ s.bus = q :: rest

end Sys2Proof.Spec

open Sys2Proof Sys2Proof.Machine Sys2Proof.Spec

/-! ## Reset and the invariant -/

/-- 70_reset_and_hazards.md R260: every register, flag and stage entry after hardware reset; the engine does nothing
until the host asks; a `FRAME` straight after reset faults with `UnsupportedVersion(0)`. (`WIN` and `OUT` are
unspecified: nothing is stated of them.) -/
def Obligations.ResetHoldsTheSpecsValues : Prop :=
  let s := State.reset
  s.phase = .idle ∧ s.errCode = .none ∧ s.errInfo = 0 ∧ s.silent = false ∧ s.fstereo = false ∧ s.rcInit = false ∧
  s.regs = ⟨0, 0, 0, 0, 0, 0, 0, 0, 0, 0, 0, 0⟩ ∧ s.frameCrc = 0 ∧ s.frameFlags = 0 ∧ s.res = 0 ∧ s.bidx = 0 ∧
  s.rc = ⟨0, 0, 0⟩ ∧ step s = .next s ∧ (∃ t, exec .frame s = .next t ∧ Raised s t .unsupportedVersion 0) ∧
  ∀ c < 2, (s.chan c).sample = 0 ∧ (s.chan c).k = 0 ∧
    (∀ g ∈ (s.chan c).nnf, (∀ x ∈ g.h, x = 0) ∧ ∀ x ∈ g.w, x = 0) ∧
    (∀ x ∈ (s.chan c).pred.a, x = 0) ∧ (∀ x ∈ (s.chan c).pred.b, x = 0) ∧ (∀ x ∈ (s.chan c).pred.y, x = 0) ∧
    ∀ x ∈ (s.chan c).pred.z, x = 0

/-- The invariant holds at reset. The model's own choices it includes: the parameters (notes/assumptions/2.md) and the
free-value counter (notes/assumptions/3.md). -/
def Obligations.ResetMeetsTheInvariant : Prop := State.reset.Inv

/-- Every step keeps the invariant: canonical memories inside their capacities, `K` in `0..K_MAX`, vector lengths, a
sticky error record, and while a frame is open the validated configuration, the flags, the bank's shape, the cursor and
the range decoder's invariant R140. -/
def Obligations.StepKeepsTheInvariant : Prop :=
  ∀ s t : State, s.Inv → step s = .next t → t.Inv

/-- 70_reset_and_hazards.md R260: the engine does nothing until the host asks. -/
def Obligations.NothingPendingNothingHappens : Prop :=
  ∀ s : State, s.cfg.Legal → s.bus = [] → step s = .next s

/-- 70_reset_and_hazards.md R260, R261: the reset input clears everything but the two memories and the parameters, from
every state. -/
def Obligations.HardwareResetFromEveryState : Prop :=
  ∀ (s : State) (rest : List BusReq), Pending s .hardReset rest → ∃ t, step s = .next t ∧
    t.phase = .idle ∧ t.errCode = .none ∧ t.errInfo = 0 ∧ t.silent = false ∧ t.fstereo = false ∧ t.rcInit = false ∧
    t.regs = ⟨0, 0, 0, 0, 0, 0, 0, 0, 0, 0, 0, 0⟩ ∧ t.frameCrc = 0 ∧ t.frameFlags = 0 ∧ t.res = 0 ∧ t.bidx = 0 ∧
    t.rc = ⟨0, 0, 0⟩ ∧
    (∀ c < 2, (t.chan c).sample = 0 ∧ (t.chan c).k = 0 ∧
      (∀ g ∈ (t.chan c).nnf, (∀ x ∈ g.h, x = 0) ∧ ∀ x ∈ g.w, x = 0) ∧
      (∀ x ∈ (t.chan c).pred.a, x = 0) ∧ (∀ x ∈ (t.chan c).pred.b, x = 0) ∧ (∀ x ∈ (t.chan c).pred.y, x = 0) ∧
      ∀ x ∈ (t.chan c).pred.z, x = 0) ∧
    t.cfg = s.cfg ∧ t.bus = rest

/-! ## Encoding and the issue of a command -/

/-- 30_encoding.md R89: the examples of the rule, and one word of every format and family, written out from R82 to
R86. -/
def Obligations.WrittenWordsDecode : Prop :=
  decode 0x12000005#32 = .ok (.rcBits 5) ∧ decode 0x1400000A#32 = .ok (.rcValue 10) ∧
  decode 0x15000001#32 = .ok (.entRes 1) ∧ decode 0x20000100#32 = .ok (.nnfStep 1 0) ∧
  decode 0x20000001#32 = .ok (.nnfStep 0 1) ∧ decode 0x30000001#32 = .ok (.predStep 1) ∧
  decode 0x03000000#32 = .ok .frame ∧ decode 0x01000000#32 = .ok .sreset ∧ decode 0x41000000#32 = .ok .emit

/-- Decoding an encoded well-formed operation gives it back, at every value of every operand (30_encoding.md R82 to
R86). -/
def Obligations.DecodeOfEncode : Prop := ∀ i : Instr, i.WellFormed → decode (encode i) = .ok i

/-- 30_encoding.md R88: "The one 32-bit value per operation-and-operand that is legal": a word that decodes is the
encoding of what it decodes to, which is well formed. -/
def Obligations.EncodeOfDecode : Prop :=
  ∀ (w : Word) (i : Instr), decode w = .ok i → i.WellFormed ∧ encode i = w

/-- 30_encoding.md R81: a write to `CMD` of a word that decodes runs exactly that operation, on the state with the
request taken off the queue. `withFetchWord` makes such a write the next request. -/
def Obligations.StepRunsTheDecodedOperation : Prop :=
  ∀ (s : State) (w : Word) (i : Instr) (rest : List BusReq), Pending s (.write s.cfg.regBase 4 w) rest →
    decode w = .ok i → step s = exec i { s with bus := rest }

/-- 30_encoding.md R87, R88, 60_exceptions.md R223: a word written to `CMD` outside `ERR` that fails any of the four
checks raises `IllegalCommand` with the word: it is no operation, or the operation it is fails check 2, 3 or 4. -/
def Obligations.IllegalWordsRaiseIllegalCommand : Prop :=
  ∀ (s : State) (w : Word) (rest : List BusReq), Pending s (.write s.cfg.regBase 4 w) rest → s.phase ≠ .err →
    (∀ i, decode w = .ok i → ¬ Spec.Legal s i) → ∃ t, step s = .next t ∧ Raised s t .illegalCommand w

/-- 30_encoding.md R87, 60_exceptions.md R223: outside `ERR` an operation that fails check 2, 3 or 4 raises
`IllegalCommand` with its word, before it has read or written anything else. -/
def Obligations.IllegalOperationsRaiseIllegalCommand : Prop :=
  ∀ (i : Instr) (s : State), s.phase ≠ .err → ¬ Spec.Legal s i →
    ∃ t, exec i s = .next t ∧ Raised s t .illegalCommand (encode i)

/-! ## Errors, their return, and the whole machine -/

/-- 60_exceptions.md R220, column "raised by": which operations can enter `ERR` with which kind. `Io` and the empty kind
are never recorded, and an operation that passes the checks of R87 never raises `IllegalCommand`. -/
def Obligations.ErrorKindsComeFromTheListedOperations : Prop :=
  ∀ (i : Instr) (s t : State), s.phase ≠ .err → exec i s = .next t → t.phase = .err →
    match t.errCode with
    | .none => False
    | .io => False
    | .unsupportedVersion => i = .frameStart ∨ i = .frame
    | .invalidHeader => i = .frameStart ∨ i = .frame
    | .truncatedFrame => i = .frameStart ∨ i = .frame
    | .corruptBitstream => i = .frameStart ∨ i = .frame ∨ i = .rcInit ∨ i = .rcNorm ∨ (∃ n, i = .rcBits n) ∨
        i = .rcSym ∨ (∃ k, i = .rcValue k) ∨ ∃ c, i = .entRes c
    | .corruptFrame => i = .frameStart ∨ i = .frame
    | .unsupportedConfiguration => i = .frameStart ∨ i = .frame
    | .arithmeticOverflow => i = .frame ∨ (∃ st c, i = .nnfStep st c) ∨ (∃ c, i = .predStep c) ∨ i = .stereoStep
    | .illegalCommand => ¬ Spec.Legal s i ∧ t.errInfo = encode i

/-- 40_frame_control.md R119, 60_exceptions.md R226: in `ERR` the word 0x01000000 written to `CMD` runs `SRESET`, every
other word is ignored. -/
def Obligations.ErrIgnoresEveryWordButSreset : Prop :=
  ∀ (s : State) (w : Word) (rest : List BusReq), Pending s (.write s.cfg.regBase 4 w) rest → s.phase = .err →
    (w = 0x01000000#32 → step s = exec .sreset { s with bus := rest }) ∧
    (w ≠ 0x01000000#32 → step s = .next { s with bus := rest })

/-- 40_frame_control.md R111, 60_exceptions.md R228: `SRESET` from every state. -/
def Obligations.SresetReturnsFromEveryState : Prop :=
  encode .sreset = 0x01000000#32 ∧ ∀ s : State, ∃ t, exec .sreset s = .next t ∧
    t.phase = .idle ∧ t.errCode = .none ∧ t.errInfo = 0 ∧ t.silent = false ∧ t.fstereo = false ∧ t.rcInit = false ∧
    t.frameCrc = 0 ∧ t.frameFlags = 0 ∧ t.res = 0 ∧ t.bidx = 0 ∧ t.rc = ⟨0, 0, 0⟩ ∧
    (∀ c < 2, (t.chan c).sample = 0 ∧ (t.chan c).k = 0 ∧
      (∀ g ∈ (t.chan c).nnf, (∀ x ∈ g.h, x = 0) ∧ ∀ x ∈ g.w, x = 0) ∧
      (∀ x ∈ (t.chan c).pred.a, x = 0) ∧ (∀ x ∈ (t.chan c).pred.b, x = 0) ∧ (∀ x ∈ (t.chan c).pred.y, x = 0) ∧
      ∀ x ∈ (t.chan c).pred.z, x = 0) ∧
    t.regs = s.regs ∧ SameMemory s t ∧ t.cfg = s.cfg ∧ t.bus = s.bus

/-- 40_frame_control.md R110: `NOP` writes no state in any state, `ERR` included. -/
def Obligations.NopChangesNothing : Prop := encode .nop = 0#32 ∧ ∀ s : State, exec .nop s = .next s

/-- 00_scope.md R12, 70_reset_and_hazards.md R267: every operation with every operand, in every state, reaches an
outcome; none stops the machine. -/
def Obligations.EveryOperationReachesAnOutcome : Prop := ∀ (i : Instr) (s : State), ∃ t, exec i s = .next t

/-- 10_state.md R25: the `STATE` transitions, over all operations. -/
def Obligations.StateTransitions : Prop :=
  ∀ (i : Instr) (s t : State), exec i s = .next t →
    (i = .sreset → t.phase = .idle) ∧
    (s.phase = .err → i ≠ .sreset → t.phase = .err) ∧
    (s.phase ≠ .err → i ≠ .sreset → t.phase ≠ .err →
      (i = .frameStart → t.phase = .opened) ∧ (i = .frame → t.phase = .done) ∧
      (i ≠ .frameStart → i ≠ .frame → t.phase = s.phase) ∧
      (i ≠ .nop → i ≠ .frameStart → i ≠ .frame → s.phase = .opened))

/-- 60_exceptions.md R225: no operation changes a configuration register or `WIN`, whatever its outcome; nor a
parameter (00_scope.md R6). -/
def Obligations.NoOperationChangesConfigurationOrWindow : Prop :=
  ∀ (i : Instr) (s t : State), exec i s = .next t →
    t.regs = s.regs ∧ (∀ a, winByte t.win a = winByte s.win a) ∧ t.cfg = s.cfg

/-! ## The range decoder -/

/-- 41_range_decoder.md R132: `RC_INIT`: the registers it writes, and `CorruptBitstream(1)` when the byte is outside the
window (R131). -/
def Obligations.RcInitStartsTheDecoder : Prop :=
  encode .rcInit = 0x10000000#32 ∧ ∀ s : State, s.phase = .opened → s.silent = false →
    (streamDefined s.view s.rc.pos.toNat 8 = true →
      exec .rcInit s = .next { s with
        rc := ⟨BitVec.ofNat 32 (streamBits s.view s.rc.pos.toNat 8 % 2 ^ 7), 2 ^ 7, s.rc.pos + 8⟩
        rcInit := true }) ∧
    (streamDefined s.view s.rc.pos.toNat 8 = false → ∃ t, exec .rcInit s = .next t ∧ Raised s t .corruptBitstream 1)

/-- 41_range_decoder.md R133: `RC_NORM` in closed form; `CorruptBitstream(1)` when a byte it needs is outside the window
(R131). That it takes 0 to 3 bytes (R141), and the bounds of the range and of `RC_LOW` after it (R140), are the spec's own
inferences. -/
def Obligations.RcNormNormalises : Prop :=
  encode .rcNorm = 0x11000000#32 ∧ ∀ s : State, s.Inv → s.phase = .opened → s.rcInit = true →
    (Available s.view s.rc →
      exec .rcNorm s = .next { s with rc := normalised s.view s.rc } ∧
      2 ^ 24 ≤ normRange s.rc ∧ normRange s.rc < 2 ^ 32 ∧ normLow s.view s.rc < normRange s.rc) ∧
    (¬ Available s.view s.rc → ∃ t, exec .rcNorm s = .next t ∧ Raised s t .corruptBitstream 1)

/-- 41_range_decoder.md R134: `RC_BITS n`, for every `n` in 0..16: the value, or `CorruptBitstream(1)`, or
`CorruptBitstream(2)` for a code that no `n`-bit value owns. -/
def Obligations.RcBitsDecodesRawBits : Prop :=
  ∀ n ≤ 16, encode (.rcBits n) = BitVec.ofNat 32 (0x12000000 + n) ∧
    ∀ s : State, s.Inv → s.phase = .opened → s.rcInit = true →
      (∀ x r, BitsAt s.view n s.rc x r →
        exec (.rcBits n) s = .next { s with rc := r, res := BitVec.ofNat 32 x }) ∧
      ∀ info, BitsFail s.view n s.rc info →
        ∃ t, exec (.rcBits n) s = .next t ∧ Raised s t .corruptBitstream (BitVec.ofNat 32 info)

/-- 41_range_decoder.md R135: `RC_SYM`: the unique symbol of the code, or `CorruptBitstream(1)`, or
`CorruptBitstream(2)` for a code beyond every symbol. -/
def Obligations.RcSymDecodesAnOverflowSymbol : Prop :=
  encode .rcSym = 0x13000000#32 ∧ ∀ s : State, s.Inv → s.phase = .opened → s.rcInit = true →
    (∀ y r, SymbolAt s.cfg s.view s.rc y r →
      exec .rcSym s = .next { s with rc := r, res := BitVec.ofNat 32 y }) ∧
    ∀ info, SymbolFails s.cfg s.view s.rc info →
      ∃ t, exec .rcSym s = .next t ∧ Raised s t .corruptBitstream (BitVec.ofNat 32 info)

/-- 41_range_decoder.md R136: `RC_VALUE k`, for every `k` in `0..K_MAX`: the overflow count as a sum of symbols, then
the refinement bits, the low 16 first when `k > 16`; the errors of its symbols and bits, and `CorruptBitstream(3)` as
soon as the count makes the value leave 32 bits. -/
def Obligations.RcValueDecodesCountThenBits : Prop :=
  ∀ (s : State) (k : Nat), s.Inv → s.phase = .opened → s.rcInit = true → k ≤ s.cfg.kMax →
    encode (.rcValue k) = BitVec.ofNat 32 (0x14000000 + k) ∧
    (∀ x r, ValueAt s.cfg s.view k s.rc x r →
      exec (.rcValue k) s = .next { s with rc := r, res := BitVec.ofNat 32 x }) ∧
    ∀ info, ValueFails s.cfg s.view k s.rc info →
      ∃ t, exec (.rcValue k) s = .next t ∧ Raised s t .corruptBitstream (BitVec.ofNat 32 info)

/-- 41_range_decoder.md R141, the spec's own inference: the loop of `RC_VALUE k` ends, whatever the window holds: with a
value below `2^32` that the relation gives, or in `ERR` with one of its errors 1, 2, 3. -/
def Obligations.RcValueAlwaysEnds : Prop :=
  ∀ (s : State) (k : Nat), s.Inv → s.phase = .opened → s.rcInit = true → k ≤ s.cfg.kMax →
    (∃ x r, ValueAt s.cfg s.view k s.rc x r ∧ x < 2 ^ 32 ∧
      exec (.rcValue k) s = .next { s with rc := r, res := BitVec.ofNat 32 x }) ∨
    ∃ info t, ValueFails s.cfg s.view k s.rc info ∧ 1 ≤ info ∧ info ≤ 3 ∧ exec (.rcValue k) s = .next t ∧
      Raised s t .corruptBitstream (BitVec.ofNat 32 info)

/-- 41_range_decoder.md R137, R138, R139: `ENT_RES c`: the value with the channel's `K[e]`, its fold in `S[c]`, and
`K[e]` adapted; or the error of `RcValue`. -/
def Obligations.EntResDecodesAResidual : Prop :=
  ∀ (s : State) (c : Nat), s.Inv → s.phase = .opened → s.rcInit = true → c < s.ncoded →
    let e := if s.cfg.entShared = true then 0 else c
    encode (.entRes c) = BitVec.ofNat 32 (0x15000000 + c) ∧
    (∀ x r, ValueAt s.cfg s.view (s.chan e).k s.rc x r →
      exec (.entRes c) s = .next
        (({ s with rc := r, res := BitVec.ofNat 32 x }.setK e (adapted s.cfg.kMax (s.chan e).k x)).setSample c
          (BitVec.ofInt 32 (residualOf x)))) ∧
    ∀ info, ValueFails s.cfg s.view (s.chan e).k s.rc info →
      ∃ t, exec (.entRes c) s = .next t ∧ Raised s t .corruptBitstream (BitVec.ofNat 32 info)

/-- 41_range_decoder.md R138: the fold of a `u32` by the rule's formula is always an `i32`; and, which follows from the
formula and is no sentence of the rule, no two values share a residual. -/
def Obligations.FoldIsAnInjectionIntoI32 : Prop :=
  (∀ x < 2 ^ 32, fold x = residualOf x ∧ Fits 32 (fold x)) ∧
  ∀ x < 2 ^ 32, ∀ y < 2 ^ 32, BitVec.ofInt 32 (fold x) = BitVec.ofInt 32 (fold y) → x = y

/-- 41_range_decoder.md R142, the spec's own inference that no byte beyond is touched: no lookahead. An operation that
completes at `RC_POS = q` gives the same result from any window that has the same view bytes up to the byte of bit `q
- 1`. -/
def Obligations.DecoderReadsNoByteBeyondItsPosition : Prop :=
  ∀ (i : Instr) (s t : State) (w : Memory 8) (len : Word),
    (i = .rcNorm ∨ (∃ n, i = .rcBits n) ∨ i = .rcSym ∨ (∃ k, i = .rcValue k) ∨ ∃ c, i = .entRes c) →
    s.Inv → s.phase = .opened → exec i s = .next t → t.phase ≠ .err →
    (∀ j, 8 * j < t.rc.pos.toNat → insideWindow s.view j = true →
      insideWindow ⟨w, len.toNat⟩ j = true ∧ viewByte ⟨w, len.toNat⟩ j = viewByte s.view j) →
    exec i { s with win := w, regs := { s.regs with winLen := len } } =
      .next { t with win := w, regs := { t.regs with winLen := len } }

/-- 41_range_decoder.md R140, the spec's own inference: the invariant of the range decoder is kept by every operation
that leaves the frame open, and after `RC_NORM` the range is at least `2^24`. -/
def Obligations.RangeDecoderInvariantIsKept : Prop :=
  ∀ (i : Instr) (s t : State), s.Inv → exec i s = .next t → t.phase = .opened → t.rcInit = true →
    t.rc.low.toNat < t.rc.range.toNat ∧ 2 ^ 7 ≤ t.rc.range.toNat ∧ t.rc.range.toNat < 2 ^ 32 ∧
    (i = .rcNorm → 2 ^ 24 ≤ t.rc.range.toNat)

/-- Frame of the range decoder operations (41_range_decoder.md, "State written" of R132 to R137). -/
def Obligations.RangeDecoderOperationsFrame : Prop :=
  ∀ (s t : State), s.phase = .opened → t.phase ≠ .err →
    (exec .rcInit s = .next t → t = { s with rc := t.rc, rcInit := true } ∧ SameMemory s t) ∧
    (exec .rcNorm s = .next t → t = { s with rc := t.rc } ∧ SameMemory s t) ∧
    (∀ n, exec (.rcBits n) s = .next t → t = { s with rc := t.rc, res := t.res } ∧ SameMemory s t) ∧
    (exec .rcSym s = .next t → t = { s with rc := t.rc, res := t.res } ∧ SameMemory s t) ∧
    (∀ k, exec (.rcValue k) s = .next t → t = { s with rc := t.rc, res := t.res } ∧ SameMemory s t) ∧
    (∀ c, exec (.entRes c) s = .next t →
      t = { s with rc := t.rc, res := t.res, ch0 := t.ch0, ch1 := t.ch1 } ∧ SameMemory s t ∧
      (∀ d < 2, (t.chan d).nnf = (s.chan d).nnf ∧ (t.chan d).pred = (s.chan d).pred ∧
        (d ≠ c → (t.chan d).sample = (s.chan d).sample) ∧
        (d ≠ (if s.cfg.entShared = true then 0 else c) → (t.chan d).k = (s.chan d).k)))

/-! ## NNFilter, predictor, stereo, output -/

/-- 42_nnfilter.md R161, 60_exceptions.md R222: `NNF_STEP st, c`, entry by entry, and its two overflow sites, the output
before the weights. -/
def Obligations.NnfStepFiltersOneSample : Prop :=
  ∀ (s : State) (st c : Nat) (g : StageSpec) (q : Stage), s.Inv → s.phase = .opened → c < s.ncoded →
    s.row[st]? = some g → (s.chan c).nnf[st]? = some q →
    let x := (s.chan c).sample
    encode (.nnfStep st c) = BitVec.ofNat 32 (0x20000000 + 2 ^ 8 * st + c) ∧
    (Fits 32 (stageOut g q x) → (∀ j < g.order, Fits 16 (stageWeight q x j)) →
      exec (.nnfStep st c) s = .next (s.setChan c { s.chan c with
        sample := BitVec.ofInt 32 (stageOut g q x)
        nnf := (s.chan c).nnf.set st (stageAfter g q x) })) ∧
    (¬ Fits 32 (stageOut g q x) →
      ∃ t, exec (.nnfStep st c) s = .next t ∧
        Raised s t .arithmeticOverflow (BitVec.ofNat 32 (1 + 2 ^ 8 * c + 2 ^ 16 * st))) ∧
    (Fits 32 (stageOut g q x) → (¬ ∀ j < g.order, Fits 16 (stageWeight q x j)) →
      ∃ t, exec (.nnfStep st c) s = .next t ∧
        Raised s t .arithmeticOverflow (BitVec.ofNat 32 (2 + 2 ^ 8 * c + 2 ^ 16 * st)))

/-- 42_nnfilter.md R162, the spec's own inference: the accumulator `nnfAcc` that `nnfStage` shifts never leaves
`-2^56 .. 2^56`, for weights and histories of at most 1024 entries; so in an open frame it never does, for any stage of
either channel. -/
def Obligations.NnfAccumulatorStaysInRange : Prop :=
  (∀ q : Stage, q.w.length ≤ 1024 → q.h.length ≤ 1024 →
    -(2 : Int) ^ 56 ≤ nnfAcc q ∧ nnfAcc q ≤ (2 : Int) ^ 56) ∧
  ∀ s : State, s.Inv → s.phase = .opened → ∀ c < 2, ∀ q ∈ (s.chan c).nnf,
    -(2 : Int) ^ 56 ≤ nnfAcc q ∧ nnfAcc q ≤ (2 : Int) ^ 56

/-- 42_nnfilter.md R164, the spec's own inference: fed the residual of the forward stage on `y`, the inverse stage
gives `y` back and takes `y` into its history, whatever the order and the shift. -/
def Obligations.NnfStageInvertsTheForwardStage : Prop :=
  ∀ (g : StageSpec) (q : Stage) (st c : Nat) (x y : Word), q.h.length = g.order → q.w.length = g.order →
    x.toInt = y.toInt - Int.fdiv (weighted g.order q.w q.h) ((2 : Int) ^ g.shift) →
    (∀ j < g.order, Fits 16 (stageWeight q x j)) →
    ∃ q', nnfStage g st c x q = .ok (y, q') ∧ q'.h = (y :: q.h).take g.order ∧
      ∀ j < g.order, entry q'.w j = stageWeight q x j

/-- 43_predictor.md R181, 60_exceptions.md R222, R227 (4): `PRED_STEP c`, entry by entry, and its three overflow
sites, 5 before 3 before 4. -/
def Obligations.PredStepPredictsOneSample : Prop :=
  ∀ (s : State) (c : Nat), s.Inv → s.phase = .opened → c < s.ncoded →
    let q := (s.chan c).pred
    let y := (s.chan c).sample
    encode (.predStep c) = BitVec.ofNat 32 (0x30000000 + c) ∧
    (Fits 64 (predAcc s.cfg q) → Fits 32 (predOut s.cfg q y) → PredFits s.cfg q y →
      exec (.predStep c) s = .next (s.setChan c { s.chan c with
        sample := BitVec.ofInt 32 (predOut s.cfg q y)
        pred := predAfter s.cfg q y })) ∧
    (¬ Fits 64 (predAcc s.cfg q) →
      ∃ t, exec (.predStep c) s = .next t ∧ Raised s t .arithmeticOverflow (BitVec.ofNat 32 (5 + 2 ^ 8 * c))) ∧
    (Fits 64 (predAcc s.cfg q) → ¬ Fits 32 (predOut s.cfg q y) →
      ∃ t, exec (.predStep c) s = .next t ∧ Raised s t .arithmeticOverflow (BitVec.ofNat 32 (3 + 2 ^ 8 * c))) ∧
    (Fits 64 (predAcc s.cfg q) → Fits 32 (predOut s.cfg q y) → ¬ PredFits s.cfg q y →
      ∃ t, exec (.predStep c) s = .next t ∧ Raised s t .arithmeticOverflow (BitVec.ofNat 32 (4 + 2 ^ 8 * c)))

/-- 43_predictor.md R184, the spec's own inference: fed the output of the forward predictor on `z`, the inverse
predictor gives `z` back and takes `y` and `z` into its histories, whatever the parameters. -/
def Obligations.PredictorInvertsTheForwardPredictor : Prop :=
  ∀ (p : Config) (q : Predictor) (c : Nat) (y z : Word),
    q.a.length = p.predNZ → q.z.length = p.predNZ → q.b.length = p.predNY → q.y.length = p.predNY →
    Fits 64 (predAcc p q) → y.toInt = z.toInt - Int.fdiv (predAcc p q) ((2 : Int) ^ p.predShift) → PredFits p q y →
    ∃ q', predStage p c y q = .ok (z, q') ∧ q'.y = (y :: q.y).take p.predNY ∧ q'.z = (z :: q.z).take p.predNZ ∧
      (∀ i < p.predNZ, entry q'.a i = predA q y i) ∧ ∀ j < p.predNY, entry q'.b j = predB q y j

/-- 44_stereo_output.md R200, R201: `STEREO_STEP`; in a mono or a false-stereo frame it raises `IllegalCommand`. -/
def Obligations.StereoStepDecorrelates : Prop :=
  encode .stereoStep = 0x40000000#32 ∧ ∀ s : State, s.phase = .opened →
    let x := s.ch0.sample
    let y := s.ch1.sample
    (s.regs.channels = 2 → s.fstereo = false →
      (Fits 32 (stereoRight x y) → Fits 32 (stereoLeft x y) →
        exec .stereoStep s = .next { s with
          ch0 := { s.ch0 with sample := BitVec.ofInt 32 (stereoLeft x y) }
          ch1 := { s.ch1 with sample := BitVec.ofInt 32 (stereoRight x y) } }) ∧
      (¬ (Fits 32 (stereoRight x y) ∧ Fits 32 (stereoLeft x y)) →
        ∃ t, exec .stereoStep s = .next t ∧ Raised s t .arithmeticOverflow 6)) ∧
    ((s.regs.channels ≠ 2 ∨ s.fstereo = true) →
      ∃ t, exec .stereoStep s = .next t ∧ Raised s t .illegalCommand 0x40000000)

/-- 44_stereo_output.md R200, "Inverse", the spec's own inference: the pair `Y = left - right`, `X = right + (Y >> 1)`
is mapped back, wherever `X` and `Y` are `i32` values. -/
def Obligations.StereoInvertsMidSide : Prop :=
  ∀ left right x y : Word, y.toInt = left.toInt - right.toInt → x.toInt = right.toInt + Int.fdiv y.toInt 2 →
    stereo x y = .ok (left, right)

/-- Frame of `NNF_STEP`, `PRED_STEP`, `STEREO_STEP` ("State written" of R161, R181, R201). -/
def Obligations.FilterOperationsFrame : Prop :=
  ∀ (s t : State), s.phase = .opened → t.phase ≠ .err →
    (∀ st c, exec (.nnfStep st c) s = .next t →
      t = s.setChan c { s.chan c with sample := (t.chan c).sample, nnf := (t.chan c).nnf } ∧
      (∀ j, j ≠ st → (t.chan c).nnf[j]? = (s.chan c).nnf[j]?) ∧ SameMemory s t) ∧
    (∀ c, exec (.predStep c) s = .next t →
      t = s.setChan c { s.chan c with sample := (t.chan c).sample, pred := (t.chan c).pred } ∧ SameMemory s t) ∧
    (exec .stereoStep s = .next t →
      t = { s with ch0 := { s.ch0 with sample := t.ch0.sample }, ch1 := { s.ch1 with sample := t.ch1.sample } } ∧
      SameMemory s t)

/-- 44_stereo_output.md R203: `EMIT`: which words of `OUT` hold what after it, and nothing else changes but `BIDX`;
after `NBLOCKS` blocks it raises `IllegalCommand`. -/
def Obligations.EmitWritesTheBlock : Prop :=
  encode .emit = 0x41000000#32 ∧ ∀ s : State, s.Inv → s.phase = .opened →
    (s.bidx.toNat < s.regs.nblocks.toNat →
      ∃ t, exec .emit s = .next t ∧ t = { s with out := t.out, bidx := s.bidx + 1 } ∧
        t.bidx.toNat = s.bidx.toNat + 1 ∧
        (s.regs.channels = 1 → ∀ i, outWord t.out i = if i = s.bidx.toNat then s.ch0.sample else outWord s.out i) ∧
        (s.regs.channels = 2 → ∀ i, outWord t.out i =
          if i = 2 * s.bidx.toNat then s.ch0.sample
          else if i = 2 * s.bidx.toNat + 1 then (if s.fstereo = true then s.ch0.sample else s.ch1.sample)
          else outWord s.out i)) ∧
    (s.regs.nblocks.toNat ≤ s.bidx.toNat → ∃ t, exec .emit s = .next t ∧ Raised s t .illegalCommand 0x41000000)

/-! ## Frames -/

/-- 40_frame_control.md R112, R113, R114, R115, R116: `FRAME_START` outside `ERR` raises the first error of the fixed
order, or completes with exactly the started state; `OUT` is not written. `FRAME` reports the same errors in the same
order: that clause rests on R117, its first six lines. -/
def Obligations.FrameStartValidatesAndStarts : Prop :=
  encode .frameStart = 0x02000000#32 ∧ encode .frame = 0x03000000#32 ∧ ∀ s : State, s.phase ≠ .err →
    (startError s = none → exec .frameStart s = .next (started s)) ∧
    ∀ e, startError s = some e →
      (∃ t, exec .frameStart s = .next t ∧ Raised s t e.kind e.info) ∧
      ∃ t, exec .frame s = .next t ∧ Raised s t e.kind e.info

/-- 44_stereo_output.md R204: a silent frame completes, writes `NBLOCKS * CHANNELS` zeros, and reads nothing after the
header. -/
def Obligations.SilentFrameDecodesToZeros : Prop :=
  ∀ s : State, s.phase ≠ .err → startError s = none → headerSilence s ≠ 0 →
    ∃ t, exec .frame s = .next t ∧
      t = { started s with phase := .done, bidx := s.regs.nblocks, out := t.out } ∧
      ∀ i, outWord t.out i = if i < s.regs.nblocks.toNat * s.regs.channels.toNat then 0 else outWord s.out i

/-- 40_frame_control.md R117, R118, 60_exceptions.md R227 (3): the entropy layer of `FRAME` runs first and in stream
order. If decoding the residuals of all blocks with `ENT_RES`, channel 0 before channel 1 within each block, ends in
an error, `FRAME` reports that error, whatever the filters would have done. -/
def Obligations.FrameReportsTheFirstEntropyError : Prop :=
  ∀ s t : State, s.phase ≠ .err → startError s = none → headerSilence s = 0 →
    runOps (List.replicate s.regs.nblocks.toNat ((List.range (headerCoded s)).map Instr.entRes)).flatten (started s) =
      .next t → t.phase = .err →
    ∃ t', exec .frame s = .next t' ∧ Raised s t' t.errCode t.errInfo

/-- 40_frame_control.md R120, the spec's own inference: if `FRAME` completes, then `FRAME_START` followed by `NBLOCKS`
times `BLOCK` completes and ends in the same state but for `STATE`, `S[0]`, `S[1]`, `RES`. -/
def Obligations.StepModeFollowsFrame : Prop :=
  ∀ s t : State, s.Inv → s.phase ≠ .err → exec .frame s = .next t → t.phase ≠ .err →
    ∃ a b, exec .frameStart s = .next a ∧ a.phase = .opened ∧ runBlocks s.regs.nblocks.toNat a = .next b ∧
      b.phase = .opened ∧
      t = { b with
        phase := .done
        res := 0
        ch0 := { b.ch0 with sample := 0 }
        ch1 := { b.ch1 with sample := 0 } }

/-- The converse of 40_frame_control.md R120, the spec's own inference, which says when `FRAME` completes: whenever
`FRAME_START` and `NBLOCKS` times `BLOCK` complete, so does `FRAME`, with the same `OUT`. -/
def Obligations.FrameFollowsStepMode : Prop :=
  ∀ s a b : State, s.Inv → s.phase ≠ .err → exec .frameStart s = .next a → a.phase = .opened →
    runBlocks s.regs.nblocks.toNat a = .next b → b.phase = .opened →
    exec .frame s = .next { b with
      phase := .done
      res := 0
      ch0 := { b.ch0 with sample := 0 }
      ch1 := { b.ch1 with sample := 0 } }

/-- 40_frame_control.md R117, and R122, 70_reset_and_hazards.md R265, R271, the spec's own inferences: a `FRAME` that
completes writes the words `0 .. NBLOCKS*CHANNELS-1` of `OUT` and no other; it leaves `STATE = DONE`, `BIDX =
NBLOCKS`, the header latches at the header's words, `S[0]`, `S[1]`, `RES` at 0, and the error registers, the
configuration and `WIN` as they were. That a word of `OUT` is written is said as a cell the memory lists, the model's
choice of a memory's form (notes/assumptions/3.md). -/
def Obligations.CompletedFrameWritesExactlyItsWords : Prop :=
  ∀ s t : State, s.Inv → s.phase ≠ .err → exec .frame s = .next t → t.phase ≠ .err →
    t.phase = .done ∧ t.bidx = s.regs.nblocks ∧ t.frameCrc = headerCrc s ∧ t.frameFlags = headerFlags s ∧
    t.ch0.sample = 0 ∧ t.ch1.sample = 0 ∧ t.res = 0 ∧ t.errCode = s.errCode ∧ t.errInfo = s.errInfo ∧
    t.regs = s.regs ∧ (∀ a, winByte t.win a = winByte s.win a) ∧
    (∀ i < s.regs.nblocks.toNat * s.regs.channels.toNat, (lookupCell i t.out.cells).isSome = true) ∧
    ∀ i, s.regs.nblocks.toNat * s.regs.channels.toNat ≤ i → outWord t.out i = outWord s.out i

/-- 44_stereo_output.md R202: in a false-stereo frame each block's one value is written to both output channels, and
channel 1's state stays as the per-frame clear left it. -/
def Obligations.FalseStereoDuplicatesChannelZero : Prop :=
  ∀ s t : State, s.phase ≠ .err → exec .frame s = .next t → t.phase ≠ .err → headerFalseStereo s = true →
    t.ch1 = clearedChan s ∧
    ∀ b < s.regs.nblocks.toNat, outWord t.out (2 * b + 1) = outWord t.out (2 * b)

/-- 40_frame_control.md R123, the spec's own inference: the outcome of `FRAME` is a function of the configuration
registers, the window's bytes and the parameters, and of nothing else. -/
def Obligations.FrameDependsOnlyOnConfigurationAndWindow : Prop :=
  ∀ s₁ s₂ t₁ t₂ : State, s₁.phase ≠ .err → s₂.phase ≠ .err → s₁.regs = s₂.regs → s₁.cfg = s₂.cfg →
    (∀ a < s₁.regs.winLen.toNat, winByte s₁.win a = winByte s₂.win a) →
    exec .frame s₁ = .next t₁ → exec .frame s₂ = .next t₂ →
    t₁.phase = t₂.phase ∧ (t₁.phase = .err → t₁.errCode = t₂.errCode ∧ t₁.errInfo = t₂.errInfo) ∧
    (t₁.phase ≠ .err →
      t₁.silent = t₂.silent ∧ t₁.fstereo = t₂.fstereo ∧ t₁.rcInit = t₂.rcInit ∧ t₁.frameCrc = t₂.frameCrc ∧
      t₁.frameFlags = t₂.frameFlags ∧ t₁.res = t₂.res ∧ t₁.bidx = t₂.bidx ∧ t₁.rc = t₂.rc ∧ t₁.ch0 = t₂.ch0 ∧
      t₁.ch1 = t₂.ch1 ∧
      ∀ i < s₁.regs.nblocks.toNat * s₁.regs.channels.toNat, outWord t₁.out i = outWord t₂.out i)

/-! ## Memories, the stream view, the bus -/

/-- 20_memory.md R63: stream bit `t` is bit `31 - (t mod 32)` of `ViewWord(t // 32)`. -/
def Obligations.StreamBitIsABitOfTheViewWord : Prop :=
  ∀ (v : View) (t : Nat), streamBit v t = viewWord v.win (t / 32) / 2 ^ (31 - t % 32) % 2

/-- 20_memory.md R64, "Consequence", the spec's own inference: the view bytes `4q .. 4q+3` are all inside the window
iff `WIN_LEN ≥ 4q+4`. -/
def Obligations.WholeWordInsideTheWindow : Prop :=
  ∀ (v : View) (q : Nat),
    ((insideWindow v (4 * q) && insideWindow v (4 * q + 1) && insideWindow v (4 * q + 2) &&
      insideWindow v (4 * q + 3)) = true) ↔ 4 * q + 4 ≤ v.len

/-- 20_memory.md R60, R62 (the spec's own inference): a host write to word `q` of `WIN` in `IDLE` or `DONE` makes
`ViewWord(q)` the value written, changes no other byte and nothing else; in `OPEN` and `ERR` it is ignored (R270). -/
def Obligations.WindowWriteIsTheViewWord : Prop :=
  ∀ (s : State) (q : Nat) (x : Word) (rest : List BusReq), 4 * q < s.cfg.winCap →
    Pending s (.write (s.cfg.winBase + 4 * q) 4 x) rest →
    ((s.phase = .idle ∨ s.phase = .done) → ∃ t, step s = .next t ∧ t = { s with win := t.win, bus := rest } ∧
      viewWord t.win q = x.toNat ∧ ∀ a, a / 4 ≠ q → winByte t.win a = winByte s.win a) ∧
    ((s.phase = .opened ∨ s.phase = .err) → step s = .next { s with bus := rest })

/-- 20_memory.md R60, R66, 10_state.md R28: host reads of `WIN` in every state and of `OUT` outside `ERR` return the
contents and have no side effect; host writes to `OUT` are ignored in every state. -/
def Obligations.MemoryReadsReturnTheContents : Prop :=
  ∀ (s : State) (q : Nat) (rest : List BusReq),
    (4 * q < s.cfg.winCap → Pending s (.read (s.cfg.winBase + 4 * q) 4) rest →
      step s = .next { s with bus := rest, readData := BitVec.ofNat 32 (viewWord s.win q) }) ∧
    (q < s.cfg.outCap → s.phase ≠ .err → Pending s (.read (s.cfg.outBase + 4 * q) 4) rest →
      step s = .next { s with bus := rest, readData := outWord s.out q }) ∧
    (q < s.cfg.outCap → ∀ x, Pending s (.write (s.cfg.outBase + 4 * q) 4 x) rest → step s = .next { s with bus := rest })

/-- 10_state.md R26, R27: a configuration register written in `IDLE` or `DONE` reads back any 32-bit value, and the
write changes nothing else; in `OPEN` and `ERR` the write is ignored. `j` is the register's number from offset 0x10
on. -/
def Obligations.ConfigurationWritesReadBackOrAreLocked : Prop :=
  ∀ (s : State) (j : Nat) (x : Word) (rest : List BusReq), j < 12 →
    Pending s (.write (s.cfg.regBase + 0x10 + 4 * j) 4 x) rest →
    ((s.phase = .idle ∨ s.phase = .done) → ∃ t, step s = .next t ∧ t = { s with regs := t.regs, bus := rest } ∧
      regValue t (regAt (0x10 + 4 * j)) = x ∧
      ∀ i < 12, i ≠ j → regValue t (regAt (0x10 + 4 * i)) = regValue s (regAt (0x10 + 4 * i))) ∧
    ((s.phase = .opened ∨ s.phase = .err) → step s = .next { s with bus := rest })

/-- 10_state.md R27: `S0` and `S1` take a host write in `OPEN` only; a write to a read-only or reserved register is
ignored in every state. -/
def Obligations.SampleWritesOnlyInOpenAndReadOnlyWritesIgnored : Prop :=
  ∀ (s : State) (off : Nat) (x : Word) (rest : List BusReq), off < 0x100 → off % 4 = 0 →
    Pending s (.write (s.cfg.regBase + off) 4 x) rest →
    (off = 0x50 → s.phase = .opened → step s = .next { s with bus := rest, ch0 := { s.ch0 with sample := x } }) ∧
    (off = 0x54 → s.phase = .opened → step s = .next { s with bus := rest, ch1 := { s.ch1 with sample := x } }) ∧
    ((off = 0x50 ∨ off = 0x54) → s.phase ≠ .opened → step s = .next { s with bus := rest }) ∧
    ((0x04 ≤ off ∧ off < 0x10 ∨ 0x40 ≤ off ∧ off ≠ 0x50 ∧ off ≠ 0x54) → step s = .next { s with bus := rest })

/-- 10_state.md R24: `STATUS` field by field, in every state. Two clauses rest on inferences of the model's: in `ERR`
the flags read as the free values the error entry left (R225, notes/assumptions/4.md), and `BUSY` reads 0
(notes/assumptions/5.md). -/
def Obligations.StatusRegisterFields : Prop :=
  ∀ (s : State) (rest : List BusReq), Pending s (.read (s.cfg.regBase + 0x04) 4) rest →
    ∃ d : Word, step s = .next { s with bus := rest, readData := d } ∧
      (d.extractLsb' 0 2).toNat = (match s.phase with | .idle => 0 | .opened => 1 | .done => 2 | .err => 3) ∧
      d.getLsbD 2 = false ∧ d.getLsbD 3 = s.silent ∧ d.getLsbD 4 = s.fstereo ∧ d.getLsbD 5 = s.rcInit ∧
      d.extractLsb' 6 26 = 0

/-- 10_state.md R26, R28, 60_exceptions.md R220: what the other registers read as: `ERRCODE`, by its number, and `ERRINFO`
in every state; outside `ERR` the latches, the results, the sample registers, the range decoder's registers and `K`, and 0
at `CMD` and at every reserved offset; a read changes nothing but the read data. -/
def Obligations.RegisterReads : Prop :=
  ∀ (s : State) (off : Nat) (rest : List BusReq), Pending s (.read (s.cfg.regBase + off) 4) rest →
    (off = 0x08 → step s = .next { s with
      bus := rest
      readData := match s.errCode with
        | .none => 0
        | .io => 1
        | .unsupportedVersion => 2
        | .invalidHeader => 3
        | .truncatedFrame => 4
        | .corruptBitstream => 5
        | .corruptFrame => 6
        | .unsupportedConfiguration => 7
        | .arithmeticOverflow => 8
        | .illegalCommand => 9 }) ∧
    (off = 0x0C → step s = .next { s with bus := rest, readData := s.errInfo }) ∧
    (s.phase ≠ .err →
      (off = 0x00 → step s = .next { s with bus := rest, readData := 0 }) ∧
      (off = 0x40 → step s = .next { s with bus := rest, readData := s.frameCrc }) ∧
      (off = 0x44 → step s = .next { s with bus := rest, readData := s.frameFlags }) ∧
      (off = 0x48 → step s = .next { s with bus := rest, readData := s.res }) ∧
      (off = 0x4C → step s = .next { s with bus := rest, readData := s.bidx }) ∧
      (off = 0x50 → step s = .next { s with bus := rest, readData := s.ch0.sample }) ∧
      (off = 0x54 → step s = .next { s with bus := rest, readData := s.ch1.sample }) ∧
      (off = 0x58 → step s = .next { s with bus := rest, readData := s.rc.low }) ∧
      (off = 0x5C → step s = .next { s with bus := rest, readData := s.rc.range }) ∧
      (off = 0x60 → step s = .next { s with bus := rest, readData := s.rc.pos }) ∧
      (off = 0x68 → step s = .next { s with bus := rest, readData := BitVec.ofNat 32 s.ch0.k }) ∧
      (off = 0x6C → step s = .next { s with bus := rest, readData := BitVec.ofNat 32 s.ch1.k }) ∧
      (0x70 ≤ off → off < 0x100 → off % 4 = 0 → step s = .next { s with bus := rest, readData := 0 }))

/-- 10_state.md R26, R28: the twelve configuration registers read as their current values in every state, at the
offsets of the table, 0x10 to 0x3C in this order. -/
def Obligations.ConfigurationReadsInEveryState : Prop :=
  ∀ (s : State) (j : Nat) (x : Word) (rest : List BusReq),
    [s.regs.formatVersion, s.regs.channels, s.regs.bitsPerSample, s.regs.compressionLevel, s.regs.blocksPerFrame,
      s.regs.finalFrameBlocks, s.regs.totalFrames, s.regs.frameIndex, s.regs.nblocks, s.regs.startBit, s.regs.winLen,
      s.regs.winExpect][j]? = some x →
    Pending s (.read (s.cfg.regBase + 0x10 + 4 * j) 4) rest →
    step s = .next { s with bus := rest, readData := x }

/-- 10_state.md R38, 20_memory.md R62, R64: outside `ERR`, `RC_BUFFER` reads as the view word that holds the next unread
bit, every byte outside the window read as 0: byte `a` of `WIN` is inside it iff `a < WIN_LEN`. For `a ≥ WIN_CAP` the
byte is a free value, the model's choice (notes/assumptions/9.md). -/
def Obligations.RcBufferIsTheNextViewWord : Prop :=
  ∀ (s : State) (rest : List BusReq), s.phase ≠ .err → Pending s (.read (s.cfg.regBase + 0x64) 4) rest →
    let q := s.rc.pos.toNat / 32
    let byte := fun j => if 4 * q + j < s.regs.winLen.toNat then (winByte s.win (4 * q + j)).toNat else 0
    step s = .next { s with
      bus := rest
      readData := BitVec.ofNat 32 (byte 3 * 2 ^ 24 + byte 2 * 2 ^ 16 + byte 1 * 2 ^ 8 + byte 0) }

/-- 10_state.md R28, 20_memory.md R66: a read of `OUT`, or of a register that is neither a control nor a configuration
register, `CMD` and the reserved offsets included, in `ERR` hands the host some value and changes nothing else the spec
names. That `CMD` is among them is notes/assumptions/4.md; the model's own counter moves (notes/assumptions/3.md); nothing
is said of the value. -/
def Obligations.ReadsInErrChangeNothing : Prop :=
  ∀ (s : State) (off : Nat) (rest : List BusReq), s.phase = .err →
    ((off = 0x00 ∨ 0x40 ≤ off) → off < 0x100 → off % 4 = 0 → Pending s (.read (s.cfg.regBase + off) 4) rest →
      ∃ d n, step s = .next { s with bus := rest, readData := d, draws := n }) ∧
    (off < s.cfg.outCap → Pending s (.read (s.cfg.outBase + 4 * off) 4) rest →
      ∃ d n, step s = .next { s with bus := rest, readData := d, draws := n })

/-- 20_memory.md R69: an access of another width, a misaligned access, or an access outside the three regions has no
meaning: the model refuses it. -/
def Obligations.AccessesOutsideTheSpecAreRefused : Prop :=
  ∀ (s : State) (addr bytes : Nat) (x : Word) (rest : List BusReq),
    (bytes ≠ 4 ∨ addr % 4 ≠ 0 ∨
      ((addr < s.cfg.regBase ∨ s.cfg.regBase + 0x100 ≤ addr) ∧ (addr < s.cfg.winBase ∨ s.cfg.winBase + s.cfg.winCap ≤ addr) ∧
        (addr < s.cfg.outBase ∨ s.cfg.outBase + 4 * s.cfg.outCap ≤ addr))) →
    (Pending s (.read addr bytes) rest → step s = .refused .busAccessOutsideSpec) ∧
    (Pending s (.write addr bytes x) rest → step s = .refused .busAccessOutsideSpec)
end

