-- ==== Sys2Proof/Laws/State.lean ====
section
/-! SUPPORT. One lemma per field per state update, so that no later proof unfolds a record update. -/

namespace Sys2Proof.Machine

section
variable (s : State) (c : Nat) (ch : Chan)

@[simp] theorem setChan_phase : (s.setChan c ch).phase = s.phase := by
  unfold State.setChan; split <;> rfl

@[simp] theorem setChan_errCode : (s.setChan c ch).errCode = s.errCode := by
  unfold State.setChan; split <;> rfl

@[simp] theorem setChan_errInfo : (s.setChan c ch).errInfo = s.errInfo := by
  unfold State.setChan; split <;> rfl

@[simp] theorem setChan_silent : (s.setChan c ch).silent = s.silent := by
  unfold State.setChan; split <;> rfl

@[simp] theorem setChan_fstereo : (s.setChan c ch).fstereo = s.fstereo := by
  unfold State.setChan; split <;> rfl

@[simp] theorem setChan_rcInit : (s.setChan c ch).rcInit = s.rcInit := by
  unfold State.setChan; split <;> rfl

@[simp] theorem setChan_regs : (s.setChan c ch).regs = s.regs := by
  unfold State.setChan; split <;> rfl

@[simp] theorem setChan_frameCrc : (s.setChan c ch).frameCrc = s.frameCrc := by
  unfold State.setChan; split <;> rfl

@[simp] theorem setChan_frameFlags : (s.setChan c ch).frameFlags = s.frameFlags := by
  unfold State.setChan; split <;> rfl

@[simp] theorem setChan_res : (s.setChan c ch).res = s.res := by
  unfold State.setChan; split <;> rfl

@[simp] theorem setChan_bidx : (s.setChan c ch).bidx = s.bidx := by
  unfold State.setChan; split <;> rfl

@[simp] theorem setChan_rc : (s.setChan c ch).rc = s.rc := by
  unfold State.setChan; split <;> rfl

@[simp] theorem setChan_win : (s.setChan c ch).win = s.win := by
  unfold State.setChan; split <;> rfl

@[simp] theorem setChan_out : (s.setChan c ch).out = s.out := by
  unfold State.setChan; split <;> rfl

@[simp] theorem setChan_cfg : (s.setChan c ch).cfg = s.cfg := by
  unfold State.setChan; split <;> rfl

@[simp] theorem setChan_bus : (s.setChan c ch).bus = s.bus := by
  unfold State.setChan; split <;> rfl

@[simp] theorem setChan_readData : (s.setChan c ch).readData = s.readData := by
  unfold State.setChan; split <;> rfl

@[simp] theorem setChan_draws : (s.setChan c ch).draws = s.draws := by
  unfold State.setChan; split <;> rfl

@[simp] theorem chan_setChan_self : (s.setChan c ch).chan c = ch := by
  unfold State.setChan State.chan; split <;> rfl

@[simp] theorem setChan_setChan (ch' : Chan) : (s.setChan c ch').setChan c ch = s.setChan c ch := by
  unfold State.setChan; split <;> rfl

@[simp] theorem setChan_chan : s.setChan c (s.chan c) = s := by
  unfold State.setChan State.chan; split <;> rfl

theorem chan_setChan_of_ne {d : Nat} (hc : c < 2) (hd : d < 2) (h : d ≠ c) : (s.setChan c ch).chan d = s.chan d := by
  unfold State.setChan State.chan
  by_cases h0 : c = 0 <;> by_cases h1 : d = 0 <;> simp_all <;> omega

@[simp] theorem chan_zero : s.chan 0 = s.ch0 := rfl

@[simp] theorem chan_one : s.chan 1 = s.ch1 := rfl

@[simp] theorem setChan_zero : s.setChan 0 ch = { s with ch0 := ch } := rfl

@[simp] theorem setChan_one : s.setChan 1 ch = { s with ch1 := ch } := rfl

end

section
variable (s : State) (i : Nat) (v : Word)

@[simp] theorem writeOut_phase : (s.writeOut i v).phase = s.phase := rfl

@[simp] theorem writeOut_errCode : (s.writeOut i v).errCode = s.errCode := rfl

@[simp] theorem writeOut_errInfo : (s.writeOut i v).errInfo = s.errInfo := rfl

@[simp] theorem writeOut_silent : (s.writeOut i v).silent = s.silent := rfl

@[simp] theorem writeOut_fstereo : (s.writeOut i v).fstereo = s.fstereo := rfl

@[simp] theorem writeOut_rcInit : (s.writeOut i v).rcInit = s.rcInit := rfl

@[simp] theorem writeOut_regs : (s.writeOut i v).regs = s.regs := rfl

@[simp] theorem writeOut_frameCrc : (s.writeOut i v).frameCrc = s.frameCrc := rfl

@[simp] theorem writeOut_frameFlags : (s.writeOut i v).frameFlags = s.frameFlags := rfl

@[simp] theorem writeOut_res : (s.writeOut i v).res = s.res := rfl

@[simp] theorem writeOut_bidx : (s.writeOut i v).bidx = s.bidx := rfl

@[simp] theorem writeOut_rc : (s.writeOut i v).rc = s.rc := rfl

@[simp] theorem writeOut_ch0 : (s.writeOut i v).ch0 = s.ch0 := rfl

@[simp] theorem writeOut_ch1 : (s.writeOut i v).ch1 = s.ch1 := rfl

@[simp] theorem writeOut_win : (s.writeOut i v).win = s.win := rfl

@[simp] theorem writeOut_out : (s.writeOut i v).out = s.out.write i v := rfl

@[simp] theorem writeOut_cfg : (s.writeOut i v).cfg = s.cfg := rfl

@[simp] theorem writeOut_bus : (s.writeOut i v).bus = s.bus := rfl

@[simp] theorem writeOut_readData : (s.writeOut i v).readData = s.readData := rfl

@[simp] theorem writeOut_draws : (s.writeOut i v).draws = s.draws := rfl

@[simp] theorem writeOut_chan (c : Nat) : (s.writeOut i v).chan c = s.chan c := rfl

@[simp] theorem writeOut_view : (s.writeOut i v).view = s.view := rfl

@[simp] theorem writeOut_row : (s.writeOut i v).row = s.row := rfl

@[simp] theorem writeOut_nch : (s.writeOut i v).nch = s.nch := rfl

@[simp] theorem writeOut_ncoded : (s.writeOut i v).ncoded = s.ncoded := rfl

@[simp] theorem writeOut_nstages : (s.writeOut i v).nstages = s.nstages := rfl

end

section
variable (s : State) (c : Nat)

@[simp] theorem setChan_view (ch : Chan) : (s.setChan c ch).view = s.view := by simp [State.view]

@[simp] theorem setChan_row (ch : Chan) : (s.setChan c ch).row = s.row := by simp [State.row]

@[simp] theorem setChan_nch (ch : Chan) : (s.setChan c ch).nch = s.nch := by simp [State.nch]

@[simp] theorem setChan_ncoded (ch : Chan) : (s.setChan c ch).ncoded = s.ncoded := by simp [State.ncoded]

@[simp] theorem setChan_nstages (ch : Chan) : (s.setChan c ch).nstages = s.nstages := by simp [State.nstages]

theorem setSample_eq (v : Word) : s.setSample c v = s.setChan c { s.chan c with sample := v } := rfl

theorem setK_eq (k : Nat) : s.setK c k = s.setChan c { s.chan c with k := k } := rfl

end

section
variable (e : Err) (s : State)

@[simp] theorem raise_phase : (raise e s).phase = .err := rfl

@[simp] theorem raise_errCode : (raise e s).errCode = e.kind := rfl

@[simp] theorem raise_errInfo : (raise e s).errInfo = e.info := rfl

@[simp] theorem raise_regs : (raise e s).regs = s.regs := rfl

@[simp] theorem raise_win : (raise e s).win = s.win := rfl

@[simp] theorem raise_out : (raise e s).out = ⟨s.draws, []⟩ := rfl

@[simp] theorem raise_cfg : (raise e s).cfg = s.cfg := rfl

@[simp] theorem raise_bus : (raise e s).bus = s.bus := rfl

@[simp] theorem raise_readData : (raise e s).readData = s.readData := rfl

@[simp] theorem raise_draws : (raise e s).draws = s.draws + 1 := rfl

@[simp] theorem softReset_phase : (softReset s).phase = .idle := rfl

@[simp] theorem softReset_errCode : (softReset s).errCode = .none := rfl

@[simp] theorem softReset_errInfo : (softReset s).errInfo = 0 := rfl

@[simp] theorem softReset_silent : (softReset s).silent = false := rfl

@[simp] theorem softReset_fstereo : (softReset s).fstereo = false := rfl

@[simp] theorem softReset_rcInit : (softReset s).rcInit = false := rfl

@[simp] theorem softReset_regs : (softReset s).regs = s.regs := rfl

@[simp] theorem softReset_frameCrc : (softReset s).frameCrc = 0 := rfl

@[simp] theorem softReset_frameFlags : (softReset s).frameFlags = 0 := rfl

@[simp] theorem softReset_res : (softReset s).res = 0 := rfl

@[simp] theorem softReset_bidx : (softReset s).bidx = 0 := rfl

@[simp] theorem softReset_rc : (softReset s).rc = ⟨0, 0, 0⟩ := rfl

@[simp] theorem softReset_ch0 : (softReset s).ch0 = clearChan s 0 := rfl

@[simp] theorem softReset_ch1 : (softReset s).ch1 = clearChan s 0 := rfl

@[simp] theorem softReset_win : (softReset s).win = s.win := rfl

@[simp] theorem softReset_out : (softReset s).out = s.out := rfl

@[simp] theorem softReset_cfg : (softReset s).cfg = s.cfg := rfl

@[simp] theorem softReset_bus : (softReset s).bus = s.bus := rfl

@[simp] theorem softReset_readData : (softReset s).readData = s.readData := rfl

@[simp] theorem softReset_draws : (softReset s).draws = s.draws := rfl

@[simp] theorem hardReset_phase : (hardReset s).phase = .idle := rfl

@[simp] theorem hardReset_errCode : (hardReset s).errCode = .none := rfl

@[simp] theorem hardReset_errInfo : (hardReset s).errInfo = 0 := rfl

@[simp] theorem hardReset_regs : (hardReset s).regs = ConfigRegs.zero := rfl

@[simp] theorem hardReset_win : (hardReset s).win = ⟨s.draws, []⟩ := rfl

@[simp] theorem hardReset_out : (hardReset s).out = ⟨s.draws, []⟩ := rfl

@[simp] theorem hardReset_cfg : (hardReset s).cfg = s.cfg := rfl

@[simp] theorem hardReset_bus : (hardReset s).bus = s.bus := rfl

@[simp] theorem hardReset_readData : (hardReset s).readData = s.readData := rfl

@[simp] theorem hardReset_draws : (hardReset s).draws = s.draws + 1 := rfl

end

end Sys2Proof.Machine
end

