-- ==== Sys2Proof/Laws/Memory.lean ====
section
/-! SUPPORT. The memories: a read after a write, and the canonical form (20_memory.md R60, R66). -/

namespace Sys2Proof.Machine

variable {w : Nat}

@[simp] theorem lookup_insert_self (a : Nat) (v : BitVec w) (l : List (Nat × BitVec w)) :
    lookupCell a (insertCell a v l) = some v := by
  induction l with
  | nil => simp [insertCell, lookupCell]
  | cons c rest ih =>
    obtain ⟨b, u⟩ := c
    simp only [insertCell]
    split
    · simp [lookupCell]
    · split
      · simp [lookupCell]
      · simp [lookupCell, *]

theorem lookup_insert_of_ne {a b : Nat} (h : b ≠ a) (v : BitVec w) (l : List (Nat × BitVec w)) :
    lookupCell b (insertCell a v l) = lookupCell b l := by
  induction l with
  | nil => simp [insertCell, lookupCell, h]
  | cons c rest ih =>
    obtain ⟨d, u⟩ := c
    simp only [insertCell]
    split
    · simp [lookupCell, h]
    · split
      · subst d; simp [lookupCell, h]
      · simp [lookupCell, ih]

@[simp] theorem write_epoch (m : Memory w) (a : Nat) (v : BitVec w) : (m.write a v).epoch = m.epoch := rfl

/-- `OUT`: a write is read back (R66). -/
@[simp] theorem outWord_write_self (m : Memory 32) (i : Nat) (v : Word) : outWord (m.write i v) i = v := by
  simp [outWord, Memory.write]

/-- `OUT`: a write leaves every other word alone. -/
theorem outWord_write_of_ne (m : Memory 32) {i j : Nat} (v : Word) (h : j ≠ i) :
    outWord (m.write i v) j = outWord m j := by
  simp [outWord, Memory.write, lookup_insert_of_ne h]

theorem outWord_write (m : Memory 32) (i j : Nat) (v : Word) :
    outWord (m.write i v) j = if j = i then v else outWord m j := by
  split
  · subst j; simp
  · exact outWord_write_of_ne m v ‹_›

/-- `WIN`: a write is read back (R60). -/
@[simp] theorem winByte_write_self (m : Memory 8) (i : Nat) (v : Byte) : winByte (m.write i v) i = v := by
  simp [winByte, Memory.write]

/-- `WIN`: a write leaves every other byte alone. -/
theorem winByte_write_of_ne (m : Memory 8) {i j : Nat} (v : Byte) (h : j ≠ i) :
    winByte (m.write i v) j = winByte m j := by
  simp [winByte, Memory.write, lookup_insert_of_ne h]

theorem mem_insertCell {a : Nat} {v : BitVec w} {l : List (Nat × BitVec w)} {c : Nat × BitVec w}
    (h : c ∈ insertCell a v l) : c = (a, v) ∨ c ∈ l := by
  induction l with
  | nil => simpa [insertCell] using h
  | cons d rest ih =>
    obtain ⟨b, u⟩ := d
    simp only [insertCell] at h
    split at h
    · simpa using h
    · split at h
      · rcases List.mem_cons.1 h with h | h
        · exact .inl h
        · exact .inr (List.mem_cons_of_mem _ h)
      · rcases List.mem_cons.1 h with h | h
        · exact .inr (by simp [h])
        · exact (ih h).imp id (List.mem_cons_of_mem _)

/-- A write keeps the addresses strictly rising. -/
theorem insertCell_rising {a : Nat} {v : BitVec w} {l : List (Nat × BitVec w)}
    (h : l.Pairwise (fun p q => p.1 < q.1)) : (insertCell a v l).Pairwise (fun p q => p.1 < q.1) := by
  induction l with
  | nil => simp [insertCell]
  | cons d rest ih =>
    obtain ⟨b, u⟩ := d
    rw [List.pairwise_cons] at h
    simp only [insertCell]
    split
    · refine List.pairwise_cons.2 ⟨fun c hc => ?_, List.pairwise_cons.2 h⟩
      rcases List.mem_cons.1 hc with rfl | hc
      · assumption
      · exact Nat.lt_trans ‹a < b› (h.1 c hc)
    · split
      · subst b; exact List.pairwise_cons.2 h
      · refine List.pairwise_cons.2 ⟨fun c hc => ?_, ih h.2⟩
        rcases mem_insertCell hc with rfl | hc
        · show b < a; omega
        · exact h.1 c hc

/-- A write keeps the canonical form. -/
theorem write_wf {m : Memory w} (a : Nat) (v : BitVec w) (h : m.wf) : (m.write a v).wf := insertCell_rising h

/-- A write keeps a bound on the listed addresses. -/
theorem write_bound {m : Memory w} {a n : Nat} (v : BitVec w) (ha : a < n) (h : ∀ c ∈ m.cells, c.1 < n) :
    ∀ c ∈ (m.write a v).cells, c.1 < n := by
  intro c hc
  rcases mem_insertCell hc with rfl | hc
  · exact ha
  · exact h c hc

theorem lookup_none_of_lt {a : Nat} {l : List (Nat × BitVec w)} (h : ∀ c ∈ l, a < c.1) : lookupCell a l = none := by
  induction l with
  | nil => rfl
  | cons d rest ih =>
    obtain ⟨b, u⟩ := d
    have hb : a < b := h (b, u) (by simp)
    simp [lookupCell, Nat.ne_of_lt hb, ih fun c hc => h c (List.mem_cons_of_mem _ hc)]

/-- Two lists in canonical form with the same contents are the same list. -/
theorem cells_ext : {l m : List (Nat × BitVec w)} → l.Pairwise (fun p q => p.1 < q.1) →
    m.Pairwise (fun p q => p.1 < q.1) → (∀ a, lookupCell a l = lookupCell a m) → l = m
  | [], [], _, _, _ => rfl
  | [], (b, u) :: rest, _, _, h => by simpa [lookupCell] using h b
  | (b, u) :: rest, [], _, _, h => by simpa [lookupCell] using h b
  | (b, u) :: l, (d, v) :: m, hl, hm, h => by
    rw [List.pairwise_cons] at hl hm
    have hbd : b = d := by
      rcases Nat.lt_trichotomy b d with hlt | heq | hgt
      · have h1 := h b
        rw [lookup_none_of_lt (l := (d, v) :: m)] at h1
        · simp [lookupCell] at h1
        · intro c hc
          rcases List.mem_cons.1 hc with rfl | hc
          · exact hlt
          · exact Nat.lt_trans hlt (hm.1 c hc)
      · exact heq
      · have h1 := h d
        rw [lookup_none_of_lt (l := (b, u) :: l)] at h1
        · simp [lookupCell] at h1
        · intro c hc
          rcases List.mem_cons.1 hc with rfl | hc
          · exact hgt
          · exact Nat.lt_trans hgt (hl.1 c hc)
    subst hbd
    have huv : u = v := by simpa [lookupCell] using h b
    subst huv
    have : l = m := cells_ext hl.2 hm.2 fun a => by
      by_cases hab : a = b
      · subst hab
        rw [lookup_none_of_lt fun c hc => hl.1 c hc, lookup_none_of_lt fun c hc => hm.1 c hc]
      · simpa [lookupCell, hab] using h a
    rw [this]

/-- Equal canonical memories are equal data. -/
theorem memory_ext {m n : Memory w} (hm : m.wf) (hn : n.wf) (he : m.epoch = n.epoch)
    (h : ∀ a, lookupCell a m.cells = lookupCell a n.cells) : m = n := by
  cases m; cases n
  simp only at he
  subst he
  congr 1
  exact cells_ext hm hn h

end Sys2Proof.Machine
end

