-- ==== Sys2Proof/Laws/Ops.lean ====
section
/-! SUPPORT. What each shared operation can do, said once: the outcome of an issue, of a list of checks, of a counted
loop, of a command word. -/

namespace Sys2Proof.Machine

/-- An operation that completes is issued outside `ERR`, is legal, and its pseudocode ran to its end (R12, R87). -/
theorem issue_completes {i : Instr} {op : State → Except Err State} {s t : State} (h : issue i op s = .next t)
    (ht : t.phase ≠ .err) : s.phase ≠ .err ∧ legal i s = true ∧ op s = .ok t := by
  unfold issue at h
  split at h
  · cases h; exact absurd ‹_› ht
  · split at h
    · refine ⟨‹_›, ‹_›, ?_⟩
      cases hop : op s with
      | ok u => simp only [hop, settle, Host.Outcome.next.injEq] at h; rw [h]
      | error e =>
        simp only [hop, settle, Host.Outcome.next.injEq] at h
        subst h; simp at ht
    · cases h; simp at ht

/-- The three outcomes of an issue (R12): ignored, completed, or an error entry from the state before. -/
theorem issue_cases {i : Instr} {op : State → Except Err State} {s t : State} (h : issue i op s = .next t) :
    (s.phase = .err ∧ t = s) ∨ (s.phase ≠ .err ∧ legal i s = true ∧ op s = .ok t) ∨
      (s.phase ≠ .err ∧ ∃ e, t = raise e s ∧
        ((legal i s = true ∧ op s = .error e) ∨ (legal i s = false ∧ e = illegalCommand (encode i)))) := by
  unfold issue at h
  split at h
  · cases h; exact .inl ⟨‹_›, rfl⟩
  · split at h
    · cases hop : op s with
      | ok u =>
        simp only [hop, settle, Host.Outcome.next.injEq] at h
        exact .inr (.inl ⟨‹_›, ‹_›, by rw [h]⟩)
      | error e =>
        simp only [hop, settle, Host.Outcome.next.injEq] at h
        exact .inr (.inr ⟨‹_›, e, h.symm, .inl ⟨‹_›, rfl⟩⟩)
    · cases h
      rename_i hp hl
      exact .inr (.inr ⟨hp, _, rfl, .inr ⟨Bool.eq_false_iff.2 hl, rfl⟩⟩)

theorem issue_of_err {i : Instr} {op : State → Except Err State} {s : State} (h : s.phase = .err) :
    issue i op s = .next s := by simp [issue, h]

theorem issue_of_ok {i : Instr} {op : State → Except Err State} {s t : State} (hp : s.phase ≠ .err)
    (hl : legal i s = true) (ho : op s = .ok t) : issue i op s = .next t := by simp [issue, hp, hl, ho, settle]

theorem issue_of_error {i : Instr} {op : State → Except Err State} {s : State} {e : Err} (hp : s.phase ≠ .err)
    (hl : legal i s = true) (ho : op s = .error e) : issue i op s = .next (raise e s) := by
  simp [issue, hp, hl, ho, settle]

theorem issue_of_illegal {i : Instr} {op : State → Except Err State} {s : State} (hp : s.phase ≠ .err)
    (hl : legal i s = false) : issue i op s = .next (raise (illegalCommand (encode i)) s) := by simp [issue, hp, hl]

/-- `exec` of every operation but `SRESET` is an issue; this names its body. -/
def body : Instr → State → Except Err State
  | .nop => opNop
  | .sreset => fun s => .ok (softReset s)
  | .frameStart => frameStart
  | .frame => opFrame
  | .rcInit => opRcInit
  | .rcNorm => opRcNorm
  | .rcBits n => opRcBits n
  | .rcSym => opRcSym
  | .rcValue k => opRcValue k
  | .entRes c => opEntRes c
  | .nnfStep st c => opNnfStep st c
  | .predStep c => opPredStep c
  | .stereoStep => opStereoStep
  | .emit => opEmit

theorem exec_eq_issue {i : Instr} (h : i ≠ .sreset) (s : State) : exec i s = issue i (body i) s := by
  cases i <;> first | exact absurd rfl h | rfl

theorem exec_sreset (s : State) : exec .sreset s = .next (softReset s) := rfl

/-- A list of checks passes exactly when no condition holds. -/
theorem runChecks_ok_iff (l : List (Bool × Err)) : runChecks l = .ok () ↔ ∀ c ∈ l, c.1 = false := by
  induction l with
  | nil => simp [runChecks]
  | cons c rest ih =>
    obtain ⟨b, e⟩ := c
    cases b <;> simp [runChecks, ih]

@[simp] theorem runChecks_nil : runChecks [] = .ok () := rfl

@[simp] theorem runChecks_cons (b : Bool) (e : Err) (rest : List (Bool × Err)) :
    runChecks ((b, e) :: rest) = if b then .error e else runChecks rest := rfl

/-- One case of a sequence of two computations. -/
theorem bind_ok {α β : Type} {x : Except Err α} {f : α → Except Err β} {b : β} (h : (x >>= f) = .ok b) :
    ∃ a, x = .ok a ∧ f a = .ok b := by
  cases x with
  | ok a => exact ⟨a, rfl, h⟩
  | error e => cases h

@[simp] theorem ok_bind {α β : Type} (a : α) (f : α → Except Err β) : ((Except.ok a : Except Err α) >>= f) = f a := rfl

@[simp] theorem error_bind {α β : Type} (e : Err) (f : α → Except Err β) :
    ((Except.error e : Except Err α) >>= f) = .error e := rfl

@[simp] theorem forUpTo_zero (f : Nat → State → Except Err State) (s : State) : forUpTo 0 f s = .ok s := rfl

theorem forUpTo_succ (n : Nat) (f : Nat → State → Except Err State) (s : State) :
    forUpTo (n + 1) f s = (forUpTo n f s >>= f n) := rfl

/-- THE LOOP RULE: what holds before the first iteration and is carried by each one holds at the end. -/
theorem forUpTo_induct {f : Nat → State → Except Err State} {n : Nat} {s t : State} (P : Nat → State → Prop)
    (h : forUpTo n f s = .ok t) (h0 : P 0 s) (hs : ∀ i < n, ∀ a b, P i a → f i a = .ok b → P (i + 1) b) : P n t := by
  induction n generalizing t with
  | zero => cases h; exact h0
  | succ n ih =>
    obtain ⟨a, ha, hb⟩ := bind_ok h
    exact hs n (Nat.lt_succ_self n) a t (ih ha fun i hi => hs i (Nat.lt_succ_of_lt hi)) hb

/-- The loop completes when every iteration does from a state that carries the invariant. -/
theorem forUpTo_completes {f : Nat → State → Except Err State} {n : Nat} {s : State} (P : Nat → State → Prop)
    (h0 : P 0 s) (hs : ∀ i < n, ∀ a, P i a → ∃ b, f i a = .ok b ∧ P (i + 1) b) :
    ∃ t, forUpTo n f s = .ok t ∧ P n t := by
  induction n with
  | zero => exact ⟨s, rfl, h0⟩
  | succ n ih =>
    obtain ⟨a, ha, hp⟩ := ih fun i hi => hs i (Nat.lt_succ_of_lt hi)
    obtain ⟨b, hb, hq⟩ := hs n (Nat.lt_succ_self n) a hp
    exact ⟨b, by rw [forUpTo_succ, ha]; exact hb, hq⟩

theorem settle_error (e : Err) (s : State) : settle (.error e) s = raise e s := rfl

theorem settle_ok (t s : State) : settle (.ok t) s = t := rfl

end Sys2Proof.Machine
end

