-- ==== Sys2Proof/Laws/Params.lean ====
section
/-! SUPPORT. The constraints of 00_scope.md R7 and 20_memory.md R68 on the parameters, one by one. -/

namespace Sys2Proof

namespace Config.Legal

variable {p : Config}

theorem kInit_le (h : p.Legal) : p.kInit ≤ p.kMax := h.2.2.2.2.2.2.2.2.2.2.1

theorem kMax_le (h : p.Legal) : p.kMax ≤ 31 := h.2.2.2.2.2.2.2.2.2.2.2.1

theorem ovfShift_pos (h : p.Legal) : 1 ≤ p.ovfShift := h.2.2.2.2.2.2.2.2.2.2.2.2.1

theorem ovfShift_le (h : p.Legal) : p.ovfShift ≤ 16 := h.2.2.2.2.2.2.2.2.2.2.2.2.2.1

theorem ovfNsym_ge (h : p.Legal) : 2 ≤ p.ovfNsym := h.2.2.2.2.2.2.2.2.2.2.2.2.2.2.1

theorem ovfCum_head (h : p.Legal) : p.ovfCum.head? = some 0 := h.2.2.2.2.2.2.2.2.2.2.2.2.2.2.2.1

theorem ovfCum_last (h : p.Legal) : p.ovfCum.getLast? = some (2 ^ p.ovfShift) := h.2.2.2.2.2.2.2.2.2.2.2.2.2.2.2.2.1

theorem ovfCum_rising (h : p.Legal) : p.ovfCum.Pairwise (· < ·) := h.2.2.2.2.2.2.2.2.2.2.2.2.2.2.2.2.2.1

theorem winCap_mod (h : p.Legal) : p.winCap % 4 = 0 := h.2.2.2.2.2.2.2.2.2.2.2.2.2.2.2.2.2.2.1

theorem winCap_lt (h : p.Legal) : p.winCap < 2 ^ 28 := h.2.2.2.2.2.2.2.2.2.2.2.2.2.2.2.2.2.2.2.2.1

theorem outCap_lt (h : p.Legal) : p.outCap < 2 ^ 28 := h.2.2.2.2.2.2.2.2.2.2.2.2.2.2.2.2.2.2.2.2.2.2.1

theorem regBase_mod (h : p.Legal) : p.regBase % 4 = 0 := h.2.2.2.2.2.2.2.2.2.2.2.2.2.2.2.2.2.2.2.2.2.2.2.2.2.1

theorem winBase_mod (h : p.Legal) : p.winBase % 4 = 0 := h.2.2.2.2.2.2.2.2.2.2.2.2.2.2.2.2.2.2.2.2.2.2.2.2.2.2.1

theorem outBase_mod (h : p.Legal) : p.outBase % 4 = 0 := h.2.2.2.2.2.2.2.2.2.2.2.2.2.2.2.2.2.2.2.2.2.2.2.2.2.2.2.1

theorem regs_win (h : p.Legal) : disjointRegions p.regBase 0x100 p.winBase p.winCap :=
  h.2.2.2.2.2.2.2.2.2.2.2.2.2.2.2.2.2.2.2.2.2.2.2.2.2.2.2.2.1

theorem regs_out (h : p.Legal) : disjointRegions p.regBase 0x100 p.outBase (4 * p.outCap) :=
  h.2.2.2.2.2.2.2.2.2.2.2.2.2.2.2.2.2.2.2.2.2.2.2.2.2.2.2.2.2.1

theorem win_out (h : p.Legal) : disjointRegions p.winBase p.winCap p.outBase (4 * p.outCap) :=
  h.2.2.2.2.2.2.2.2.2.2.2.2.2.2.2.2.2.2.2.2.2.2.2.2.2.2.2.2.2.2

end Config.Legal

end Sys2Proof
end

