-- ==== Sys2Proof/Laws/Bus.lean ====
section
/-! SUPPORT. The step: an empty queue, a served request, a command word (10_state.md R26 to R28, 20_memory.md R60, R66,
R68, 30_encoding.md R81). -/

namespace Sys2Proof.Machine

theorem step_of_idle {s : State} (hl : s.cfg.Legal) (hb : s.bus = []) : step s = .next s := by
  unfold step; rw [if_pos hl, hb]

/-- THE STEP LEMMA: the next request is served on the state with the request taken off the queue. -/
theorem step_of_request {s : State} {q : BusReq} {rest : List BusReq} (hl : s.cfg.Legal) (hb : s.bus = q :: rest) :
    step s = finish (serve { s with bus := rest } q) { s with bus := rest } := by
  unfold step; rw [if_pos hl, hb]

theorem step_of_illegal {s : State} (hl : ¬ s.cfg.Legal) : step s = .refused .illegalParameters := by
  unfold step; rw [if_neg hl]

/-- An aligned word access inside the register file (R68). -/
theorem busTarget_reg {p : Config} (hp : p.Legal) {off : Nat} (h : off < 0x100) (h4 : off % 4 = 0) :
    busTarget p (p.regBase + off) 4 = some (.reg off) := by
  have := hp.regBase_mod
  unfold busTarget
  rw [if_neg (by omega), if_pos (by omega), Nat.add_sub_cancel_left]

/-- An aligned word access inside `WIN` (R68). -/
theorem busTarget_win {p : Config} (hp : p.Legal) {q : Nat} (h : 4 * q < p.winCap) :
    busTarget p (p.winBase + 4 * q) 4 = some (.win q) := by
  have h1 := hp.winBase_mod
  have h2 := hp.regs_win
  unfold busTarget
  rw [if_neg (by omega), if_neg (by omega), if_pos (by omega)]
  congr 2
  omega

/-- An aligned word access inside `OUT` (R68). -/
theorem busTarget_out {p : Config} (hp : p.Legal) {i : Nat} (h : i < p.outCap) :
    busTarget p (p.outBase + 4 * i) 4 = some (.out i) := by
  have h1 := hp.outBase_mod
  have h2 := hp.regs_out
  have h3 := hp.win_out
  unfold busTarget
  rw [if_neg (by omega), if_neg (by omega), if_neg (by omega), if_pos (by omega)]
  congr 2
  omega

/-- Every access that reaches a target is an aligned word access inside one of the three regions (R68, R69). -/
theorem busTarget_some {p : Config} {addr bytes : Nat} {t : BusTarget} (h : busTarget p addr bytes = some t) :
    bytes = 4 ∧ addr % 4 = 0 ∧
      ((p.regBase ≤ addr ∧ addr < p.regBase + 0x100 ∧ t = .reg (addr - p.regBase)) ∨
        (p.winBase ≤ addr ∧ addr < p.winBase + p.winCap ∧ t = .win ((addr - p.winBase) / 4)) ∨
          (p.outBase ≤ addr ∧ addr < p.outBase + 4 * p.outCap ∧ t = .out ((addr - p.outBase) / 4))) := by
  unfold busTarget at h
  split at h
  · cases h
  · rename_i h0
    have h0 : bytes = 4 ∧ addr % 4 = 0 := by omega
    refine ⟨h0.1, h0.2, ?_⟩
    split at h
    · rename_i h1
      exact .inl ⟨h1.1, h1.2, (Option.some.inj h).symm⟩
    · split at h
      · rename_i h1
        exact .inr (.inl ⟨h1.1, h1.2, (Option.some.inj h).symm⟩)
      · split at h
        · rename_i h1
          exact .inr (.inr ⟨h1.1, h1.2, (Option.some.inj h).symm⟩)
        · cases h

/-- A write to `CMD` issues its word (R81). -/
theorem step_of_command {s : State} {w : Word} {rest : List BusReq} (hl : s.cfg.Legal)
    (hb : s.bus = .write s.cfg.regBase 4 w :: rest) : step s = issueWord w { s with bus := rest } := by
  have ht := busTarget_reg hl (off := 0) (by decide) (by decide)
  rw [Nat.add_zero] at ht
  rw [step_of_request hl hb]
  show finish (busWrite { s with bus := rest } s.cfg.regBase 4 w) _ = _
  unfold busWrite
  rw [ht]
  rfl

/-- A register read (R28). -/
theorem step_of_register_read {s : State} {off : Nat} {rest : List BusReq} (hl : s.cfg.Legal) (h : off < 0x100)
    (h4 : off % 4 = 0) (hb : s.bus = .read (s.cfg.regBase + off) 4 :: rest) :
    step s = .next (readReg { s with bus := rest } (regAt off)) := by
  rw [step_of_request hl hb]
  show finish (busRead { s with bus := rest } (s.cfg.regBase + off) 4) _ = _
  unfold busRead
  rw [busTarget_reg hl h h4]
  rfl

/-- A write to a register other than `CMD` (R27). -/
theorem step_of_register_write {s : State} {off : Nat} {x : Word} {rest : List BusReq} (hl : s.cfg.Legal)
    (h : off < 0x100) (h4 : off % 4 = 0) (hc : regAt off ≠ .cmd)
    (hb : s.bus = .write (s.cfg.regBase + off) 4 x :: rest) :
    step s = .next (writeReg { s with bus := rest } (regAt off) x) := by
  rw [step_of_request hl hb]
  show finish (busWrite { s with bus := rest } (s.cfg.regBase + off) 4 x) _ = _
  unfold busWrite
  rw [busTarget_reg hl h h4]
  simp only [hc, if_false]
  rfl

/-- A read of `WIN` (R60). -/
theorem step_of_win_read {s : State} {q : Nat} {rest : List BusReq} (hl : s.cfg.Legal) (h : 4 * q < s.cfg.winCap)
    (hb : s.bus = .read (s.cfg.winBase + 4 * q) 4 :: rest) : step s = .next (readWin { s with bus := rest } q) := by
  rw [step_of_request hl hb]
  show finish (busRead { s with bus := rest } (s.cfg.winBase + 4 * q) 4) _ = _
  unfold busRead
  rw [busTarget_win hl h]
  rfl

/-- A write to `WIN` (R60). -/
theorem step_of_win_write {s : State} {q : Nat} {x : Word} {rest : List BusReq} (hl : s.cfg.Legal)
    (h : 4 * q < s.cfg.winCap) (hb : s.bus = .write (s.cfg.winBase + 4 * q) 4 x :: rest) :
    step s = .next (writeWin { s with bus := rest } q x) := by
  rw [step_of_request hl hb]
  show finish (busWrite { s with bus := rest } (s.cfg.winBase + 4 * q) 4 x) _ = _
  unfold busWrite
  rw [busTarget_win hl h]
  rfl

/-- A read of `OUT` (R66). -/
theorem step_of_out_read {s : State} {i : Nat} {rest : List BusReq} (hl : s.cfg.Legal) (h : i < s.cfg.outCap)
    (hb : s.bus = .read (s.cfg.outBase + 4 * i) 4 :: rest) : step s = .next (readOut { s with bus := rest } i) := by
  rw [step_of_request hl hb]
  show finish (busRead { s with bus := rest } (s.cfg.outBase + 4 * i) 4) _ = _
  unfold busRead
  rw [busTarget_out hl h]
  rfl

/-- A write to `OUT` is ignored (R66). -/
theorem step_of_out_write {s : State} {i : Nat} {x : Word} {rest : List BusReq} (hl : s.cfg.Legal)
    (h : i < s.cfg.outCap) (hb : s.bus = .write (s.cfg.outBase + 4 * i) 4 x :: rest) :
    step s = .next { s with bus := rest } := by
  rw [step_of_request hl hb]
  show finish (busWrite { s with bus := rest } (s.cfg.outBase + 4 * i) 4 x) _ = _
  unfold busWrite
  rw [busTarget_out hl h]
  rfl

/-- The four bytes of a word, put together as `ViewWord` does (R62). -/
theorem bytes_of_word (x : Word) :
    (byteOf x 3).toNat * 2 ^ 24 + (byteOf x 2).toNat * 2 ^ 16 + (byteOf x 1).toNat * 2 ^ 8 + (byteOf x 0).toNat =
      x.toNat := by
  have h := x.isLt
  simp only [byteOf, BitVec.extractLsb'_toNat, Nat.shiftRight_eq_div_pow]
  omega

end Sys2Proof.Machine
end

