-- ==== Sys2Proof/Laws/Filters.lean ====
section
/-! SUPPORT. The filters: the vector operations entry by entry, what each stage gives and when it raises (42_nnfilter.md
R161, 43_predictor.md R181, 44_stereo_output.md R200). -/

namespace Sys2Proof.Machine

theorem sgn_eq_sign (v : Int) : sgn v = Int.sign v := by
  unfold sgn
  split
  · rw [Int.sign_eq_one_of_pos ‹_›]
  · split
    · rw [Int.sign_eq_neg_one_of_neg ‹_›]
    · have : v = 0 := by omega
      simp [this]

theorem sar_eq_fdiv (a : Int) (n : Nat) : sar a n = Int.fdiv a ((2 : Int) ^ n) := by
  rw [sar, Int.fdiv_eq_ediv_of_nonneg]
  positivity

theorem fitsSigned_iff {bits : Nat} {v : Int} :
    fitsSigned bits v = true ↔ -(2 : Int) ^ (bits - 1) ≤ v ∧ v ≤ (2 : Int) ^ (bits - 1) - 1 := by
  simp only [fitsSigned, decide_eq_true_eq]
  constructor <;> rintro ⟨h1, h2⟩ <;> exact ⟨h1, by omega⟩

/-- A value that fits is stored exactly. -/
theorem toInt_ofInt_of_fits {bits : Nat} (hb : 0 < bits) {v : Int} (h : fitsSigned bits v = true) :
    (BitVec.ofInt bits v).toInt = v := by
  simp only [fitsSigned, decide_eq_true_eq] at h
  obtain ⟨n, rfl⟩ : ∃ n, bits = n + 1 := ⟨bits - 1, by omega⟩
  simp only [Nat.add_sub_cancel] at h
  rw [BitVec.toInt_ofInt]
  exact Int.bmod_eq_of_le_mul_two (by push_cast [pow_succ]; omega) (by push_cast [pow_succ]; omega)

theorem toWord_toInt (x : Word) : toWord x.toInt = x := BitVec.ofInt_toInt

theorem fits_toInt (x : Word) : fitsSigned 32 x.toInt = true := by
  have h1 := BitVec.toInt_lt (x := x)
  have h2 := BitVec.le_toInt (x := x)
  simp only [fitsSigned, decide_eq_true_eq]
  omega

/-- The scalar product as a sum over the entries. -/
theorem dot_eq_sum {u w : Nat} : ∀ {n : Nat} {a : List (BitVec u)} {b : List (BitVec w)}, a.length = n → b.length = n →
    dot (a.map BitVec.toInt) (b.map BitVec.toInt) = ∑ j ∈ Finset.range n, (a.getD j 0).toInt * (b.getD j 0).toInt
  | 0, [], [], _, _ => by simp [dot]
  | n + 1, x :: a, y :: b, ha, hb => by
    rw [Finset.sum_range_succ']
    simp only [List.map_cons, dot, List.getD_cons_succ, List.getD_cons_zero]
    rw [dot_eq_sum (by simpa using ha) (by simpa using hb), add_comm]

theorem length_signUpdate (sx : Int) : ∀ (a b : List Int), a.length = b.length → (signUpdate sx a b).length = a.length
  | [], [], _ => rfl
  | _ :: a, _ :: b, h => by
    simp only [signUpdate, List.length_cons] at h ⊢
    rw [length_signUpdate sx a b (by omega)]

/-- One entry of the sign-sign update. -/
theorem getElem?_signUpdate (sx : Int) : ∀ (a b : List Int) (j : Nat), a.length = b.length →
    (signUpdate sx a b)[j]? = (a[j]?).map fun x => x + sgn (b[j]?.getD 0) * sx
  | [], [], j, _ => by simp [signUpdate]
  | x :: a, y :: b, 0, _ => by simp [signUpdate]
  | x :: a, y :: b, j + 1, h => by
    simp only [signUpdate, List.getElem?_cons_succ]
    exact getElem?_signUpdate sx a b j (by simpa using h)

/-- The sign-sign update as a list over the indices. -/
theorem signUpdate_eq_map {u w : Nat} (sx : Int) {n : Nat} {a : List (BitVec u)} {b : List (BitVec w)}
    (ha : a.length = n) (hb : b.length = n) :
    signUpdate sx (a.map BitVec.toInt) (b.map BitVec.toInt) =
      (List.range n).map fun j => (a.getD j 0).toInt + Int.sign (b.getD j 0).toInt * sx := by
  apply List.ext_getElem?
  intro j
  rw [getElem?_signUpdate sx _ _ j (by simp [ha, hb])]
  by_cases hj : j < n
  · rw [List.getElem?_map, List.getElem?_map, List.getElem?_map, List.getElem?_range hj,
      List.getElem?_eq_getElem (by omega), List.getElem?_eq_getElem (by omega)]
    simp [sgn_eq_sign, List.getD_eq_getElem?_getD, List.getElem?_eq_getElem (show j < a.length by omega),
      List.getElem?_eq_getElem (show j < b.length by omega)]
  · simp [ha, hb, hj]

theorem length_shiftIn {w n : Nat} (x : BitVec w) {h : List (BitVec w)} (hl : h.length = n) :
    (shiftIn n x h).length = n := by simp [shiftIn, hl]

/-- A stage that completes: the output fits, every weight fits, and this is the new stage (R161). -/
theorem nnfStage_ok {g : StageSpec} {st c : Nat} {x y : Word} {q q' : Stage} (h : nnfStage g st c x q = .ok (y, q')) :
    let w := q.w.map BitVec.toInt
    let hs := q.h.map BitVec.toInt
    fitsSigned 32 (x.toInt + sar (nnfAcc q) g.shift) = true ∧
    (signUpdate (sgn x.toInt) w hs).all (fitsSigned 16) = true ∧
    y = toWord (x.toInt + sar (nnfAcc q) g.shift) ∧
    q' = ⟨shiftIn g.order y q.h, (signUpdate (sgn x.toInt) w hs).map toHalf⟩ := by
  simp only [nnfStage] at h
  split at h
  · cases h
  · split at h
    · cases h
    · simp only [Except.ok.injEq, Prod.mk.injEq] at h
      obtain ⟨rfl, rfl⟩ := h
      exact ⟨by simp_all, by simp_all, rfl, rfl⟩

/-- A stage keeps its lengths (R33). -/
theorem nnfStage_lengths {g : StageSpec} {st c : Nat} {x y : Word} {q q' : Stage} (h : nnfStage g st c x q = .ok (y, q'))
    (hh : q.h.length = g.order) (hw : q.w.length = g.order) : q'.h.length = g.order ∧ q'.w.length = g.order := by
  obtain ⟨-, -, -, rfl⟩ := nnfStage_ok h
  refine ⟨length_shiftIn _ hh, ?_⟩
  rw [List.length_map, length_signUpdate _ _ _ (by simp [hh, hw]), List.length_map, hw]

/-- A stage raises `ArithmeticOverflow` at site 1 or 2 and nothing else (R222). -/
theorem nnfStage_error {g : StageSpec} {st c : Nat} {x : Word} {q : Stage} {e : Err}
    (h : nnfStage g st c x q = .error e) : e = arithmeticOverflow 1 c st ∨ e = arithmeticOverflow 2 c st := by
  simp only [nnfStage] at h
  split at h
  · cases h; exact .inl rfl
  · split at h
    · cases h; exact .inr rfl
    · cases h

/-- A predictor that completes: the accumulator, the output and every coefficient fit, and this is the new predictor
(R181). -/
theorem predStage_ok {p : Config} {c : Nat} {y z : Word} {q q' : Predictor} (h : predStage p c y q = .ok (z, q')) :
    let a := q.a.map BitVec.toInt
    let b := q.b.map BitVec.toInt
    let ys := q.y.map BitVec.toInt
    let zs := q.z.map BitVec.toInt
    let acc := dot a zs + dot b ys
    fitsSigned 64 acc = true ∧ fitsSigned 32 (y.toInt + sar acc p.predShift) = true ∧
    (signUpdate (sgn y.toInt) a zs).all (fitsSigned 32) = true ∧
    (signUpdate (sgn y.toInt) b ys).all (fitsSigned 32) = true ∧
    z = toWord (y.toInt + sar acc p.predShift) ∧
    q' = ⟨(signUpdate (sgn y.toInt) a zs).map toWord, (signUpdate (sgn y.toInt) b ys).map toWord,
      shiftIn p.predNY y q.y, shiftIn p.predNZ z q.z⟩ := by
  simp only [predStage] at h
  split at h
  · cases h
  · split at h
    · cases h
    · split at h
      · cases h
      · rename_i h1 h2 h3
        simp only [Except.ok.injEq, Prod.mk.injEq] at h
        obtain ⟨rfl, rfl⟩ := h
        simp only [Bool.not_eq_true, Bool.not_eq_false', Bool.and_eq_true] at h1 h2 h3
        exact ⟨h1, h2, h3.1, h3.2, rfl, rfl⟩

/-- A predictor keeps its lengths (R34). -/
theorem predStage_lengths {p : Config} {c : Nat} {y z : Word} {q q' : Predictor} (h : predStage p c y q = .ok (z, q'))
    (ha : q.a.length = p.predNZ) (hb : q.b.length = p.predNY) (hy : q.y.length = p.predNY)
    (hz : q.z.length = p.predNZ) :
    q'.a.length = p.predNZ ∧ q'.b.length = p.predNY ∧ q'.y.length = p.predNY ∧ q'.z.length = p.predNZ := by
  obtain ⟨-, -, -, -, -, rfl⟩ := predStage_ok h
  refine ⟨?_, ?_, length_shiftIn _ hy, length_shiftIn _ hz⟩
  · rw [List.length_map, length_signUpdate _ _ _ (by simp [ha, hz]), List.length_map, ha]
  · rw [List.length_map, length_signUpdate _ _ _ (by simp [hb, hy]), List.length_map, hb]

/-- The predictor raises `ArithmeticOverflow` at site 5, 3 or 4 and nothing else (R222). -/
theorem predStage_error {p : Config} {c : Nat} {y : Word} {q : Predictor} {e : Err}
    (h : predStage p c y q = .error e) :
    e = arithmeticOverflow 5 c 0 ∨ e = arithmeticOverflow 3 c 0 ∨ e = arithmeticOverflow 4 c 0 := by
  simp only [predStage] at h
  split at h
  · cases h; exact .inl rfl
  · split at h
    · cases h; exact .inr (.inl rfl)
    · split at h
      · cases h; exact .inr (.inr rfl)
      · cases h

/-- `Stereo` in full: both results fit, or `ArithmeticOverflow` at site 6 (R200). -/
theorem stereo_eq (x y : Word) :
    stereo x y =
      if fitsSigned 32 (x.toInt - sar y.toInt 1) && fitsSigned 32 (x.toInt - sar y.toInt 1 + y.toInt) then
        .ok (toWord (x.toInt - sar y.toInt 1 + y.toInt), toWord (x.toInt - sar y.toInt 1))
      else .error (arithmeticOverflow 6 0 0) := by
  simp only [stereo]
  cases fitsSigned 32 (x.toInt - sar y.toInt 1) <;>
    cases fitsSigned 32 (x.toInt - sar y.toInt 1 + y.toInt) <;> rfl

/-- `NnfStep` on the state, once its stage is known to complete. -/
theorem nnfStep_ok {st c : Nat} {x y : Word} {s t : State} (h : nnfStep st c x s = .ok (y, t)) :
    ∃ q', nnfStage (s.row[st]?.getD ⟨0, 0⟩) st c x ((s.chan c).nnf[st]?.getD ⟨[], []⟩) = .ok (y, q') ∧
      t = s.setChan c { s.chan c with nnf := (s.chan c).nnf.set st q' } := by
  obtain ⟨⟨y', q'⟩, hq, h⟩ := bind_ok h
  simp only [Except.ok.injEq, Prod.mk.injEq] at h
  obtain ⟨rfl, rfl⟩ := h
  exact ⟨q', hq, rfl⟩

/-- `PredStep` on the state, once its stage is known to complete. -/
theorem predStep_ok {c : Nat} {y z : Word} {s t : State} (h : predStep c y s = .ok (z, t)) :
    ∃ q', predStage s.cfg c y (s.chan c).pred = .ok (z, q') ∧ t = s.setChan c { s.chan c with pred := q' } := by
  obtain ⟨⟨z', q'⟩, hq, h⟩ := bind_ok h
  simp only [Except.ok.injEq, Prod.mk.injEq] at h
  obtain ⟨rfl, rfl⟩ := h
  exact ⟨q', hq, rfl⟩

/-- Replacing a stage by one of the same lengths keeps the bank's shape (R33). -/
theorem bankOk_set {row : List StageSpec} {ch : Chan} (hb : BankOk row ch) {st : Nat} {g : StageSpec}
    (hg : row[st]? = some g) {q' : Stage} (hh : q'.h.length = g.order) (hw : q'.w.length = g.order) :
    BankOk row { ch with nnf := ch.nnf.set st q' } := by
  show (ch.nnf.set st q').map _ = _
  rw [List.map_set, hb]
  apply List.ext_getElem?
  intro j
  rw [List.getElem?_set]
  split
  · subst j
    obtain ⟨hlt, hge⟩ := List.getElem?_eq_some_iff.1 hg
    simp [hh, hw, hlt, hge]
  · rfl

/-- In a bank of the right shape stage `st` exists exactly when row entry `st` does, with its order as both lengths. -/
theorem bankOk_get {row : List StageSpec} {ch : Chan} (hb : BankOk row ch) {st : Nat} {g : StageSpec}
    (hg : row[st]? = some g) : ∃ q, ch.nnf[st]? = some q ∧ q.h.length = g.order ∧ q.w.length = g.order := by
  have h := congrArg (fun l => l[st]?) hb
  simp only [List.getElem?_map, hg, Option.map_some] at h
  cases hq : ch.nnf[st]? with
  | none => simp [hq] at h
  | some q =>
    simp only [hq, Option.map_some, Option.some.injEq, Prod.mk.injEq] at h
    exact ⟨q, rfl, h⟩

/-- A cleared bank has the shape of its row. -/
theorem bankOk_clearChan (s : State) (k : Nat) : BankOk s.row (clearChan s k) := by
  simp [BankOk, clearChan, Stage.zeroBank, List.map_map, Function.comp_def]

theorem chanOk_clearChan (s : State) {k : Nat} (hk : k ≤ s.cfg.kMax) : ChanOk s.cfg (clearChan s k) := by
  refine ⟨hk, ?_⟩
  simp [clearChan, Predictor.zero]

theorem chanOk_freeChan (n : Nat) (s : State) (c : Nat) : ChanOk s.cfg (freeChan n s c) := by
  refine ⟨Nat.lt_succ_iff.1 (Nat.mod_lt _ (Nat.succ_pos _)), ?_⟩
  simp [freeChan, freeWords]

end Sys2Proof.Machine
end

