-- ==== Sys2Proof/Laws/Stream.lean ====
section
/-! SUPPORT. The stream view (20_memory.md R61 to R64): its bits, and when they are inside the window. -/

namespace Sys2Proof.Machine

/-- `i xor 3`, the byte order inside a word of the view (R61): the other end of the same aligned group of four. -/
theorem xor_three (a : Nat) : a ^^^ 3 = 4 * (a / 4) + (3 - a % 4) := by
  have h1 := Nat.shiftRight_xor_distrib (a := a) (b := 3) (i := 2)
  have h2 := Nat.xor_mod_two_pow (a := a) (b := 3) (n := 2)
  simp only [Nat.shiftRight_eq_div_pow] at h1
  have h3 : a % 4 < 4 := Nat.mod_lt _ (by decide)
  have h4 : (a ^^^ 3) / 4 = a / 4 := by simpa using h1
  have h5 : (a ^^^ 3) % 4 = 3 - a % 4 := by
    have : (a ^^^ 3) % 4 = a % 4 ^^^ 3 := by simpa using h2
    rw [this]
    generalize a % 4 = b at h3
    interval_cases b <;> rfl
  omega

theorem streamBit_lt (v : View) (t : Nat) : streamBit v t < 2 := Nat.mod_lt _ (by decide)

theorem streamBits_lt (v : View) (p n : Nat) : streamBits v p n < 2 ^ n := by
  induction n with
  | zero => simp [streamBits]
  | succ n ih =>
    have := streamBit_lt v (p + n)
    rw [streamBits, Nat.pow_succ]
    omega

/-- A longer access is the shorter one followed by the rest (R63). -/
theorem streamBits_add (v : View) (p a b : Nat) :
    streamBits v p (a + b) = streamBits v p a * 2 ^ b + streamBits v (p + a) b := by
  induction b with
  | zero => simp [streamBits]
  | succ b ih =>
    rw [← Nat.add_assoc, streamBits, ih, streamBits, Nat.pow_succ, Nat.add_assoc]
    ring

/-- `StreamBits(p, n)` is defined exactly when every view byte it touches is inside the window (R64). -/
theorem streamDefined_iff (v : View) (p n : Nat) :
    streamDefined v p n = true ↔ ∀ t, p ≤ t → t < p + n → insideWindow v (t / 8) = true := by
  unfold streamDefined
  rw [Bool.or_eq_true, List.all_eq_true]
  constructor
  · rintro (h | h) t h1 h2
    · have : n = 0 := by simpa using h
      omega
    · have hj : p / 8 + (t / 8 - p / 8) = t / 8 := by omega
      rw [← hj]
      exact h _ (List.mem_range.2 (by omega))
  · intro h
    by_cases hn : n = 0
    · exact .inl (by simp [hn])
    · refine .inr fun j hj => ?_
      rw [List.mem_range] at hj
      have : p / 8 + j = max p (8 * (p / 8 + j)) / 8 := by omega
      rw [this]
      exact h _ (by omega) (by omega)

/-- Two accesses, one after the other, are defined exactly when the joint access is. -/
theorem streamDefined_add (v : View) (p a b : Nat) :
    streamDefined v p (a + b) = (streamDefined v p a && streamDefined v (p + a) b) := by
  rw [Bool.eq_iff_iff, Bool.and_eq_true]
  simp only [streamDefined_iff]
  constructor
  · exact fun h => ⟨fun t h1 h2 => h t h1 (by omega), fun t h1 h2 => h t (by omega) (by omega)⟩
  · intro ⟨h1, h2⟩ t h3 h4
    by_cases ht : t < p + a
    · exact h1 t h3 ht
    · exact h2 t (by omega) (by omega)

@[simp] theorem streamDefined_zero (v : View) (p : Nat) : streamDefined v p 0 = true := by simp [streamDefined]

/-- A defined access of at least one bit ends inside the window's words: no position wraps (R131). -/
theorem pos_bound {v : View} {p n : Nat} (h : streamDefined v p n = true) (hn : 0 < n) : p + n ≤ 8 * v.len + 32 := by
  have h1 := (streamDefined_iff v p n).1 h (p + n - 1) (by omega) (by omega)
  simp only [insideWindow, decide_eq_true_eq] at h1
  rw [xor_three] at h1
  omega

/-- The bits depend on the view bytes they touch and on nothing else. -/
theorem streamBits_congr {v v' : View} {p n : Nat}
    (h : ∀ t, p ≤ t → t < p + n → viewByte v (t / 8) = viewByte v' (t / 8)) : streamBits v p n = streamBits v' p n := by
  induction n with
  | zero => rfl
  | succ n ih =>
    rw [streamBits, streamBits, ih fun t h1 h2 => h t h1 (by omega), streamBit, streamBit,
      h (p + n) (by omega) (by omega)]

/-- An access of 8 bits at a position is the byte the range decoder reads (R131). -/
theorem nextByte_of_defined {v : View} {r : RangeState} (h : streamDefined v r.pos.toNat 8 = true) :
    nextByte v r = .ok (streamBits v r.pos.toNat 8, { r with pos := natWord (r.pos.toNat + 8) }) := by
  simp [nextByte, h]

theorem nextByte_of_undefined {v : View} {r : RangeState} (h : streamDefined v r.pos.toNat 8 = false) :
    nextByte v r = .error (corruptBitstream 1) := by simp [nextByte, h]

end Sys2Proof.Machine
end

