-- ==== Sys2Proof/Laws/RangeDecoder.lean ====
section
/-! SUPPORT. The range decoder (41_range_decoder.md): normalisation in closed form, what each decode gives, and that all
keep R140. -/

namespace Sys2Proof.Machine

@[simp] theorem natWord_toNat_of_lt {n : Nat} (h : n < 2 ^ 32) : (natWord n).toNat = n := by
  simp only [natWord, BitVec.toNat_ofNat]; exact Nat.mod_eq_of_lt h

/-- The window is no longer than any legal `WIN_CAP` allows (R7), so that no position wraps. -/
abbrev ViewShort (v : View) : Prop := v.len ≤ 2 ^ 28

/-- The registers after `m` bytes of normalisation. -/
def normBy (v : View) (r : RangeState) (m : Nat) : RangeState :=
  ⟨natWord (r.low.toNat * 2 ^ (8 * m) + streamBits v r.pos.toNat (8 * m)), natWord (r.range.toNat * 2 ^ (8 * m)),
    natWord (r.pos.toNat + 8 * m)⟩

theorem normBy_zero (v : View) (r : RangeState) : normBy v r 0 = r := by
  simp [normBy, streamBits, natWord]

/-- `m` iterations of `RcNorm`, seen from their start: all bytes inside the window, or `CorruptBitstream(1)`. -/
theorem rcNormLoop_eq {v : View} (hv : ViewShort v) (m : Nat) : ∀ (fuel : Nat) (r : RangeState), m ≤ fuel →
    r.low.toNat < r.range.toNat → 2 ^ 24 ≤ r.range.toNat * 2 ^ (8 * m) → r.range.toNat * 2 ^ (8 * m) < 2 ^ 32 →
    (∀ j < m, r.range.toNat * 2 ^ (8 * j) < 2 ^ 24) →
    rcNormLoop v fuel r =
      if streamDefined v r.pos.toNat (8 * m) then .ok (normBy v r m) else .error (corruptBitstream 1) := by
  induction m with
  | zero =>
    intro fuel r _ _ h24 _ _
    have : ¬ r.range.toNat < 2 ^ 24 := by simpa using h24
    have he : rcNormLoop v fuel r = .ok r := by
      cases fuel <;> exact if_neg this
    simp [he, normBy_zero]
  | succ m ih =>
    intro fuel r hf hlow h24 h32 hj
    obtain ⟨fuel, rfl⟩ : ∃ k, fuel = k + 1 := ⟨fuel - 1, by omega⟩
    have h0 : r.range.toNat < 2 ^ 24 := by simpa using hj 0 (by omega)
    have hsplit : streamDefined v r.pos.toNat (8 * (m + 1)) =
        (streamDefined v r.pos.toNat 8 && streamDefined v (r.pos.toNat + 8) (8 * m)) := by
      rw [show 8 * (m + 1) = 8 + 8 * m by ring, streamDefined_add]
    rw [rcNormLoop, if_pos h0, hsplit]
    cases hd : streamDefined v r.pos.toNat 8 with
    | false => simp [nextByte_of_undefined hd]
    | true =>
      have hpos : r.pos.toNat + 8 < 2 ^ 32 := by
        have := pos_bound hd (by decide)
        simp only [ViewShort] at hv
        omega
      have hb := streamBits_lt v r.pos.toNat 8
      have hpow : ∀ j, r.range.toNat * 2 ^ 8 * 2 ^ (8 * j) = r.range.toNat * 2 ^ (8 * (j + 1)) := fun j => by
        rw [show 8 * (j + 1) = 8 + 8 * j by ring, Nat.pow_add]; ring
      have hra : r.range.toNat * 2 ^ 8 < 2 ^ 32 := by clear * - h0; omega
      have hlr : r.low.toNat * 2 ^ 8 + streamBits v r.pos.toNat 8 < r.range.toNat * 2 ^ 8 := by
        generalize streamBits v r.pos.toNat 8 = b at hb ⊢
        clear * - hb hlow
        omega
      have hlo := Nat.lt_trans hlr hra
      simp only [nextByte_of_defined hd, ok_bind, Bool.true_and]
      rw [ih fuel _ (by omega)]
      · simp only [natWord_toNat_of_lt hpos]
        congr 1
        simp only [normBy, natWord_toNat_of_lt hpos, natWord_toNat_of_lt hlo, natWord_toNat_of_lt hra, hpow]
        have hs := streamBits_add v r.pos.toNat 8 (8 * m)
        rw [show 8 * (m + 1) = 8 + 8 * m by ring, hs, Nat.add_assoc, Nat.pow_add]
        congr 2
        ring_nf
      · simpa only [natWord_toNat_of_lt hlo, natWord_toNat_of_lt hra] using hlr
      · simp only [natWord_toNat_of_lt hra, hpow]; exact h24
      · simp only [natWord_toNat_of_lt hra, hpow]; exact h32
      · intro j hjm
        simp only [natWord_toNat_of_lt hra, hpow]
        exact hj (j + 1) (by omega)

/-- `RcNorm()` (R133, R141): the 0 to 3 bytes that bring the range to `2^24` or more, all inside the window, or
`CorruptBitstream(1)` (R131). -/
theorem rcNorm_cases {v : View} (hv : ViewShort v) {r : RangeState} (hr : RangeOk r) :
    ∃ m ≤ 3, 2 ^ 24 ≤ r.range.toNat * 2 ^ (8 * m) ∧ r.range.toNat * 2 ^ (8 * m) < 2 ^ 32 ∧
      (∀ j < m, r.range.toNat * 2 ^ (8 * j) < 2 ^ 24) ∧
      rcNorm v r = if streamDefined v r.pos.toNat (8 * m) then .ok (normBy v r m) else .error (corruptBitstream 1) := by
  have hlt := r.range.isLt
  suffices h : ∃ m ≤ 3, 2 ^ 24 ≤ r.range.toNat * 2 ^ (8 * m) ∧ r.range.toNat * 2 ^ (8 * m) < 2 ^ 32 ∧
      ∀ j < m, r.range.toNat * 2 ^ (8 * j) < 2 ^ 24 by
    obtain ⟨m, hm, h1, h2, h3⟩ := h
    exact ⟨m, hm, h1, h2, h3, rcNormLoop_eq hv m 3 r hm hr.1 h1 h2 h3⟩
  have h7 := hr.2
  by_cases h24 : 2 ^ 24 ≤ r.range.toNat
  · exact ⟨0, by omega, by omega, by omega, by omega⟩
  · by_cases h16 : 2 ^ 16 ≤ r.range.toNat
    · exact ⟨1, by omega, by omega, by omega, fun j hj => by interval_cases j; omega⟩
    · by_cases h8 : 2 ^ 8 ≤ r.range.toNat
      · exact ⟨2, by omega, by omega, by omega, fun j hj => by interval_cases j <;> omega⟩
      · exact ⟨3, by omega, by omega, by omega, fun j hj => by interval_cases j <;> omega⟩

/-- What `m` bytes of normalisation leave, read as numbers. -/
theorem normBy_toNat {v : View} (hv : ViewShort v) {r : RangeState} {m : Nat} (hr : RangeOk r)
    (h32 : r.range.toNat * 2 ^ (8 * m) < 2 ^ 32) (hd : streamDefined v r.pos.toNat (8 * m) = true) :
    (normBy v r m).low.toNat = r.low.toNat * 2 ^ (8 * m) + streamBits v r.pos.toNat (8 * m) ∧
    (normBy v r m).range.toNat = r.range.toNat * 2 ^ (8 * m) ∧
    (normBy v r m).pos.toNat = r.pos.toNat + 8 * m ∧
    (normBy v r m).low.toNat < (normBy v r m).range.toNat := by
  have hb := streamBits_lt v r.pos.toNat (8 * m)
  have hlow : r.low.toNat * 2 ^ (8 * m) + streamBits v r.pos.toNat (8 * m) < r.range.toNat * 2 ^ (8 * m) := by
    have : (r.low.toNat + 1) * 2 ^ (8 * m) ≤ r.range.toNat * 2 ^ (8 * m) := Nat.mul_le_mul_right _ hr.1
    rw [Nat.add_mul] at this
    omega
  have hpos : r.pos.toNat + 8 * m < 2 ^ 32 := by
    have := r.pos.isLt
    by_cases h0 : m = 0
    · simp [h0, this]
    · have := pos_bound hd (by omega)
      simp only [ViewShort] at hv
      omega
  simp only [normBy]
  rw [natWord_toNat_of_lt (by omega), natWord_toNat_of_lt h32, natWord_toNat_of_lt hpos]
  exact ⟨rfl, rfl, rfl, hlow⟩

/-- A normalisation that succeeds leaves `2^24 ≤ RC_RANGE` and `RC_LOW < RC_RANGE`, and only moves forward. -/
theorem rcNorm_ok {v : View} (hv : ViewShort v) {r r' : RangeState} (hr : RangeOk r) (h : rcNorm v r = .ok r') :
    2 ^ 24 ≤ r'.range.toNat ∧ r'.low.toNat < r'.range.toNat ∧ r.pos.toNat ≤ r'.pos.toNat ∧
      r'.pos.toNat ≤ r.pos.toNat + 24 := by
  obtain ⟨m, hm, h24, h32, -, he⟩ := rcNorm_cases hv hr
  rw [he] at h
  split at h
  · cases h
    obtain ⟨-, h2, h3, h4⟩ := normBy_toNat hv hr h32 ‹_›
    omega
  · cases h

theorem rcNorm_rangeOk {v : View} (hv : ViewShort v) {r r' : RangeState} (hr : RangeOk r) (h : rcNorm v r = .ok r') :
    RangeOk r' := by
  have := rcNorm_ok hv hr h
  exact ⟨this.2.1, by omega⟩

/-- The registers once `help * width` of the interval is taken from `help * lo` on. -/
theorem take_rangeOk {low range help lo width : Nat} (h1 : help * lo ≤ low) (h2 : low < help * (lo + width))
    (h3 : 2 ^ 7 ≤ help) (h4 : help * (lo + width) ≤ range) (h5 : range < 2 ^ 32) (pos : Word) :
    RangeOk ⟨natWord (low - help * lo), natWord (help * width), pos⟩ := by
  rw [Nat.mul_add] at h2 h4
  have hw : 0 < width := by
    rcases Nat.eq_zero_or_pos width with h | h
    · subst h; omega
    · exact h
  have h6 : help * 1 ≤ help * width := Nat.mul_le_mul_left _ hw
  show (natWord _).toNat < (natWord _).toNat ∧ _ ≤ (natWord _).toNat
  rw [natWord_toNat_of_lt (by omega), natWord_toNat_of_lt (by omega)]
  omega

/-- `help` of a normalised range and a shift of at most 16 is at least `2^8` (R140). -/
theorem help_bounds {range n : Nat} (h24 : 2 ^ 24 ≤ range) (hn : n ≤ 16) :
    2 ^ 8 ≤ range / 2 ^ n ∧ range / 2 ^ n * 2 ^ n ≤ range := by
  refine ⟨?_, Nat.div_mul_le_self _ _⟩
  rw [Nat.le_div_iff_mul_le (Nat.two_pow_pos n)]
  calc 2 ^ 8 * 2 ^ n ≤ 2 ^ 8 * 2 ^ 16 := Nat.mul_le_mul_left _ (Nat.pow_le_pow_right (by decide) hn)
    _ ≤ range := by omega

/-- `RcBits(n)` (R134): the value is below `2^n`, R140 is kept, the position only moves forward. -/
theorem rcBits_ok {v : View} (hv : ViewShort v) {n x : Nat} {r r' : RangeState} (hn : n ≤ 16) (hr : RangeOk r)
    (h : rcBits v n r = .ok (x, r')) : x < 2 ^ n ∧ RangeOk r' ∧ r.pos.toNat ≤ r'.pos.toNat := by
  obtain ⟨q, hq, h⟩ := bind_ok h
  obtain ⟨h24, hlow, hp, -⟩ := rcNorm_ok hv hr hq
  obtain ⟨hh, hle⟩ := help_bounds h24 hn
  have hlt := q.range.isLt
  simp only at h
  split at h
  · cases h
  · rename_i hx
    simp only [Except.ok.injEq, Prod.mk.injEq] at h
    obtain ⟨rfl, rfl⟩ := h
    generalize hg : q.range.toNat / 2 ^ n = g at *
    have hxl : g * (q.low.toNat / g) ≤ q.low.toNat := Nat.mul_div_le _ _
    have hxu : q.low.toNat < g * (q.low.toNat / g + 1) := by
      rw [Nat.mul_comm]
      exact (Nat.div_lt_iff_lt_mul (by omega)).1 (Nat.lt_succ_self _)
    have hr2 : g * (q.low.toNat / g + 1) ≤ q.range.toNat := by
      calc g * (q.low.toNat / g + 1) ≤ g * 2 ^ n := Nat.mul_le_mul_left _ (by omega)
        _ ≤ q.range.toNat := hle
    refine ⟨by omega, ?_, hp⟩
    have := take_rangeOk hxl hxu (by omega) hr2 hlt q.pos
    rwa [Nat.mul_one] at this

/-- What `ovfFind` finds. -/
theorem ovfFind_some {cf y lo hi : Nat} : ∀ {l : List Nat} {i : Nat}, ovfFind cf i l = some (y, lo, hi) →
    i ≤ y ∧ l[y - i]? = some lo ∧ l[y - i + 1]? = some hi ∧ lo ≤ cf ∧ cf < hi
  | [], _, h => by simp [ovfFind] at h
  | [_], _, h => by simp [ovfFind] at h
  | a :: b :: rest, i, h => by
    simp only [ovfFind] at h
    split at h
    · simp only [Option.some.injEq, Prod.mk.injEq] at h
      obtain ⟨rfl, rfl, rfl⟩ := h
      simp_all
    · obtain ⟨h1, h2, h3, h4⟩ := ovfFind_some (l := b :: rest) h
      have : y - i = y - (i + 1) + 1 := by omega
      refine ⟨by omega, ?_, ?_, h4⟩
      · rw [this, List.getElem?_cons_succ]; exact h2
      · rw [this, List.getElem?_cons_succ]; exact h3

/-- In a strictly rising table that spans the code, `ovfFind` finds the symbol of the code, and there is one. -/
theorem ovfFind_complete {cf : Nat} : ∀ {l : List Nat} {i a b : Nat}, l.head? = some a → l.getLast? = some b →
    a ≤ cf → cf < b → ∃ y lo hi, ovfFind cf i l = some (y, lo, hi)
  | [], _, _, _, h, _, _, _ => by simp at h
  | [x], _, a, b, h, hb, _, _ => by
    simp only [List.head?_cons, Option.some.injEq, List.getLast?_singleton] at h hb
    omega
  | x :: z :: rest, i, a, b, h, hb, h1, h2 => by
    simp only [List.head?_cons, Option.some.injEq] at h
    subst h
    by_cases hz : cf < z
    · exact ⟨i, x, z, by simp [ovfFind, h1, hz]⟩
    · obtain ⟨y, lo, hi, he⟩ := ovfFind_complete (l := z :: rest) (i := i + 1) (a := z) (b := b) rfl
        (by simpa [List.getLast?_cons_cons] using hb) (by omega) h2
      exact ⟨y, lo, hi, by rw [ovfFind, if_neg (by omega), he]⟩

/-- In a strictly rising table the symbol of a code is unique. -/
theorem ovfFind_unique {cf : Nat} {l : List Nat} (hp : l.Pairwise (· < ·)) {y lo hi : Nat} (h1 : l[y]? = some lo)
    (h2 : l[y + 1]? = some hi) (h3 : lo ≤ cf) (h4 : cf < hi) {z lo' hi' : Nat} (g1 : l[z]? = some lo')
    (g2 : l[z + 1]? = some hi') (g3 : lo' ≤ cf) (g4 : cf < hi') : y = z := by
  have mono : ∀ {a b u v : Nat}, a < b → l[a]? = some u → l[b]? = some v → u < v := fun hab hu hv => by
    obtain ⟨ha, rfl⟩ := List.getElem?_eq_some_iff.1 hu
    obtain ⟨hb, rfl⟩ := List.getElem?_eq_some_iff.1 hv
    exact List.pairwise_iff_getElem.1 hp _ _ ha hb hab
  rcases Nat.lt_trichotomy y z with h | h | h
  · rcases Nat.eq_or_lt_of_le (Nat.succ_le_of_lt h) with h' | h'
    · rw [← h', Nat.succ_eq_add_one, h2] at g1
      cases g1; omega
    · have := mono h' h2 g1; omega
  · exact h
  · rcases Nat.eq_or_lt_of_le (Nat.succ_le_of_lt h) with h' | h'
    · rw [← h', Nat.succ_eq_add_one, g2] at h1
      cases h1; omega
    · have := mono h' g2 h1; omega

/-- Entry 0 of a legal table is 0 and no entry is above `2^OVF_SHIFT` (R7). -/
theorem ovfCum_le {p : Config} (hp : p.Legal) {y hi : Nat} (h : p.ovfCum[y]? = some hi) : hi ≤ 2 ^ p.ovfShift := by
  have hl := hp.ovfCum_last
  have hpw := hp.ovfCum_rising
  obtain ⟨hy, rfl⟩ := List.getElem?_eq_some_iff.1 h
  have hne : p.ovfCum ≠ [] := by rintro he; simp [he] at hl
  rw [List.getLast?_eq_getLast_of_ne_nil hne, Option.some.injEq, List.getLast_eq_getElem] at hl
  rcases Nat.lt_or_ge y (p.ovfCum.length - 1) with h | h
  · have := List.pairwise_iff_getElem.1 hpw y (p.ovfCum.length - 1) hy (by omega) h
    omega
  · have : y = p.ovfCum.length - 1 := by omega
    subst this; omega

/-- `RcSym()` (R135): the symbol is one of the table's, R140 is kept, the position only moves forward. -/
theorem rcSym_ok {p : Config} (hp : p.Legal) {v : View} (hv : ViewShort v) {y : Nat} {r r' : RangeState}
    (hr : RangeOk r) (h : rcSym p v r = .ok (y, r')) : y < p.ovfNsym ∧ RangeOk r' ∧ r.pos.toNat ≤ r'.pos.toNat := by
  obtain ⟨q, hq, h⟩ := bind_ok h
  obtain ⟨h24, hlow, hpo, -⟩ := rcNorm_ok hv hr hq
  have hs := hp.ovfShift_le
  obtain ⟨hh, hle⟩ := help_bounds h24 hs
  have hlt := q.range.isLt
  simp only at h
  split at h
  · cases h
  · split at h
    · rename_i hcf y' lo hi hfind
      simp only [Except.ok.injEq, Prod.mk.injEq] at h
      obtain ⟨rfl, rfl⟩ := h
      obtain ⟨-, hlo, hhi, h1, h2⟩ := ovfFind_some hfind
      simp only [Nat.sub_zero] at hlo hhi
      have hmax := ovfCum_le hp hhi
      generalize q.range.toNat / 2 ^ p.ovfShift = g at *
      have hg : 0 < g := by omega
      have hxl : g * lo ≤ q.low.toNat := by
        rw [Nat.mul_comm]; exact (Nat.le_div_iff_mul_le hg).1 h1
      have hxu : q.low.toNat < g * (lo + (hi - lo)) := by
        rw [Nat.add_sub_cancel' (by omega), Nat.mul_comm]
        exact (Nat.div_lt_iff_lt_mul hg).1 h2
      have hr2 : g * (lo + (hi - lo)) ≤ q.range.toNat := by
        rw [Nat.add_sub_cancel' (by omega)]
        exact (Nat.mul_le_mul_left _ hmax).trans hle
      refine ⟨?_, take_rangeOk hxl hxu (by omega) hr2 hlt q.pos, hpo⟩
      have := (List.getElem?_eq_some_iff.1 hhi).1
      simp only [Config.ovfNsym]
      omega
    · cases h

/-- The overflow count (R136): it fits, R140 is kept, the position only moves forward. -/
theorem rcOverflow_ok {p : Config} (hp : p.Legal) {v : View} (hv : ViewShort v) {k : Nat} : ∀ {fuel ovf : Nat}
    {r r' : RangeState} {n : Nat}, RangeOk r → rcOverflow p v k fuel ovf r = .ok (n, r') →
    n * 2 ^ k < 2 ^ 32 ∧ RangeOk r' ∧ r.pos.toNat ≤ r'.pos.toNat
  | 0, _, _, _, _, _, h => by cases h
  | fuel + 1, ovf, r, r', n, hr, h => by
    obtain ⟨⟨y, q⟩, hq, h⟩ := bind_ok h
    obtain ⟨-, hro, hpo⟩ := rcSym_ok hp hv hr hq
    simp only at h
    split at h
    · cases h
    · split at h
      · obtain ⟨h1, h2, h3⟩ := rcOverflow_ok hp hv hro h
        exact ⟨h1, h2, hpo.trans h3⟩
      · simp only [Except.ok.injEq, Prod.mk.injEq] at h
        obtain ⟨rfl, rfl⟩ := h
        exact ⟨by omega, hro, hpo⟩

/-- The refinement bits (R136). -/
theorem rcRefine_ok {v : View} (hv : ViewShort v) {k x : Nat} {r r' : RangeState} (hk : k ≤ 31) (hr : RangeOk r)
    (h : rcRefine v k r = .ok (x, r')) : x < 2 ^ k ∧ RangeOk r' ∧ r.pos.toNat ≤ r'.pos.toNat := by
  unfold rcRefine at h
  split at h
  · simp only [Except.ok.injEq, Prod.mk.injEq] at h
    obtain ⟨rfl, rfl⟩ := h
    exact ⟨Nat.two_pow_pos _, hr, Nat.le_refl _⟩
  · split at h
    · exact rcBits_ok hv ‹_› hr h
    · obtain ⟨⟨lo, q⟩, hq, h⟩ := bind_ok h
      obtain ⟨⟨hi, q'⟩, hq', h⟩ := bind_ok h
      obtain ⟨h1, h2, h3⟩ := rcBits_ok hv (Nat.le_refl _) hr hq
      obtain ⟨h4, h5, h6⟩ := rcBits_ok hv (by omega) h2 hq'
      simp only [Except.ok.injEq, Prod.mk.injEq] at h
      obtain ⟨rfl, rfl⟩ := h
      refine ⟨?_, h5, h3.trans h6⟩
      have hkk : 2 ^ k = 2 ^ (k - 16) * 2 ^ 16 := by rw [← Nat.pow_add]; congr 1; omega
      have : (hi + 1) * 2 ^ 16 ≤ 2 ^ (k - 16) * 2 ^ 16 := Nat.mul_le_mul_right _ h4
      rw [hkk]
      omega

/-- `RcValue(k)` (R136): the value is a `u32`, R140 is kept, the position only moves forward. -/
theorem rcValue_ok {p : Config} (hp : p.Legal) {v : View} (hv : ViewShort v) {k x : Nat} {r r' : RangeState}
    (hk : k ≤ 31) (hr : RangeOk r) (h : rcValue p v k r = .ok (x, r')) :
    x < 2 ^ 32 ∧ RangeOk r' ∧ r.pos.toNat ≤ r'.pos.toNat := by
  obtain ⟨⟨ovf, q⟩, hq, h⟩ := bind_ok h
  obtain ⟨⟨bits, q'⟩, hq', h⟩ := bind_ok h
  obtain ⟨h1, h2, h3⟩ := rcOverflow_ok hp hv hr hq
  obtain ⟨h4, h5, h6⟩ := rcRefine_ok hv hk h2 hq'
  simp only [Except.ok.injEq, Prod.mk.injEq] at h
  obtain ⟨rfl, rfl⟩ := h
  refine ⟨?_, h5, h3.trans h6⟩
  have h32 : (2 : Nat) ^ 32 = 2 ^ (32 - k) * 2 ^ k := by rw [← Nat.pow_add]; congr 1; omega
  rw [h32] at h1 ⊢
  have h7 : ovf < 2 ^ (32 - k) := Nat.lt_of_mul_lt_mul_right h1
  have : (ovf + 1) * 2 ^ k ≤ 2 ^ (32 - k) * 2 ^ k := Nat.mul_le_mul_right _ h7
  rw [Nat.add_mul] at this
  omega

/-- The adapted `K` stays in `0..K_MAX` (R32, R139). -/
theorem adapt_le {kMax k x : Nat} (h : k ≤ kMax) : adapt kMax k x ≤ kMax := by
  unfold adapt
  split
  · exact Nat.min_le_right _ _
  · split <;> omega

/-- `RcInit()` leaves a range of `2^7` and a smaller code (R132, R140). -/
theorem rcInit_rangeOk {v : View} {r r' : RangeState} (h : rcInit v r = .ok r') : RangeOk r' := by
  obtain ⟨⟨b, q⟩, -, h⟩ := bind_ok h
  cases h
  have h7 : b % 2 ^ 7 < 2 ^ 7 := Nat.mod_lt _ (Nat.two_pow_pos 7)
  show (natWord _).toNat < (natWord _).toNat ∧ _ ≤ (natWord _).toNat
  rw [natWord_toNat_of_lt (by omega), natWord_toNat_of_lt (by omega)]
  omega

/-- `EntRes(c)` (R137), once its value is known. -/
theorem entRes_ok {c x : Nat} {f : Int} {s t : State} (h : entRes c s = .ok (x, f, t)) :
    ∃ r, rcValue s.cfg s.view (s.chan (kIndex s.cfg c)).k s.rc = .ok (x, r) ∧ f = fold x ∧
      t = { s with rc := r }.setK (kIndex s.cfg c) (adapt s.cfg.kMax (s.chan (kIndex s.cfg c)).k x) := by
  obtain ⟨⟨v, r⟩, hv, h⟩ := bind_ok h
  simp only [Except.ok.injEq, Prod.mk.injEq] at h
  obtain ⟨rfl, rfl, rfl⟩ := h
  exact ⟨r, hv, rfl, rfl⟩

end Sys2Proof.Machine
end

