-- ==== Sys2Proof/Laws/Frame.lean ====
section
/-! SUPPORT. What the pieces of an operation change, and what `FRAME_START` needs to complete (40_frame_control.md). -/

namespace Sys2Proof.Machine

/-- `t` differs from `s` in the range decoder's registers, the two channels and the words of `OUT` at most. -/
structure OnlyDecode (s t : State) : Prop where
  eq : t = { s with rc := t.rc, ch0 := t.ch0, ch1 := t.ch1, out := t.out }
  epoch : t.out.epoch = s.out.epoch

namespace OnlyDecode

variable {s t u : State}

theorem refl (s : State) : OnlyDecode s s := ⟨rfl, rfl⟩

theorem trans (h : OnlyDecode s t) (g : OnlyDecode t u) : OnlyDecode s u :=
  ⟨by rw [g.eq, h.eq], g.epoch.trans h.epoch⟩

theorem phase (h : OnlyDecode s t) : t.phase = s.phase := by rw [h.eq]

theorem errCode (h : OnlyDecode s t) : t.errCode = s.errCode := by rw [h.eq]

theorem errInfo (h : OnlyDecode s t) : t.errInfo = s.errInfo := by rw [h.eq]

theorem silent (h : OnlyDecode s t) : t.silent = s.silent := by rw [h.eq]

theorem fstereo (h : OnlyDecode s t) : t.fstereo = s.fstereo := by rw [h.eq]

theorem rcInit (h : OnlyDecode s t) : t.rcInit = s.rcInit := by rw [h.eq]

theorem regs (h : OnlyDecode s t) : t.regs = s.regs := by rw [h.eq]

theorem frameFlags (h : OnlyDecode s t) : t.frameFlags = s.frameFlags := by rw [h.eq]

theorem bidx (h : OnlyDecode s t) : t.bidx = s.bidx := by rw [h.eq]

theorem win (h : OnlyDecode s t) : t.win = s.win := by rw [h.eq]

theorem cfg (h : OnlyDecode s t) : t.cfg = s.cfg := by rw [h.eq]

theorem draws (h : OnlyDecode s t) : t.draws = s.draws := by rw [h.eq]

theorem view (h : OnlyDecode s t) : t.view = s.view := by rw [State.view, h.win, h.regs, State.view]

theorem row (h : OnlyDecode s t) : t.row = s.row := by rw [State.row, h.cfg, h.regs, State.row]

theorem nch (h : OnlyDecode s t) : t.nch = s.nch := by rw [State.nch, h.regs, State.nch]

theorem ncoded (h : OnlyDecode s t) : t.ncoded = s.ncoded := by rw [State.ncoded, h.regs, h.fstereo, State.ncoded]

theorem nstages (h : OnlyDecode s t) : t.nstages = s.nstages := by rw [State.nstages, h.row, State.nstages]

end OnlyDecode

theorem onlyDecode_setChan (s : State) (c : Nat) (ch : Chan) : OnlyDecode s (s.setChan c ch) := by
  unfold State.setChan; split <;> exact ⟨rfl, rfl⟩

theorem onlyDecode_writeOut (s : State) (i : Nat) (v : Word) : OnlyDecode s (s.writeOut i v) := ⟨rfl, rfl⟩

theorem onlyDecode_rc (s : State) (r : RangeState) : OnlyDecode s { s with rc := r } := ⟨rfl, rfl⟩

theorem onlyDecode_entRes {c x : Nat} {f : Int} {s t : State} (h : entRes c s = .ok (x, f, t)) : OnlyDecode s t := by
  obtain ⟨r, -, -, rfl⟩ := entRes_ok h
  exact (onlyDecode_rc s r).trans (onlyDecode_setChan _ _ _)

theorem onlyDecode_nnfStep {st c : Nat} {x y : Word} {s t : State} (h : nnfStep st c x s = .ok (y, t)) :
    OnlyDecode s t := by
  obtain ⟨q', -, rfl⟩ := nnfStep_ok h
  exact onlyDecode_setChan _ _ _

theorem onlyDecode_predStep {c : Nat} {y z : Word} {s t : State} (h : predStep c y s = .ok (z, t)) :
    OnlyDecode s t := by
  obtain ⟨q', -, rfl⟩ := predStep_ok h
  exact onlyDecode_setChan _ _ _

/-- The cascade of `m` stages changes one channel's bank and nothing else; `OUT` is not touched. -/
theorem onlyDecode_cascade {c : Nat} {x y : Word} {s t : State} {m : Nat} (h : cascade c x s m = .ok (y, t)) :
    OnlyDecode s t := by
  induction m generalizing y t with
  | zero => cases h; exact .refl s
  | succ m ih =>
    obtain ⟨⟨y', t'⟩, ha, hb⟩ := bind_ok h
    exact (ih ha).trans (onlyDecode_nnfStep hb)

theorem entropyChannel_ok {b c : Nat} {s t : State} (h : entropyChannel b c s = .ok t) :
    ∃ x f u, entRes c s = .ok (x, f, u) ∧ t = u.writeOut (b * u.nch + c) (toWord f) := by
  obtain ⟨⟨x, f, u⟩, hu, h⟩ := bind_ok h
  simp only [Except.ok.injEq] at h
  exact ⟨x, f, u, hu, h.symm⟩

theorem filterBlock_ok {c b : Nat} {s t : State} (h : filterBlock c b s = .ok t) :
    ∃ x u z u', cascade c (outWord s.out (b * s.nch + c)) s s.nstages = .ok (x, u) ∧ predStep c x u = .ok (z, u') ∧
      t = u'.writeOut (b * u'.nch + c) z := by
  obtain ⟨⟨x, u⟩, hu, h⟩ := bind_ok h
  obtain ⟨⟨z, u'⟩, hu', h⟩ := bind_ok h
  simp only [Except.ok.injEq] at h
  exact ⟨x, u, z, u', hu, hu', h.symm⟩

/-- What the stereo stage does to block `b` in each of its three cases (R117 step 6, R202). -/
theorem stereoBlock_ok {b : Nat} {s t : State} (h : stereoBlock b s = .ok t) :
    (s.nch ≠ 2 ∧ t = s) ∨ (s.nch = 2 ∧ s.fstereo = true ∧ t = s.writeOut (2 * b + 1) (outWord s.out (2 * b))) ∨
      (s.nch = 2 ∧ s.fstereo = false ∧ ∃ l r, stereo (outWord s.out (2 * b)) (outWord s.out (2 * b + 1)) = .ok (l, r) ∧
        t = (s.writeOut (2 * b) l).writeOut (2 * b + 1) r) := by
  unfold stereoBlock at h
  split at h
  · split at h
    · cases h; exact .inr (.inl ⟨‹_›, ‹_›, rfl⟩)
    · rename_i h2 hf
      obtain ⟨⟨l, r⟩, hlr, h⟩ := bind_ok h
      simp only [Except.ok.injEq] at h
      exact .inr (.inr ⟨h2, by simpa using hf, l, r, hlr, h.symm⟩)
  · cases h; exact .inl ⟨‹_›, rfl⟩

/-- A header word read: both its bounds and its value (R115). -/
theorem headerWord_ok {v : View} {p : Nat} {w : Word} (h : headerWord v p = .ok w) :
    streamDefined v p 32 = true ∧ w = natWord (streamBits v p 32) := by
  unfold headerWord at h
  split at h
  · cases h; exact ⟨‹_›, rfl⟩
  · cases h

/-- `ReadHeader()` that completes (R115). -/
theorem readHeader_ok {s t : State} (h : readHeader s = .ok t) :
    ∃ crc f, headerWord s.view s.regs.startBit.toNat = .ok crc ∧
      headerWord s.view (s.regs.startBit.toNat + 32) = .ok f ∧ runChecks (flagChecks s f) = .ok () ∧
      t = { s with
        rc := { s.rc with pos := natWord (s.regs.startBit.toNat + 64) }
        frameCrc := crc
        frameFlags := f
        fstereo := flagFalseStereo f
        silent := flagSilence f != 0 } := by
  obtain ⟨crc, hc, h⟩ := bind_ok h
  obtain ⟨f, hf, h⟩ := bind_ok h
  obtain ⟨⟨⟩, hk, h⟩ := bind_ok h
  cases h
  exact ⟨crc, f, hc, hf, hk, rfl⟩

/-- `FRAME_START` that completes: both lists of checks passed, the header was read from the cleared state, and the range
decoder started unless the frame is silent (R116). -/
theorem frameStart_ok {s t : State} (h : frameStart s = .ok t) :
    runChecks (streamChecks s) = .ok () ∧ runChecks (frameChecks s) = .ok () ∧
      ∃ u, readHeader (clearFrameState s) = .ok u ∧
        ((u.silent = true ∧ t = { u with phase := .opened }) ∨
          (u.silent = false ∧ ∃ r, rcInit u.view u.rc = .ok r ∧
            t = { u with rc := r, rcInit := true, phase := .opened })) := by
  obtain ⟨⟨⟩, h1, h⟩ := bind_ok h
  obtain ⟨⟨⟩, h2, h⟩ := bind_ok h
  obtain ⟨u, hu, h⟩ := bind_ok h
  refine ⟨h1, h2, u, hu, ?_⟩
  simp only at h
  split at h
  · cases h; exact .inl ⟨‹_›, rfl⟩
  · rename_i hs
    obtain ⟨u', hu', h⟩ := bind_ok h
    obtain ⟨r, hr, hu'⟩ := bind_ok hu'
    cases hu'
    cases h
    exact .inr ⟨by simpa using hs, r, hr, rfl⟩

/-- `FRAME` that completes: `FRAME_START`, the body, the end (R117). -/
theorem opFrame_ok {s t : State} (h : opFrame s = .ok t) :
    ∃ a b, frameStart s = .ok a ∧ frameBody a = .ok b ∧ t = { b with bidx := b.regs.nblocks, phase := .done } := by
  obtain ⟨a, ha, h⟩ := bind_ok h
  obtain ⟨b, hb, h⟩ := bind_ok h
  cases h
  exact ⟨a, b, ha, hb, rfl⟩

/-- The three passes of `FRAME` over a frame that is not silent (R117 steps 4 to 6). -/
theorem frameBody_ok {s t : State} (hs : s.silent = false) (h : frameBody s = .ok t) :
    ∃ a b, forUpTo s.regs.nblocks.toNat entropyBlock s = .ok a ∧
      forUpTo a.ncoded (filterChannel s.regs.nblocks.toNat) a = .ok b ∧
      forUpTo s.regs.nblocks.toNat stereoBlock b = .ok t := by
  unfold frameBody at h
  simp only [hs, Bool.false_eq_true, if_false] at h
  obtain ⟨a, ha, h⟩ := bind_ok h
  obtain ⟨b, hb, h⟩ := bind_ok h
  exact ⟨a, b, ha, hb, h⟩

/-- A counted loop of iterations that change only the decode state does so as a whole. -/
theorem onlyDecode_forUpTo {f : Nat → State → Except Err State} {n : Nat} {s t : State} (h : forUpTo n f s = .ok t)
    (hf : ∀ i < n, ∀ a b, f i a = .ok b → OnlyDecode a b) : OnlyDecode s t :=
  forUpTo_induct (fun _ => OnlyDecode s) h (.refl s) fun i hi a b ha hb => ha.trans (hf i hi a b hb)

theorem onlyDecode_entropyChannel {b c : Nat} {s t : State} (h : entropyChannel b c s = .ok t) : OnlyDecode s t := by
  obtain ⟨x, f, u, hu, rfl⟩ := entropyChannel_ok h
  exact (onlyDecode_entRes hu).trans (onlyDecode_writeOut _ _ _)

theorem onlyDecode_filterBlock {c b : Nat} {s t : State} (h : filterBlock c b s = .ok t) : OnlyDecode s t := by
  obtain ⟨x, u, z, u', h1, h2, rfl⟩ := filterBlock_ok h
  exact ((onlyDecode_cascade h1).trans (onlyDecode_predStep h2)).trans (onlyDecode_writeOut _ _ _)

theorem onlyDecode_stereoBlock {b : Nat} {s t : State} (h : stereoBlock b s = .ok t) : OnlyDecode s t := by
  rcases stereoBlock_ok h with ⟨-, rfl⟩ | ⟨-, -, rfl⟩ | ⟨-, -, l, r, -, rfl⟩
  · exact .refl t
  · exact onlyDecode_writeOut _ _ _
  · exact (onlyDecode_writeOut _ _ _).trans (onlyDecode_writeOut _ _ _)

/-- The body of `FRAME` changes only the decode state. -/
theorem onlyDecode_frameBody {s t : State} (h : frameBody s = .ok t) : OnlyDecode s t := by
  cases hs : s.silent with
  | true =>
    unfold frameBody at h
    simp only [hs, if_true] at h
    refine onlyDecode_forUpTo h fun i _ a b hb => ?_
    cases hb
    exact onlyDecode_writeOut _ _ _
  | false =>
    obtain ⟨a, b, h1, h2, h3⟩ := frameBody_ok hs h
    refine ((onlyDecode_forUpTo h1 fun i _ a b hb => ?_).trans (onlyDecode_forUpTo h2 fun i _ a b hb => ?_)).trans
      (onlyDecode_forUpTo h3 fun i _ a b hb => onlyDecode_stereoBlock hb)
    · exact onlyDecode_forUpTo hb fun j _ a b hb => onlyDecode_entropyChannel hb
    · exact onlyDecode_forUpTo hb fun j _ a b hb => onlyDecode_filterBlock hb

end Sys2Proof.Machine
end

