-- ==== Sys2Proof/Laws/Invariant.lean ====
section
/-! SUPPORT. The parts of a step keep the invariant `State.Inv`, one lemma for each. -/

namespace Sys2Proof.Machine

/-! ## The memories -/

theorem memoryOk_writeOut {s : State} (h : MemoryOk s) {i : Nat} (hi : i < s.cfg.outCap) (v : Word) :
    MemoryOk (s.writeOut i v) := by
  obtain ⟨h1, h2, h3, h4, h5, h6⟩ := h
  exact ⟨h1, h2, h3, write_wf i v h4, write_bound v hi h5, h6⟩

theorem memoryOk_raise {s : State} (h : MemoryOk s) (e : Err) : MemoryOk (raise e s) := by
  obtain ⟨h1, h2, h3, -, -, -⟩ := h
  exact ⟨h1, h2, Nat.lt_succ_of_lt h3, List.Pairwise.nil, fun _ hc => absurd hc List.not_mem_nil, Nat.lt_succ_self _⟩

theorem memoryOk_hardReset (s : State) : MemoryOk (hardReset s) :=
  ⟨List.Pairwise.nil, fun _ hc => absurd hc List.not_mem_nil, Nat.lt_succ_self _,
    List.Pairwise.nil, fun _ hc => absurd hc List.not_mem_nil, Nat.lt_succ_self _⟩

/-- A host write to `WIN` keeps the canonical form and the capacity (R60). -/
theorem memoryOk_writeWin {s : State} (h : MemoryOk s) {q : Nat} (hq : 4 * q + 3 < s.cfg.winCap) (v : Word) :
    MemoryOk (writeWin s q v) := by
  obtain ⟨h1, h2, h3, h4⟩ := h
  unfold writeWin
  split
  · have h0 : 4 * q < s.cfg.winCap ∧ 4 * q + 1 < s.cfg.winCap ∧ 4 * q + 2 < s.cfg.winCap := by omega
    refine ⟨write_wf _ _ (write_wf _ _ (write_wf _ _ (write_wf _ _ h1))), ?_, h3, h4⟩
    exact write_bound _ hq (write_bound _ h0.2.2 (write_bound _ h0.2.1 (write_bound _ h0.1 h2)))
  · exact ⟨h1, h2, h3, h4⟩

/-! ## Error entry and the resets -/

theorem inv_raise {s : State} (h : s.Inv) (e : Err) (he : e.kind ≠ .none) (hio : e.kind ≠ .io) : (raise e s).Inv := by
  obtain ⟨h1, h2, -, -, -, -⟩ := h
  refine ⟨h1, memoryOk_raise h2 e, ⟨?_, hio, fun h => absurd h he⟩, chanOk_freeChan _ s 0, chanOk_freeChan _ s 1, ?_⟩
  · exact ⟨fun _ => he, fun _ => rfl⟩
  · intro h; cases h

theorem inv_softReset {s : State} (h : s.Inv) : (softReset s).Inv := by
  obtain ⟨h1, h2, -, -, -, -⟩ := h
  refine ⟨h1, h2, ⟨?_, ?_, fun _ => rfl⟩, chanOk_clearChan s (Nat.zero_le _), chanOk_clearChan s (Nat.zero_le _), ?_⟩
  · exact ⟨fun h => Phase.noConfusion h, fun h => absurd rfl h⟩
  · intro h; cases h
  · intro h; cases h

theorem inv_hardReset {s : State} (h : s.Inv) : (hardReset s).Inv := by
  obtain ⟨h1, -, -, -, -, -⟩ := h
  refine ⟨h1, memoryOk_hardReset s, ⟨?_, ?_, fun _ => rfl⟩, ?_, ?_, ?_⟩
  · exact ⟨fun h => Phase.noConfusion h, fun h => absurd rfl h⟩
  · intro h; cases h
  · exact chanOk_clearChan { s with regs := ConfigRegs.zero } (Nat.zero_le _)
  · exact chanOk_clearChan { s with regs := ConfigRegs.zero } (Nat.zero_le _)
  · intro h; cases h

/-- The model's own fields `bus` and `readData` stand in no part of the invariant, and the counter may rise. -/
theorem inv_own_fields {s : State} (h : s.Inv) (bus : List BusReq) (d : Word) {n : Nat} (hn : s.draws ≤ n) :
    State.Inv { s with bus := bus, readData := d, draws := n } := by
  obtain ⟨h1, ⟨m1, m2, m3, m4, m5, m6⟩, h3⟩ := h
  exact ⟨h1, ⟨m1, m2, Nat.lt_of_lt_of_le m3 hn, m4, m5, Nat.lt_of_lt_of_le m6 hn⟩, h3⟩

/-! ## Host writes -/

theorem inv_writeReg {s : State} (h : s.Inv) (r : Reg) (v : Word) : (writeReg s r v).Inv := by
  obtain ⟨h1, h2, h3, h4, h5, h6⟩ := h
  unfold writeReg
  split
  · rename_i hw
    refine ⟨h1, h2, h3, h4, h5, fun ho => ?_⟩
    simp only at ho
    simp [configWritable, ho] at hw
  · split
    · exact ⟨h1, h2, h3, h4, h5, h6⟩
    · split
      · exact ⟨h1, h2, h3, h4, h5, h6⟩
      · exact ⟨h1, h2, h3, h4, h5, h6⟩

theorem inv_writeWin {s : State} (h : s.Inv) {q : Nat} (hq : 4 * q + 3 < s.cfg.winCap) (v : Word) :
    (writeWin s q v).Inv := by
  have hm := memoryOk_writeWin h.2.1 hq v
  obtain ⟨h1, -, h3, h4, h5, h6⟩ := h
  unfold writeWin at hm ⊢
  split
  · rename_i hw
    rw [if_pos hw] at hm
    exact ⟨h1, hm, h3, h4, h5, h6⟩
  · rename_i hw
    rw [if_neg hw] at hm
    exact ⟨h1, hm, h3, h4, h5, h6⟩

/-! ## The operations of an open frame -/

/-- The invariant of an open frame, in the form the pieces of an operation carry it. -/
abbrev OpenInv (s : State) : Prop := s.Inv ∧ s.phase = .opened

theorem viewShort_of_open {s : State} (h : OpenInv s) : ViewShort s.view := by
  obtain ⟨⟨hp, -, -, -, -, ho⟩, hph⟩ := h
  have hv : s.regs.winLen.toNat ≤ s.cfg.winCap := (ho hph).1.2.2.2.2.2.2.2.2.2.2.2.2.1
  have hc := hp.winCap_lt
  show s.regs.winLen.toNat ≤ 2 ^ 28
  omega

theorem rangeOk_of_open {s : State} (h : OpenInv s) (hr : s.rcInit = true) : RangeOk s.rc :=
  (h.1.2.2.2.2.2 h.2).2.2.2.2.2.2 hr

/-- New range decoder registers that meet R140 keep the invariant. -/
theorem openInv_rc {s : State} (h : OpenInv s) {r : RangeState} (hr : RangeOk r) : OpenInv { s with rc := r } := by
  obtain ⟨⟨h1, h2, h3, h4, h5, h6⟩, hp⟩ := h
  obtain ⟨o1, o2, o3, o4, o5, o6, -⟩ := h6 hp
  exact ⟨⟨h1, h2, h3, h4, h5, fun _ => ⟨o1, o2, o3, o4, o5, o6, fun _ => hr⟩⟩, hp⟩

/-- A channel of the right shape keeps the invariant. -/
theorem openInv_setChan {s : State} (h : OpenInv s) {c : Nat} {ch : Chan} (hc : ChanOk s.cfg ch)
    (hb : BankOk s.row ch) : OpenInv (s.setChan c ch) := by
  obtain ⟨⟨h1, h2, h3, h4, h5, h6⟩, hp⟩ := h
  obtain ⟨o1, o2, o3, o4, o5, o6, o7⟩ := h6 hp
  unfold State.setChan
  split
  · exact ⟨⟨h1, h2, h3, hc, h5, fun _ => ⟨o1, o2, hb, o4, o5, o6, o7⟩⟩, hp⟩
  · exact ⟨⟨h1, h2, h3, h4, hc, fun _ => ⟨o1, o2, o3, hb, o5, o6, o7⟩⟩, hp⟩

theorem chanOk_of_open {s : State} (h : OpenInv s) (c : Nat) : ChanOk s.cfg (s.chan c) ∧ BankOk s.row (s.chan c) := by
  obtain ⟨⟨-, -, -, h4, h5, h6⟩, hp⟩ := h
  obtain ⟨-, -, o3, o4, -⟩ := h6 hp
  unfold State.chan
  split
  · exact ⟨h4, o3⟩
  · exact ⟨h5, o4⟩

theorem openInv_setSample {s : State} (h : OpenInv s) (c : Nat) (v : Word) : OpenInv (s.setSample c v) := by
  obtain ⟨hc, hb⟩ := chanOk_of_open h c
  exact openInv_setChan h hc hb

theorem openInv_setK {s : State} (h : OpenInv s) (e : Nat) {k : Nat} (hk : k ≤ s.cfg.kMax) : OpenInv (s.setK e k) := by
  obtain ⟨hc, hb⟩ := chanOk_of_open h e
  exact openInv_setChan h ⟨hk, hc.2⟩ hb

theorem openInv_writeOut {s : State} (h : OpenInv s) {i : Nat} (hi : i < s.cfg.outCap) (v : Word) :
    OpenInv (s.writeOut i v) := by
  have hm := memoryOk_writeOut h.1.2.1 hi v
  obtain ⟨⟨h1, -, h3⟩, hp⟩ := h
  exact ⟨⟨h1, hm, h3⟩, hp⟩

theorem openInv_res {s : State} (h : OpenInv s) (v : Word) : OpenInv { s with res := v } := h

/-- `EntRes` keeps the invariant (R32, R140). -/
theorem openInv_entRes {s t : State} (h : OpenInv s) (hr : s.rcInit = true) {c x : Nat} {f : Int}
    (he : entRes c s = .ok (x, f, t)) : OpenInv t := by
  obtain ⟨r, hv, -, rfl⟩ := entRes_ok he
  have hk := (chanOk_of_open h (kIndex s.cfg c)).1.1
  have hro := (rcValue_ok h.1.1 (viewShort_of_open h) (hk.trans h.1.1.kMax_le) (rangeOk_of_open h hr) hv).2.1
  exact openInv_setK (openInv_rc h hro) _ (adapt_le hk)

/-- `NnfStep` of a stage that exists keeps the invariant (R33). -/
theorem openInv_nnfStep {s t : State} (h : OpenInv s) {st c : Nat} {x y : Word} (hst : st < s.nstages)
    (he : nnfStep st c x s = .ok (y, t)) : OpenInv t := by
  obtain ⟨q', hq, rfl⟩ := nnfStep_ok he
  obtain ⟨hc, hb⟩ := chanOk_of_open h c
  have hg : s.row[st]? = some s.row[st] := List.getElem?_eq_getElem hst
  obtain ⟨q, hget, hh, hw⟩ := bankOk_get hb hg
  rw [hg, hget] at hq
  obtain ⟨h1, h2⟩ := nnfStage_lengths hq hh hw
  exact openInv_setChan h hc (bankOk_set hb hg h1 h2)

/-- `PredStep` keeps the invariant (R34). -/
theorem openInv_predStep {s t : State} (h : OpenInv s) {c : Nat} {y z : Word} (he : predStep c y s = .ok (z, t)) :
    OpenInv t := by
  obtain ⟨q', hq, rfl⟩ := predStep_ok he
  obtain ⟨⟨hk, ha, hb, hy, hz⟩, hbank⟩ := chanOk_of_open h c
  exact openInv_setChan h ⟨hk, predStage_lengths hq ha hb hy hz⟩ hbank

/-- The cascade keeps the invariant. -/
theorem openInv_cascade {s t : State} (h : OpenInv s) {c : Nat} {x y : Word} {m : Nat} (hm : m ≤ s.nstages)
    (he : cascade c x s m = .ok (y, t)) : OpenInv t := by
  induction m generalizing y t with
  | zero => cases he; exact h
  | succ m ih =>
    obtain ⟨⟨y', t'⟩, ha, hb⟩ := bind_ok he
    have ho := onlyDecode_cascade ha
    exact openInv_nnfStep (ih (by omega) ha) (by rw [ho.nstages]; omega) hb

/-- The word of block `b`, channel `c` is inside `OUT` (R23, R113 check 4). -/
theorem out_index {s : State} (h : OpenInv s) {b c : Nat} (hb : b < s.regs.nblocks.toNat) (hc : c < s.nch) :
    b * s.nch + c < s.cfg.outCap := by
  have hv : s.regs.nblocks.toNat * s.regs.channels.toNat ≤ s.cfg.outCap :=
    (h.1.2.2.2.2.2 h.2).1.2.2.2.2.2.2.2.2.2.2.2.2.2.1
  have : (b + 1) * s.nch ≤ s.regs.nblocks.toNat * s.nch := Nat.mul_le_mul_right _ hb
  rw [Nat.add_mul] at this
  simp only [State.nch] at *
  omega

theorem ncoded_le_nch {s : State} (h : OpenInv s) : s.ncoded ≤ s.nch := by
  have hv := (h.1.2.2.2.2.2 h.2).1.2.1
  rcases hv with hv | hv <;> simp [State.ncoded, State.nch, codedChannels, hv]
  split <;> simp

/-! ## The passes of `FRAME` -/

/-- One word of step 4 of `FRAME` keeps the invariant. -/
theorem openInv_entropyChannel {s t : State} (h : OpenInv s) (hr : s.rcInit = true) {b c : Nat}
    (hb : b < s.regs.nblocks.toNat) (hc : c < s.ncoded) (he : entropyChannel b c s = .ok t) : OpenInv t := by
  obtain ⟨x, f, u, hu, rfl⟩ := entropyChannel_ok he
  have ho := onlyDecode_entRes hu
  refine openInv_writeOut (openInv_entRes h hr hu) ?_ _
  rw [ho.nch, ho.cfg]
  exact out_index h hb (Nat.lt_of_lt_of_le hc (ncoded_le_nch h))

/-- One iteration of step 5 of `FRAME` keeps the invariant. -/
theorem openInv_filterBlock {s t : State} (h : OpenInv s) {b c : Nat} (hb : b < s.regs.nblocks.toNat)
    (hc : c < s.ncoded) (he : filterBlock c b s = .ok t) : OpenInv t := by
  obtain ⟨x, u, z, u', h1, h2, rfl⟩ := filterBlock_ok he
  have ho := (onlyDecode_cascade h1).trans (onlyDecode_predStep h2)
  refine openInv_writeOut (openInv_predStep (openInv_cascade h (Nat.le_refl _) h1) h2) ?_ _
  rw [ho.nch, ho.cfg]
  exact out_index h hb (Nat.lt_of_lt_of_le hc (ncoded_le_nch h))

/-- One iteration of step 6 of `FRAME` keeps the invariant. -/
theorem openInv_stereoBlock {s t : State} (h : OpenInv s) {b : Nat} (hb : b < s.regs.nblocks.toNat)
    (he : stereoBlock b s = .ok t) : OpenInv t := by
  rcases stereoBlock_ok he with ⟨-, rfl⟩ | ⟨hn, -, rfl⟩ | ⟨hn, -, l, r, -, rfl⟩
  · exact h
  · have := out_index h hb (c := 1) (by omega)
    exact openInv_writeOut h (by rw [hn] at this; omega) _
  · have := out_index h hb (c := 1) (by omega)
    rw [hn] at this
    exact openInv_writeOut (openInv_writeOut h (by omega) _) (by simp only [writeOut_cfg]; omega) _

/-- A loop over the blocks or channels keeps the invariant when each iteration does. -/
theorem openInv_forUpTo {f : Nat → State → Except Err State} {n : Nat} {s t : State} (h : OpenInv s)
    (he : forUpTo n f s = .ok t)
    (hf : ∀ i < n, ∀ a b, OpenInv a → OnlyDecode s a → f i a = .ok b → OpenInv b ∧ OnlyDecode a b) : OpenInv t :=
  (forUpTo_induct (fun _ a => OpenInv a ∧ OnlyDecode s a) he ⟨h, .refl s⟩ fun i hi a b ha hb =>
    have hk := hf i hi a b ha.1 ha.2 hb
    ⟨hk.1, ha.2.trans hk.2⟩).1

/-- The body of `FRAME` keeps the invariant. -/
theorem openInv_frameBody {s t : State} (h : OpenInv s) (he : frameBody s = .ok t) : OpenInv t := by
  cases hs : s.silent with
  | true =>
    unfold frameBody at he
    simp only [hs, if_true] at he
    refine openInv_forUpTo h he fun i hi a b ha ho hb => ?_
    cases hb
    refine ⟨openInv_writeOut ha ?_ _, onlyDecode_writeOut _ _ _⟩
    rw [ho.cfg]
    have : s.regs.nblocks.toNat * s.regs.channels.toNat ≤ s.cfg.outCap :=
      (h.1.2.2.2.2.2 h.2).1.2.2.2.2.2.2.2.2.2.2.2.2.2.1
    exact Nat.lt_of_lt_of_le hi this
  | false =>
    have hr : s.rcInit = true := by
      have := (h.1.2.2.2.2.2 h.2).2.2.2.2.2.1
      simp [this, hs]
    obtain ⟨a, b, h1, h2, h3⟩ := frameBody_ok hs he
    have ho1 : OnlyDecode s a := onlyDecode_forUpTo h1 fun i _ a b hb =>
      onlyDecode_forUpTo hb fun j _ a b hb => onlyDecode_entropyChannel hb
    have ho2 : OnlyDecode a b := onlyDecode_forUpTo h2 fun i _ a b hb =>
      onlyDecode_forUpTo hb fun j _ a b hb => onlyDecode_filterBlock hb
    have k1 : OpenInv a := openInv_forUpTo h h1 fun i hi a b ha ho hb =>
      ⟨openInv_forUpTo ha hb fun j hj a' b' ha' ho' hb' =>
          ⟨openInv_entropyChannel ha' (by rw [ho'.rcInit, ho.rcInit, hr]) (by rw [ho'.regs, ho.regs]; exact hi)
            (by rw [ho'.ncoded]; exact hj) hb', onlyDecode_entropyChannel hb'⟩,
        onlyDecode_forUpTo hb fun j _ a b hb => onlyDecode_entropyChannel hb⟩
    have k2 : OpenInv b := openInv_forUpTo k1 h2 fun i hi a' b' ha ho hb =>
      ⟨openInv_forUpTo ha hb fun j hj a'' b'' ha' ho' hb' =>
          ⟨openInv_filterBlock ha' (by rw [ho'.regs, ho.regs, ho1.regs]; exact hj)
            (by rw [ho'.ncoded, ho.ncoded]; exact hi) hb', onlyDecode_filterBlock hb'⟩,
        onlyDecode_forUpTo hb fun j _ a b hb => onlyDecode_filterBlock hb⟩
    exact openInv_forUpTo k2 h3 fun i hi a' b' ha ho hb =>
      ⟨openInv_stereoBlock ha (by rw [ho.regs, ho2.regs, ho1.regs]; exact hi) hb, onlyDecode_stereoBlock hb⟩

/-! ## `FRAME_START` -/

/-- Passing the thirteen checks is the validated configuration (R112, R113). -/
theorem validated_of_checks {s : State} (h1 : runChecks (streamChecks s) = .ok ())
    (h2 : runChecks (frameChecks s) = .ok ()) : Validated s := by
  rw [runChecks_ok_iff] at h1 h2
  simp only [streamChecks, frameChecks, List.forall_mem_cons, List.not_mem_nil, false_imp_iff, implies_true, and_true,
    decide_eq_false_iff_not, Bool.not_eq_false', Bool.or_eq_true, beq_iff_eq, Bool.or_eq_false_iff, beq_eq_false_iff_ne,
    Option.isNone_eq_false_iff, bne_eq_false_iff_eq] at h1 h2
  obtain ⟨v1, v2, v3, v4, v5, v6, v7, v8⟩ := h1
  obtain ⟨f1, f2, f3, f4, f5⟩ := h2
  have hw : ∀ (x : Word) (n : Nat), n < 2 ^ 32 → x.toNat = n → x = BitVec.ofNat 32 n := fun x n hn h => by
    apply BitVec.eq_of_toNat_eq; simpa using by omega
  refine ⟨by omega, v2.imp (hw _ 1 (by omega)) (hw _ 2 (by omega)), ?_, v4, by omega, by omega, by omega, by omega,
    by omega, by omega, by omega, f2, by omega, by omega, by omega⟩
  rcases v3 with (h | h) | h
  · exact .inl (hw _ 8 (by omega) h)
  · exact .inr (.inl (hw _ 16 (by omega) h))
  · exact .inr (.inr (hw _ 24 (by omega) h))

/-- `FRAME_START` that completes from any state outside `ERR` meets the invariant of an open frame. -/
theorem openInv_frameStart {s t : State} (h : s.Inv) (hp : s.phase ≠ .err) (he : frameStart s = .ok t) : OpenInv t := by
  obtain ⟨c1, c2, u, hu, ht⟩ := frameStart_ok he
  obtain ⟨crc, f, -, -, hk, rfl⟩ := readHeader_ok hu
  have hv := validated_of_checks c1 c2
  obtain ⟨h1, h2, ⟨e1, e2, e3⟩, -⟩ := h
  rw [runChecks_ok_iff] at hk
  simp only [flagChecks, List.forall_mem_cons, List.not_mem_nil, false_imp_iff, implies_true, and_true] at hk
  obtain ⟨k1, k2, k3⟩ := hk
  have hnone : s.errCode = .none := by
    by_contra hc; exact hp (e1.2 hc)
  have herr : ErrorOk { s with phase := .opened } :=
    ⟨⟨fun h => Phase.noConfusion h, fun h => absurd hnone h⟩, e2, e3⟩
  have hkI := h1.kInit_le
  have hst : flagFalseStereo f = true → s.regs.channels = 2 := by
    intro hf
    rcases hv.2.1 with hc | hc
    · simp [hf, clearFrameState, hc] at k2
    · exact hc
  have hsil : (flagSilence f != 0) = true → flagSilence f = 2 ^ codedChannels s.regs.channels (flagFalseStereo f) - 1 := by
    intro h
    rw [h, Bool.true_and] at k3
    simpa [clearFrameState] using k3
  rcases ht with ⟨hs, rfl⟩ | ⟨hs, r, hr, rfl⟩
  · refine ⟨⟨h1, h2, herr, chanOk_clearChan s hkI, chanOk_clearChan s hkI, fun _ => ⟨hv, ⟨k1, rfl, rfl, hst, hsil⟩,
      bankOk_clearChan s _, bankOk_clearChan s _, Nat.zero_le _, ?_, ?_⟩⟩, rfl⟩
    · simp only at hs
      simp [clearFrameState, hs]
    · intro h; cases h
  · refine ⟨⟨h1, h2, herr, chanOk_clearChan s hkI, chanOk_clearChan s hkI, fun _ => ⟨hv, ⟨k1, rfl, rfl, hst, hsil⟩,
      bankOk_clearChan s _, bankOk_clearChan s _, Nat.zero_le _, ?_, fun _ => rcInit_rangeOk hr⟩⟩, rfl⟩
    simp only at hs
    simp [hs]

/-- `FRAME` that completes keeps the invariant; the frame is over. -/
theorem inv_opFrame {s t : State} (h : s.Inv) (hp : s.phase ≠ .err) (he : opFrame s = .ok t) : t.Inv := by
  obtain ⟨a, b, ha, hb, rfl⟩ := opFrame_ok he
  obtain ⟨⟨i1, i2, ⟨e1, e2, e3⟩, i4, i5, -⟩, hph⟩ := openInv_frameBody (openInv_frameStart h hp ha) hb
  refine ⟨i1, i2, ⟨⟨fun h => Phase.noConfusion h, fun h => ?_⟩, e2, e3⟩, i4, i5, fun h => Phase.noConfusion h⟩
  have := e1.2 h
  rw [hph] at this
  cases this

/-! ## The unit operations -/

theorem openInv_opRcInit {s t : State} (h : OpenInv s) (hs : s.silent = false) (he : opRcInit s = .ok t) :
    OpenInv t := by
  obtain ⟨r, hr, he⟩ := bind_ok he
  cases he
  obtain ⟨⟨h1, h2, h3, h4, h5, h6⟩, hp⟩ := h
  obtain ⟨o1, o2, o3, o4, o5, -, -⟩ := h6 hp
  exact ⟨⟨h1, h2, h3, h4, h5, fun _ => ⟨o1, o2, o3, o4, o5, by simp [hs], fun _ => rcInit_rangeOk hr⟩⟩, hp⟩

theorem openInv_opRcNorm {s t : State} (h : OpenInv s) (hr : s.rcInit = true) (he : opRcNorm s = .ok t) :
    OpenInv t := by
  obtain ⟨r, hn, he⟩ := bind_ok he
  cases he
  exact openInv_rc h (rcNorm_rangeOk (viewShort_of_open h) (rangeOk_of_open h hr) hn)

theorem openInv_opRcBits {s t : State} (h : OpenInv s) (hr : s.rcInit = true) {n : Nat} (hn : n ≤ 16)
    (he : opRcBits n s = .ok t) : OpenInv t := by
  obtain ⟨⟨v, r⟩, hv, he⟩ := bind_ok he
  cases he
  exact openInv_res (openInv_rc h (rcBits_ok (viewShort_of_open h) hn (rangeOk_of_open h hr) hv).2.1) _

theorem openInv_opRcSym {s t : State} (h : OpenInv s) (hr : s.rcInit = true) (he : opRcSym s = .ok t) : OpenInv t := by
  obtain ⟨⟨v, r⟩, hv, he⟩ := bind_ok he
  cases he
  exact openInv_res (openInv_rc h (rcSym_ok h.1.1 (viewShort_of_open h) (rangeOk_of_open h hr) hv).2.1) _

theorem openInv_opRcValue {s t : State} (h : OpenInv s) (hr : s.rcInit = true) {k : Nat} (hk : k ≤ s.cfg.kMax)
    (he : opRcValue k s = .ok t) : OpenInv t := by
  obtain ⟨⟨v, r⟩, hv, he⟩ := bind_ok he
  cases he
  exact openInv_res (openInv_rc h
    (rcValue_ok h.1.1 (viewShort_of_open h) (hk.trans h.1.1.kMax_le) (rangeOk_of_open h hr) hv).2.1) _

theorem openInv_opEntRes {s t : State} (h : OpenInv s) (hr : s.rcInit = true) {c : Nat} (he : opEntRes c s = .ok t) :
    OpenInv t := by
  obtain ⟨⟨v, x, u⟩, hu, he⟩ := bind_ok he
  simp only [Except.ok.injEq] at he
  subst he
  exact openInv_setSample (openInv_res (openInv_entRes h hr hu) _) _ _

theorem openInv_opNnfStep {s t : State} (h : OpenInv s) {st c : Nat} (hst : st < s.nstages)
    (he : opNnfStep st c s = .ok t) : OpenInv t := by
  obtain ⟨⟨y, u⟩, hu, he⟩ := bind_ok he
  simp only [Except.ok.injEq] at he
  subst he
  exact openInv_setSample (openInv_nnfStep h hst hu) _ _

theorem openInv_opPredStep {s t : State} (h : OpenInv s) {c : Nat} (he : opPredStep c s = .ok t) : OpenInv t := by
  obtain ⟨⟨z, u⟩, hu, he⟩ := bind_ok he
  simp only [Except.ok.injEq] at he
  subst he
  exact openInv_setSample (openInv_predStep h hu) _ _

theorem openInv_opStereoStep {s t : State} (h : OpenInv s) (he : opStereoStep s = .ok t) : OpenInv t := by
  obtain ⟨⟨l, r⟩, -, he⟩ := bind_ok he
  simp only [Except.ok.injEq] at he
  subst he
  exact openInv_setSample (openInv_setSample h 0 l) 1 r

theorem openInv_opEmit {s t : State} (h : OpenInv s) (hb : s.bidx.toNat < s.regs.nblocks.toNat)
    (he : opEmit s = .ok t) : OpenInv t := by
  have hwritten : ∀ u : State, OpenInv u → u.regs = s.regs → u.bidx = s.bidx →
      OpenInv { u with bidx := natWord (s.bidx.toNat + 1) } := by
    rintro u ⟨⟨h1, h2, h3, h4, h5, h6⟩, hp⟩ hg hx
    obtain ⟨o1, o2, o3, o4, -, o6, o7⟩ := h6 hp
    refine ⟨⟨h1, h2, h3, h4, h5, fun _ => ⟨o1, o2, o3, o4, ?_, o6, o7⟩⟩, hp⟩
    have := s.regs.nblocks.isLt
    show (natWord (s.bidx.toNat + 1)).toNat ≤ u.regs.nblocks.toNat
    rw [natWord_toNat_of_lt (by omega), hg]
    omega
  simp only [opEmit, Except.ok.injEq] at he
  subst he
  split
  · rename_i hc
    have hn : s.nch = 1 := by simp [State.nch, hc]
    have := out_index h hb (c := 0) (by omega)
    rw [hn] at this
    exact hwritten _ (openInv_writeOut h (by omega) _) rfl rfl
  · rename_i hc
    have hn : s.nch = 2 := by
      rcases (h.1.2.2.2.2.2 h.2).1.2.1 with hc' | hc'
      · exact absurd hc' hc
      · simp [State.nch, hc']
    have := out_index h hb (c := 1) (by omega)
    rw [hn] at this
    exact hwritten _ (openInv_writeOut (openInv_writeOut h (by omega) _) (by simp only [writeOut_cfg]; omega) _) rfl rfl

end Sys2Proof.Machine
end

