-- ==== Sys2Proof/Laws/Decoding.lean ====
section
/-! SUPPORT. The pseudocode of the range decoder against the relations of `Sys2Proof.Spec` in which the statements are
written: whatever the relations allow is what the pseudocode does. -/

namespace Sys2Proof.Machine

open Sys2Proof.Spec

/-- `RcNorm()` in closed form (R133). -/
theorem rcNorm_eq {v : View} (hv : ViewShort v) {r : RangeState} (hr : RangeOk r) :
    2 ^ 24 ≤ normRange r ∧ normRange r < 2 ^ 32 ∧
    rcNorm v r =
      if streamDefined v r.pos.toNat (normBits r) then .ok (normalised v r) else .error (corruptBitstream 1) := by
  obtain ⟨m, hm, h1, h2, h3, h4⟩ := rcNorm_cases hv hr
  have hlt := r.range.isLt
  have hr7 := hr.2
  have : m = normBytes r.range.toNat := by
    unfold normBytes
    have h00 := h3 0
    have h01 := h3 1
    have h02 := h3 2
    clear h3 h4
    generalize r.range.toNat = x at *
    interval_cases m <;> simp at * <;> (repeat' split) <;> omega
  subst this
  exact ⟨h1, h2, h4⟩

/-- The normalised registers as numbers. -/
theorem normalised_toNat {v : View} (hv : ViewShort v) {r : RangeState} (hr : RangeOk r) (ha : Available v r) :
    (normalised v r).low.toNat = normLow v r ∧ (normalised v r).range.toNat = normRange r ∧
      normLow v r < normRange r := by
  have h := normBy_toNat hv hr (rcNorm_eq hv hr).2.1 ha
  have h4 := h.2.2.2
  rw [h.1, h.2.1] at h4
  exact ⟨h.1, h.2.1, h4⟩

/-- `RcBits(n)` (R134). -/
theorem rcBits_of_bitsAt {v : View} (hv : ViewShort v) {r r' : RangeState} (hr : RangeOk r) {n x : Nat}
    (h : BitsAt v n r x r') : rcBits v n r = .ok (x, r') := by
  obtain ⟨ha, rfl, hx, rfl⟩ := h
  obtain ⟨h1, h2, h3⟩ := rcNorm_eq hv hr
  rw [if_pos ha] at h3
  have := normalised_toNat hv hr ha
  simp only [rcBits, h3, ok_bind]
  rw [this.1, this.2.1, if_neg (by exact Nat.not_le.2 hx)]
  simp [place, help, taken, natWord, normalised]

/-- `RcBits(n)` on a code beyond every value (R134). -/
theorem rcBits_of_place_ge {v : View} (hv : ViewShort v) {r : RangeState} (hr : RangeOk r) (ha : Available v r) {n : Nat}
    (h : 2 ^ n ≤ place v r n) : rcBits v n r = .error (corruptBitstream 2) := by
  obtain ⟨h1, h2, h3⟩ := rcNorm_eq hv hr
  rw [if_pos ha] at h3
  have := normalised_toNat hv hr ha
  simp only [rcBits, h3, ok_bind]
  rw [this.1, this.2.1, if_pos (by exact h)]

/-- `RcSym()` (R135). -/
theorem rcSym_of_symbolAt {p : Config} (hp : p.Legal) {v : View} (hv : ViewShort v) {r r' : RangeState}
    (hr : RangeOk r) {y : Nat} (h : SymbolAt p v r y r') : rcSym p v r = .ok (y, r') := by
  obtain ⟨ha, lo, hi, hlo, hhi, h5, h6, rfl⟩ := h
  obtain ⟨h1, h2, h3⟩ := rcNorm_eq hv hr
  rw [if_pos ha] at h3
  have := normalised_toNat hv hr ha
  simp only [rcSym, h3, ok_bind]
  rw [this.1, this.2.1]
  change (if place v r p.ovfShift ≥ 2 ^ p.ovfShift then _ else _) = _
  have hle := ovfCum_le hp hhi
  rw [if_neg (by omega)]
  obtain ⟨y', lo', hi', hf⟩ := ovfFind_complete (i := 0) hp.ovfCum_head hp.ovfCum_last
    (Nat.zero_le (place v r p.ovfShift)) (by omega)
  obtain ⟨-, g1, g2, g3, g4⟩ := ovfFind_some hf
  unfold place help at hf
  rw [hf]
  have := ovfFind_unique hp.ovfCum_rising hlo hhi h5 h6 (by simpa using g1) (by simpa using g2) g3 g4
  subst this
  simp only [Nat.sub_zero] at g1 g2
  rw [hlo] at g1
  rw [hhi] at g2
  cases g1
  cases g2
  rfl

/-- `RcSym()` on a code beyond every symbol (R135). -/
theorem rcSym_of_place_ge {p : Config} {v : View} (hv : ViewShort v) {r : RangeState} (hr : RangeOk r)
    (ha : Available v r) (h : 2 ^ p.ovfShift ≤ place v r p.ovfShift) : rcSym p v r = .error (corruptBitstream 2) := by
  obtain ⟨h1, h2, h3⟩ := rcNorm_eq hv hr
  rw [if_pos ha] at h3
  have := normalised_toNat hv hr ha
  simp only [rcSym, h3, ok_bind]
  rw [this.1, this.2.1, if_pos (by exact h)]

/-- The bound of R141 leaves room for every count that fits 32 bits. -/
theorem overflowBound_large {p : Config} (hp : p.Legal) : 2 ^ 32 < overflowBound p * (p.ovfNsym - 1) := by
  have := hp.ovfNsym_ge
  unfold overflowBound
  have h := Nat.div_add_mod (2 ^ 32) (p.ovfNsym - 1)
  have h2 := Nat.mod_lt (2 ^ 32) (show 0 < p.ovfNsym - 1 by omega)
  rw [Nat.add_mul, Nat.mul_comm]
  omega

/-- The overflow count (R136): a count that fits, with fuel for its symbols. -/
theorem rcOverflow_of_countAt {p : Config} (hp : p.Legal) {v : View} (hv : ViewShort v) {k : Nat} {r r' : RangeState}
    {n : Nat} (h : CountAt p v r n r') : ∀ fuel ovf : Nat, RangeOk r → n < fuel * (p.ovfNsym - 1) →
    (ovf + n) * 2 ^ k < 2 ^ 32 → rcOverflow p v k fuel ovf r = .ok (ovf + n, r') := by
  have pos : ∀ {n fuel : Nat}, n < fuel * (p.ovfNsym - 1) → ∃ f, fuel = f + 1 := fun {n fuel} hf => by
    rcases Nat.eq_zero_or_pos fuel with h | h
    · subst h; simp at hf
    · exact ⟨fuel - 1, by omega⟩
  induction h with
  | stop hs hne =>
    intro fuel ovf hr hf hlt
    obtain ⟨f, rfl⟩ := pos hf
    simp only [rcOverflow, rcSym_of_symbolAt hp hv hr hs, ok_bind]
    rw [if_neg (by omega), if_neg hne]
  | @go r r₁ r' n hs _ ih =>
    intro fuel ovf hr hf hlt
    obtain ⟨f, rfl⟩ := pos hf
    have h1 := rcSym_of_symbolAt hp hv hr hs
    have hle : (ovf + (p.ovfNsym - 1)) * 2 ^ k ≤ (ovf + (p.ovfNsym - 1 + n)) * 2 ^ k :=
      Nat.mul_le_mul_right _ (by omega)
    simp only [rcOverflow, h1, ok_bind]
    rw [if_neg (by omega), if_pos trivial]
    have := ih f (ovf + (p.ovfNsym - 1)) (rcSym_ok hp hv hr h1).2.1 (by rw [Nat.add_mul] at hf; omega)
      (by rw [Nat.add_assoc]; exact hlt)
    rw [this, Nat.add_assoc]

/-- `RcBits(n)` where the relation says it fails (R134). -/
theorem rcBits_of_bitsFail {v : View} (hv : ViewShort v) {r : RangeState} (hr : RangeOk r) {n info : Nat}
    (h : BitsFail v n r info) : rcBits v n r = .error (corruptBitstream info) := by
  rcases h with ⟨ha, rfl⟩ | ⟨ha, h, rfl⟩
  · simp only [rcBits, (rcNorm_eq hv hr).2.2, if_neg ha]
    rfl
  · exact rcBits_of_place_ge hv hr ha h

/-- `RcSym()` where the relation says it fails (R135). -/
theorem rcSym_of_symbolFails {p : Config} {v : View} (hv : ViewShort v) {r : RangeState} (hr : RangeOk r) {info : Nat}
    (h : SymbolFails p v r info) : rcSym p v r = .error (corruptBitstream info) := by
  rcases h with ⟨ha, rfl⟩ | ⟨ha, h, rfl⟩
  · simp only [rcSym, (rcNorm_eq hv hr).2.2, if_neg ha]
    rfl
  · exact rcSym_of_place_ge hv hr ha h

/-- The overflow count (R136): continuation symbols, then a symbol that fails or makes the value leave 32 bits. The fuel
covers the continuation symbols of a count that fits. -/
theorem rcOverflow_of_prefixAt {p : Config} (hp : p.Legal) {v : View} (hv : ViewShort v) {k info : Nat}
    {r r₁ : RangeState} {n : Nat} (h : PrefixAt p v r n r₁) : ∀ fuel ovf : Nat, RangeOk r →
    ((n < fuel * (p.ovfNsym - 1) ∧ (ovf + n) * 2 ^ k < 2 ^ 32 ∧ SymbolFails p v r₁ info) ∨
      ∃ y r', SymbolAt p v r₁ y r' ∧ 2 ^ 32 ≤ (ovf + n + y) * 2 ^ k ∧ info = 3) →
    rcOverflow p v k fuel ovf r = .error (corruptBitstream info) := by
  induction h with
  | none =>
    intro fuel ovf hr hf
    rcases hf with ⟨hf, hlt, hs⟩ | ⟨y, r', hs, hge, rfl⟩
    · cases fuel with
      | zero => simp at hf
      | succ f =>
        simp only [rcOverflow, rcSym_of_symbolFails hv hr hs]
        rfl
    · cases fuel with
      | zero => rfl
      | succ f =>
        simp only [rcOverflow, rcSym_of_symbolAt hp hv hr hs, ok_bind]
        rw [if_pos (by simpa using hge)]
  | @more r r₂ r₁ n hs _ ih =>
    intro fuel ovf hr hf
    have h1 := rcSym_of_symbolAt hp hv hr hs
    have hr2 := (rcSym_ok hp hv hr h1).2.1
    rcases hf with ⟨hf, hlt, hs'⟩ | ⟨y, r', hs', hge, rfl⟩
    · cases fuel with
      | zero => simp at hf
      | succ f =>
        have hle : (ovf + (p.ovfNsym - 1)) * 2 ^ k ≤ (ovf + (p.ovfNsym - 1 + n)) * 2 ^ k :=
          Nat.mul_le_mul_right _ (by omega)
        simp only [rcOverflow, h1, ok_bind]
        rw [if_neg (by omega), if_pos trivial]
        exact ih f _ hr2 (.inl ⟨by rw [Nat.add_mul] at hf; omega, by rw [Nat.add_assoc]; exact hlt, hs'⟩)
    · cases fuel with
      | zero => rfl
      | succ f =>
        simp only [rcOverflow, h1, ok_bind]
        split
        · rfl
        · rw [if_pos trivial]
          exact ih f _ hr2 (.inr ⟨y, r', hs', by rw [Nat.add_assoc ovf]; exact hge, rfl⟩)

/-- The refinement bits (R136). -/
theorem rcRefine_of_refineAt {v : View} (hv : ViewShort v) {r r' : RangeState} (hr : RangeOk r) {k bits : Nat}
    (h : RefineAt v k r bits r') : rcRefine v k r = .ok (bits, r') := by
  rcases h with ⟨rfl, rfl, rfl⟩ | ⟨h1, h2, h3⟩ | ⟨h1, lo, hi, r1, h2, h3, rfl⟩
  · rfl
  · rw [rcRefine, if_neg (by omega), if_pos h2, rcBits_of_bitsAt hv hr h3]
  · have e1 := rcBits_of_bitsAt hv hr h2
    have hr1 := (rcBits_ok hv (Nat.le_refl _) hr e1).2.1
    rw [rcRefine, if_neg (by omega), if_neg (by omega)]
    simp only [e1, rcBits_of_bitsAt hv hr1 h3, ok_bind]

/-- `RcValue(k)` (R136). -/
theorem rcValue_of_valueAt {p : Config} (hp : p.Legal) {v : View} (hv : ViewShort v) {k : Nat} {r r' : RangeState}
    {x : Nat} (hr : RangeOk r) (h : ValueAt p v k r x r') : rcValue p v k r = .ok (x, r') := by
  obtain ⟨ovf, bits, r₁, h1, h2, h3, rfl⟩ := h
  have hle : ovf * 1 ≤ ovf * 2 ^ k := Nat.mul_le_mul_left _ Nat.one_le_two_pow
  have hb := overflowBound_large hp
  have e := rcOverflow_of_countAt hp hv h1 (overflowBound p) 0 hr (by omega) (by simpa using h2)
  rw [Nat.zero_add] at e
  have := (rcOverflow_ok hp hv hr e).2.1
  simp only [rcValue, e, ok_bind, rcRefine_of_refineAt hv this h3]

/-- The refinement bits where the relation says they fail (R136). -/
theorem rcRefine_of_refineFails {v : View} (hv : ViewShort v) {r : RangeState} (hr : RangeOk r) {k info : Nat}
    (h : RefineFails v k r info) : rcRefine v k r = .error (corruptBitstream info) := by
  rcases h with ⟨h1, h2, h3⟩ | ⟨h1, h2 | ⟨lo, r1, h2, h3⟩⟩
  · rw [rcRefine, if_neg (by omega), if_pos h2, rcBits_of_bitsFail hv hr h3]
  · rw [rcRefine, if_neg (by omega), if_neg (by omega), rcBits_of_bitsFail hv hr h2]
    rfl
  · have e1 := rcBits_of_bitsAt hv hr h2
    have hr1 := (rcBits_ok hv (Nat.le_refl _) hr e1).2.1
    rw [rcRefine, if_neg (by omega), if_neg (by omega)]
    simp only [e1, rcBits_of_bitsFail hv hr1 h3, ok_bind]
    rfl

/-- `RcValue(k)` where the relation says it fails (R136). -/
theorem rcValue_of_valueFails {p : Config} (hp : p.Legal) {v : View} (hv : ViewShort v) {k info : Nat} {r : RangeState}
    (hr : RangeOk r) (h : ValueFails p v k r info) : rcValue p v k r = .error (corruptBitstream info) := by
  have hb := overflowBound_large hp
  rcases h with ⟨n, r1, h1, h2⟩ | ⟨ovf, r1, h1, h2, h3⟩
  · have hle : n * 1 ≤ n * 2 ^ k := Nat.mul_le_mul_left _ Nat.one_le_two_pow
    have e := rcOverflow_of_prefixAt hp hv (k := k) (info := info) h1 (overflowBound p) 0 hr
      (h2.imp (fun h => ⟨by omega, by simpa using h.1, h.2⟩) (by simp))
    simp only [rcValue, e]
    rfl
  · have hle : ovf * 1 ≤ ovf * 2 ^ k := Nat.mul_le_mul_left _ Nat.one_le_two_pow
    have e := rcOverflow_of_countAt hp hv h1 (overflowBound p) 0 hr (by omega) (by simpa using h2)
    rw [Nat.zero_add] at e
    have := (rcOverflow_ok hp hv hr e).2.1
    simp only [rcValue, e, ok_bind, rcRefine_of_refineFails hv this h3]
    rfl

theorem fold_eq (x : Nat) : fold x = residualOf x := by
  unfold fold residualOf
  split <;> omega

theorem adapt_eq (kMax k x : Nat) : adapt kMax k x = adapted kMax k x := rfl

/-! ## The filters entry by entry -/

theorem dot_eq_weighted {u w n : Nat} {a : List (BitVec u)} {b : List (BitVec w)} (ha : a.length = n)
    (hb : b.length = n) : dot (a.map BitVec.toInt) (b.map BitVec.toInt) = weighted n a b := dot_eq_sum ha hb

/-- The accumulator of `NnfStep`, entry by entry (R161). -/
theorem nnfAcc_eq_weighted {n : Nat} {q : Stage} (hw : q.w.length = n) (hh : q.h.length = n) :
    nnfAcc q = weighted n q.w q.h := dot_eq_weighted hw hh

/-- `NnfStep` in closed form (R161, R222). -/
theorem nnfStage_eq {g : StageSpec} {q : Stage} (hh : q.h.length = g.order) (hw : q.w.length = g.order) (st c : Nat)
    (x : Word) :
    nnfStage g st c x q =
      if ¬ Fits 32 (stageOut g q x) then .error (arithmeticOverflow 1 c st)
      else if ¬ ∀ j < g.order, Fits 16 (stageWeight q x j) then .error (arithmeticOverflow 2 c st)
      else .ok (BitVec.ofInt 32 (stageOut g q x), stageAfter g q x) := by
  unfold nnfStage
  simp only [nnfAcc_eq_weighted hw hh, sar_eq_fdiv, sgn_eq_sign, signUpdate_eq_map _ hw hh]
  have e1 : fitsSigned 32 (x.toInt + Int.fdiv (weighted g.order q.w q.h) ((2 : Int) ^ g.shift)) = true ↔
      Fits 32 (stageOut g q x) := fitsSigned_iff
  have e2 : ((List.range g.order).map fun j =>
      (q.w.getD j 0).toInt + Int.sign (q.h.getD j 0).toInt * x.toInt.sign).all (fitsSigned 16) = true ↔
      ∀ j < g.order, Fits 16 (stageWeight q x j) := by
    simp [List.all_eq_true, fitsSigned_iff, Fits, stageWeight, entry]
  simp only [← e1, ← e2, Bool.not_eq_true, Bool.not_eq_eq_eq_not, Bool.not_true]
  congr 3
  simp [shiftIn, stageAfter, toWord, stageOut, stageWeight, entry, toHalf]

/-- Every entry of one updated vector of the predictor fits. -/
theorem all_signUpdate_iff {u w n : Nat} {a : List (BitVec u)} {b : List (BitVec w)} (ha : a.length = n)
    (hb : b.length = n) (x : Int) :
    (signUpdate x (a.map BitVec.toInt) (b.map BitVec.toInt)).all (fitsSigned 32) = true ↔
      ∀ i < n, Fits 32 (entry a i + x * Int.sign (entry b i)) := by
  rw [signUpdate_eq_map _ ha hb]
  simp [List.all_eq_true, fitsSigned_iff, Fits, entry, mul_comm]

/-- `PredStep` in closed form (R181, R222). -/
theorem predStage_eq {p : Config} {q : Predictor} (ha : q.a.length = p.predNZ) (hb : q.b.length = p.predNY)
    (hy : q.y.length = p.predNY) (hz : q.z.length = p.predNZ) (c : Nat) (y : Word) :
    predStage p c y q =
      if ¬ Fits 64 (predAcc p q) then .error (arithmeticOverflow 5 c 0)
      else if ¬ Fits 32 (predOut p q y) then .error (arithmeticOverflow 3 c 0)
      else if ¬ PredFits p q y then .error (arithmeticOverflow 4 c 0)
      else .ok (BitVec.ofInt 32 (predOut p q y), predAfter p q y) := by
  unfold predStage
  simp only [dot_eq_weighted ha hz, dot_eq_weighted hb hy, sar_eq_fdiv, sgn_eq_sign]
  have hA := all_signUpdate_iff ha hz y.toInt.sign
  have hB := all_signUpdate_iff hb hy y.toInt.sign
  have e1 : fitsSigned 64 (weighted p.predNZ q.a q.z + weighted p.predNY q.b q.y) = true ↔ Fits 64 (predAcc p q) :=
    fitsSigned_iff
  have e2 : fitsSigned 32 (y.toInt +
      Int.fdiv (weighted p.predNZ q.a q.z + weighted p.predNY q.b q.y) ((2 : Int) ^ p.predShift)) = true ↔
      Fits 32 (predOut p q y) := fitsSigned_iff
  have e3 : ((signUpdate y.toInt.sign (q.a.map BitVec.toInt) (q.z.map BitVec.toInt)).all (fitsSigned 32) &&
      (signUpdate y.toInt.sign (q.b.map BitVec.toInt) (q.y.map BitVec.toInt)).all (fitsSigned 32)) = true ↔
      PredFits p q y := by
    rw [Bool.and_eq_true, hA, hB]
    rfl
  simp only [← e1, ← e2, ← e3, Bool.not_eq_true, Bool.not_eq_eq_eq_not, Bool.not_true]
  congr 3
  simp only [predAfter, predOut, predAcc, Except.ok.injEq, Prod.mk.injEq, Predictor.mk.injEq]
  refine ⟨rfl, ?_, ?_, rfl, rfl⟩
  · rw [signUpdate_eq_map _ ha hz, List.map_map]
    congr 1
    funext i
    simp [predA, entry, toWord, mul_comm]
  · rw [signUpdate_eq_map _ hb hy, List.map_map]
    congr 1
    funext i
    simp [predB, entry, toWord, mul_comm]

end Sys2Proof.Machine
end

