-- ==== Sys2Proof/Laws/Errors.lean ====
section
/-! SUPPORT. Which errors each computation can raise (60_exceptions.md R220 to R222, R227). -/

namespace Sys2Proof.Machine

/-- Every error `r` can end in satisfies `P`. -/
def Raises {α : Type} (P : Err → Prop) (r : Except Err α) : Prop := ∀ e, r = .error e → P e

section
variable {α β : Type} {P Q : Err → Prop}

theorem raises_ok (a : α) : Raises P (.ok a : Except Err α) := fun _ h => nomatch h

theorem raises_error {e : Err} (h : P e) : Raises P (.error e : Except Err α) := fun _ he => by cases he; exact h

theorem raises_bind {x : Except Err α} {f : α → Except Err β} (hx : Raises P x) (hf : ∀ a, x = .ok a → Raises P (f a)) :
    Raises P (x >>= f) := by
  cases x with
  | ok a => exact hf a rfl
  | error e => exact fun e' he => by cases he; exact hx e rfl

theorem raises_ite {c : Prop} [Decidable c] {x y : Except Err α} (hx : c → Raises P x) (hy : ¬ c → Raises P y) :
    Raises P (if c then x else y) := by
  split
  · exact hx ‹_›
  · exact hy ‹_›

theorem Raises.mono {x : Except Err α} (h : Raises P x) (hPQ : ∀ e, P e → Q e) : Raises Q x :=
  fun e he => hPQ e (h e he)

theorem raises_forUpTo {f : Nat → State → Except Err State} {n : Nat} {s : State} (hf : ∀ i a, Raises P (f i a)) :
    Raises P (forUpTo n f s) := by
  induction n with
  | zero => exact raises_ok _
  | succ n ih => exact raises_bind ih fun a _ => hf n a

theorem raises_runChecks {l : List (Bool × Err)} (h : ∀ c ∈ l, P c.2) : Raises P (runChecks l) := by
  induction l with
  | nil => exact raises_ok _
  | cons c rest ih =>
    obtain ⟨b, e⟩ := c
    rw [runChecks_cons]
    exact raises_ite (fun _ => raises_error (h _ List.mem_cons_self)) fun _ =>
      ih fun c hc => h c (List.mem_cons_of_mem _ hc)

end

/-- `CorruptBitstream`. -/
abbrev IsBitstream (e : Err) : Prop := e.kind = .corruptBitstream

/-- `ArithmeticOverflow`. -/
abbrev IsOverflow (e : Err) : Prop := e.kind = .arithmeticOverflow

/-- The kinds `FRAME_START` raises (R220). -/
abbrev IsStartError (e : Err) : Prop :=
  e.kind = .unsupportedVersion ∨ e.kind = .invalidHeader ∨ e.kind = .truncatedFrame ∨ e.kind = .corruptFrame ∨
    e.kind = .unsupportedConfiguration ∨ e.kind = .corruptBitstream

theorem raises_nextByte (v : View) (r : RangeState) : Raises IsBitstream (nextByte v r) :=
  raises_ite (fun _ => raises_ok _) fun _ => raises_error rfl

theorem raises_rcInit (v : View) (r : RangeState) : Raises IsBitstream (rcInit v r) :=
  raises_bind (raises_nextByte v r) fun _ _ => raises_ok _

theorem raises_rcNormLoop (v : View) (fuel : Nat) : ∀ r : RangeState, Raises IsBitstream (rcNormLoop v fuel r) := by
  induction fuel with
  | zero => exact fun r => raises_ite (fun _ => raises_error rfl) fun _ => raises_ok _
  | succ fuel ih =>
    exact fun r => raises_ite (fun _ => raises_bind (raises_nextByte v r) fun _ _ => ih _) fun _ => raises_ok _

theorem raises_rcNorm (v : View) (r : RangeState) : Raises IsBitstream (rcNorm v r) := raises_rcNormLoop v 3 r

theorem raises_rcBits (v : View) (n : Nat) (r : RangeState) : Raises IsBitstream (rcBits v n r) :=
  raises_bind (raises_rcNorm v r) fun _ _ => raises_ite (fun _ => raises_error rfl) fun _ => raises_ok _

theorem raises_rcSym (p : Config) (v : View) (r : RangeState) : Raises IsBitstream (rcSym p v r) :=
  raises_bind (raises_rcNorm v r) fun _ _ => raises_ite (fun _ => raises_error rfl) fun _ => by
    split
    · exact raises_ok _
    · exact raises_error rfl

theorem raises_rcOverflow (p : Config) (v : View) (k fuel : Nat) : ∀ (ovf : Nat) (r : RangeState),
    Raises IsBitstream (rcOverflow p v k fuel ovf r) := by
  induction fuel with
  | zero => exact fun _ _ => raises_error rfl
  | succ fuel ih =>
    exact fun _ r => raises_bind (raises_rcSym p v r) fun _ _ =>
      raises_ite (fun _ => raises_error rfl) fun _ => raises_ite (fun _ => ih _ _) fun _ => raises_ok _

theorem raises_rcRefine (v : View) (k : Nat) (r : RangeState) : Raises IsBitstream (rcRefine v k r) :=
  raises_ite (fun _ => raises_ok _) fun _ => raises_ite (fun _ => raises_rcBits v k r) fun _ =>
    raises_bind (raises_rcBits v 16 r) fun _ _ => raises_bind (raises_rcBits v _ _) fun _ _ => raises_ok _

theorem raises_rcValue (p : Config) (v : View) (k : Nat) (r : RangeState) : Raises IsBitstream (rcValue p v k r) :=
  raises_bind (raises_rcOverflow p v k _ _ r) fun _ _ => raises_bind (raises_rcRefine v k _) fun _ _ => raises_ok _

theorem raises_entRes (c : Nat) (s : State) : Raises IsBitstream (entRes c s) :=
  raises_bind (raises_rcValue _ _ _ _) fun _ _ => raises_ok _

theorem raises_nnfStep (st c : Nat) (x : Word) (s : State) : Raises IsOverflow (nnfStep st c x s) :=
  raises_bind (raises_ite (fun _ => raises_error rfl) fun _ => raises_ite (fun _ => raises_error rfl) fun _ =>
    raises_ok _) fun _ _ => raises_ok _

theorem raises_predStep (c : Nat) (y : Word) (s : State) : Raises IsOverflow (predStep c y s) :=
  raises_bind (raises_ite (fun _ => raises_error rfl) fun _ => raises_ite (fun _ => raises_error rfl) fun _ =>
    raises_ite (fun _ => raises_error rfl) fun _ => raises_ok _) fun _ _ => raises_ok _

theorem raises_stereo (x y : Word) : Raises IsOverflow (stereo x y) :=
  raises_ite (fun _ => raises_error rfl) fun _ => raises_ite (fun _ => raises_error rfl) fun _ => raises_ok _

theorem raises_cascade (c : Nat) (x : Word) (s : State) (m : Nat) : Raises IsOverflow (cascade c x s m) := by
  induction m with
  | zero => exact raises_ok _
  | succ m ih => exact raises_bind ih fun _ _ => raises_nnfStep _ _ _ _

theorem raises_headerWord (v : View) (p : Nat) : Raises IsStartError (headerWord v p) :=
  raises_ite (fun _ => raises_ok _) fun _ => raises_error (by simp [IsStartError, truncatedFrame])

theorem raises_readHeader (s : State) : Raises IsStartError (readHeader s) :=
  raises_bind (raises_headerWord _ _) fun _ _ => raises_bind (raises_headerWord _ _) fun _ _ =>
    raises_bind (raises_runChecks (by simp [flagChecks, IsStartError, corruptFrame])) fun _ _ => raises_ok _

theorem raises_frameStart (s : State) : Raises IsStartError (frameStart s) := by
  refine raises_bind (raises_runChecks ?_) fun _ _ => raises_bind (raises_runChecks ?_) fun _ _ =>
    raises_bind (raises_readHeader _) fun u _ => ?_
  · simp [streamChecks, IsStartError, unsupportedVersion, unsupportedConfiguration, invalidHeader]
  · simp [frameChecks, IsStartError, corruptFrame, unsupportedConfiguration, truncatedFrame]
  · simp only
    split
    · exact raises_ok _
    · exact raises_bind ((raises_bind (raises_rcInit _ _) fun _ _ => raises_ok _).mono
        fun e (he : IsBitstream e) => by simp [IsStartError, he]) fun _ _ => raises_ok _

/-- The body of `FRAME` raises `CorruptBitstream` or `ArithmeticOverflow` (R227 (3)). -/
theorem raises_frameBody (s : State) : Raises (fun e => IsBitstream e ∨ IsOverflow e) (frameBody s) := by
  refine raises_ite (fun _ => raises_forUpTo fun _ _ => raises_ok _) fun _ => ?_
  refine raises_bind (raises_forUpTo fun _ a => raises_forUpTo fun _ b => ?_) fun a _ => ?_
  · exact (raises_bind (raises_entRes _ _) fun _ _ => raises_ok _).mono fun _ => .inl
  · refine raises_bind (raises_forUpTo fun _ a => raises_forUpTo fun _ b => ?_) fun b _ => raises_forUpTo fun _ d => ?_
    · exact (raises_bind (raises_cascade _ _ _ _) fun _ _ => raises_bind (raises_predStep _ _ _) fun _ _ =>
        raises_ok _).mono fun _ => .inr
    · refine Raises.mono ?_ fun _ => .inr
      exact raises_ite (fun _ => raises_ite (fun _ => raises_ok _) fun _ =>
        raises_bind (raises_stereo _ _) fun _ _ => raises_ok _) fun _ => raises_ok _

theorem raises_opFrame (s : State) : Raises (fun e => IsStartError e ∨ IsOverflow e) (opFrame s) :=
  raises_bind ((raises_frameStart s).mono fun _ => .inl) fun _ _ =>
    raises_bind ((raises_frameBody _).mono fun e he => he.imp (fun (h : IsBitstream e) => by simp [IsStartError, h]) id)
      fun _ _ => raises_ok _

/-- No operation's pseudocode raises `Io`, or the empty kind, or `IllegalCommand` (R220, R223). -/
theorem raises_body (i : Instr) (s : State) : Raises (fun e => IsStartError e ∨ IsOverflow e) (body i s) := by
  have hb : ∀ e, IsBitstream e → IsStartError e ∨ IsOverflow e := fun e he => .inl (by simp [IsStartError, he])
  cases i with
  | nop => exact raises_ok _
  | sreset => exact raises_ok _
  | frameStart => exact (raises_frameStart s).mono fun _ => .inl
  | frame => exact raises_opFrame s
  | rcInit => exact (raises_bind (raises_rcInit _ _) fun _ _ => raises_ok _).mono hb
  | rcNorm => exact (raises_bind (raises_rcNorm _ _) fun _ _ => raises_ok _).mono hb
  | rcBits n => exact (raises_bind (raises_rcBits _ _ _) fun _ _ => raises_ok _).mono hb
  | rcSym => exact (raises_bind (raises_rcSym _ _ _) fun _ _ => raises_ok _).mono hb
  | rcValue k => exact (raises_bind (raises_rcValue _ _ _ _) fun _ _ => raises_ok _).mono hb
  | entRes c => exact (raises_bind (raises_entRes _ _) fun _ _ => raises_ok _).mono hb
  | nnfStep st c => exact (raises_bind (raises_nnfStep _ _ _ _) fun _ _ => raises_ok _).mono fun _ => .inr
  | predStep c => exact (raises_bind (raises_predStep _ _ _) fun _ _ => raises_ok _).mono fun _ => .inr
  | stereoStep => exact (raises_bind (raises_stereo _ _) fun _ _ => raises_ok _).mono fun _ => .inr
  | emit => exact raises_ok _

end Sys2Proof.Machine
end

