-- ==== Sys2Proof/Laws/Flags.lean ====
section
/-! SUPPORT. The flags word and the command word read as numbers (30_encoding.md R82 to R86, R93). -/

namespace Sys2Proof.Machine

/-- A word compared with a number below `2^32`. -/
theorem toNat_eq_iff {x : Word} {n : Nat} (hn : n < 2 ^ 32) : x.toNat = n ↔ x = BitVec.ofNat 32 n := by
  constructor
  · intro h; apply BitVec.eq_of_toNat_eq; simpa using by omega
  · rintro rfl; simpa using by omega

theorem flagSilence_eq (f : Word) : flagSilence f = f.toNat % 4 := by simp [flagSilence, BitVec.extractLsb'_toNat]

theorem flagFalseStereo_eq (f : Word) : flagFalseStereo f = f.getLsbD 2 := by
  rw [Bool.eq_iff_iff]; simp [flagFalseStereo, BitVec.eq_of_getLsbD_eq_iff]

theorem flagReservedSet_eq (f : Word) : flagReservedSet f = decide (8 ≤ f.toNat) := by
  rw [Bool.eq_iff_iff]
  simp only [flagReservedSet, bne_iff_ne, decide_eq_true_eq, Ne, ← BitVec.toNat_inj, BitVec.extractLsb'_toNat,
    Nat.shiftRight_eq_div_pow]
  have := f.isLt
  simp
  omega

end Sys2Proof.Machine
end

