-- ==== Sys2Proof/Laws/PerInstr.lean ====
section
/-! SUPPORT. A law for each operation of 30_encoding.md R82: the bits its row of spec/opcode_table.json fixes. -/

namespace Sys2Proof.Laws.FixedBits

/-- `(mask, match)` of the operation's row of the opcode table. -/
def tableRow : Instr → Word × Word
  | .nop => (0xFFFFFFFF, 0x00000000)
  | .sreset => (0xFFFFFFFF, 0x01000000)
  | .frameStart => (0xFFFFFFFF, 0x02000000)
  | .frame => (0xFFFFFFFF, 0x03000000)
  | .rcInit => (0xFFFFFFFF, 0x10000000)
  | .rcNorm => (0xFFFFFFFF, 0x11000000)
  | .rcBits _ => (0xFFFFFFE0, 0x12000000)
  | .rcSym => (0xFFFFFFFF, 0x13000000)
  | .rcValue _ => (0xFFFFFFE0, 0x14000000)
  | .entRes _ => (0xFFFFFFFE, 0x15000000)
  | .nnfStep _ _ => (0xFFFFFCFE, 0x20000000)
  | .predStep _ => (0xFFFFFFFE, 0x30000000)
  | .stereoStep => (0xFFFFFFFF, 0x40000000)
  | .emit => (0xFFFFFFFF, 0x41000000)

/-- The word of a well-formed operation has the fixed bits of its row, and decodes to an operation of the same row. -/
def Statement (i : Instr) : Prop :=
  i.WellFormed → encode i &&& (tableRow i).1 = (tableRow i).2 ∧
    ∃ j, decode (encode i) = .ok j ∧ mnemonicOf j = mnemonicOf i

theorem nop : Statement .nop := fun _ => ⟨by decide, _, rfl, rfl⟩

theorem sreset : Statement .sreset := fun _ => ⟨by decide, _, rfl, rfl⟩

theorem frameStart : Statement .frameStart := fun _ => ⟨by decide, _, rfl, rfl⟩

theorem frame : Statement .frame := fun _ => ⟨by decide, _, rfl, rfl⟩

theorem rcInit : Statement .rcInit := fun _ => ⟨by decide, _, rfl, rfl⟩

theorem rcNorm : Statement .rcNorm := fun _ => ⟨by decide, _, rfl, rfl⟩

theorem rcBits (n : Nat) : Statement (.rcBits n) := by
  intro h
  simp only [Instr.WellFormed, Instr.wellFormed, decide_eq_true_eq] at h
  interval_cases n <;> exact ⟨by decide, _, rfl, rfl⟩

theorem rcSym : Statement .rcSym := fun _ => ⟨by decide, _, rfl, rfl⟩

theorem rcValue (k : Nat) : Statement (.rcValue k) := by
  intro h
  simp only [Instr.WellFormed, Instr.wellFormed, decide_eq_true_eq] at h
  interval_cases k <;> exact ⟨by decide, _, rfl, rfl⟩

theorem entRes (c : Nat) : Statement (.entRes c) := by
  intro h
  simp only [Instr.WellFormed, Instr.wellFormed, decide_eq_true_eq] at h
  interval_cases c <;> exact ⟨by decide, _, rfl, rfl⟩

theorem nnfStep (st c : Nat) : Statement (.nnfStep st c) := by
  intro h
  simp only [Instr.WellFormed, Instr.wellFormed, Bool.and_eq_true, decide_eq_true_eq] at h
  obtain ⟨h1, h2⟩ := h
  interval_cases st <;> interval_cases c <;> exact ⟨by decide, _, rfl, rfl⟩

theorem predStep (c : Nat) : Statement (.predStep c) := by
  intro h
  simp only [Instr.WellFormed, Instr.wellFormed, decide_eq_true_eq] at h
  interval_cases c <;> exact ⟨by decide, _, rfl, rfl⟩

theorem stereoStep : Statement .stereoStep := fun _ => ⟨by decide, _, rfl, rfl⟩

theorem emit : Statement .emit := fun _ => ⟨by decide, _, rfl, rfl⟩

end Sys2Proof.Laws.FixedBits
end

