-- ==== Sys2Proof/Tests/Slice0.lean ====
section
/-! SUPPORT. Tests. Every expected result is from the spec: the words from 30_encoding.md R82 to R89, the numbers from
the vector of 95_test_vectors.md named in the test's comment. The witnesses at the end show states and operands that meet
the hypotheses of the statements. -/

namespace Sys2Proof.Tests

set_option Elab.async false

open Sys2Proof.Machine Sys2Proof.Spec

/-! ## Helpers -/

/-- The state after an operation. -/
def after (i : Instr) (s : State) : State :=
  match exec i s with
  | .next t => t
  | .fault _ => s
  | .refused _ => s

/-- The state after one step. -/
def stepped (s : State) : State :=
  match step s with
  | .next t => t
  | .fault _ => s
  | .refused _ => s

/-- The state an outcome answers. -/
def nextOf (o : Host.Outcome State Fault Refusal) : Option State :=
  match o with
  | .next t => some t
  | .fault _ => none
  | .refused _ => none

/-- A window with these bytes in file order. -/
def windowOf (bytes : List Nat) : Memory 8 :=
  ⟨0, (List.range bytes.length).map fun a => (a, BitVec.ofNat 8 (bytes.getD a 0))⟩

/-- The vectors' `CFG0(ch, lvl, nb)` and a window, after reset. -/
def loaded (ch lvl nb : Word) (bytes : List Nat) : State :=
  { State.reset with
    regs := ⟨3990, ch, 16, lvl, nb, nb, 1, 0, nb, 0, BitVec.ofNat 32 bytes.length, 0⟩
    win := windowOf bytes }

/-- `FRAME_START` on it. -/
def opened (ch lvl nb : Word) (bytes : List Nat) : State := after .frameStart (loaded ch lvl nb bytes)

/-- The first `n` words of `OUT` as integers. -/
def outWords (n : Nat) (s : State) : List Int := (List.range n).map fun i => (outWord s.out i).toInt

/-- What the host sees of an error. -/
def errorOf (s : State) : Phase × ErrKind × Word := (s.phase, s.errCode, s.errInfo)

/-- A window of `n` zero bytes. -/
def zeros (n : Nat) : List Nat := List.replicate n 0

/-- V1's window. -/
def bytesV1 : List Nat :=
  [0, 0, 0, 0, 0, 0, 0, 0, 0x56, 0x34, 0x12, 0xD3, 0xDE, 0xBC, 0x9A, 0x78, 0x33, 0x22, 0x11, 0xF0]

/-- P1's window. -/
def bytesP1 : List Nat :=
  [0x0D, 0xF0, 0xFE, 0xCA, 0, 0, 0, 0, 0x2C, 0x42, 0x86, 0x0C, 0x0D, 0x4F, 0x43, 0x3E, 0, 0, 0, 0x80]

/-- P3's window. -/
def bytesP3 : List Nat := [0, 0, 0, 0, 4, 0, 0, 0, 0x24, 0x3C, 0xE0, 0, 0, 0, 0, 0]

/-- V41's window. -/
def bytesV41 : List Nat := [0xEF, 0xBE, 0xAD, 0xDE, 3, 0, 0, 0]

/-- V1, line 1. -/
def v1 : State := opened 1 1000 4 bytesV1

/-- V1, line 2. -/
def v1n : State := after .rcNorm v1

/-- V1, line 3. -/
def v1b : State := after (.rcBits 4) v1n

/-- V1, line 5. -/
def v1s : State := after .rcSym (after .rcSym v1b)

/-- V1, line 6. -/
def v1v : State := after (.rcValue 10) v1s

/-- V20's and V30's start: a mono frame, level 1000, on zeros. -/
def mono : State := opened 1 1000 100 (zeros 12)

/-- V40's start: a stereo frame, level 1000, on zeros. -/
def stereoFrame : State := opened 2 1000 100 (zeros 12)

/-- V21's start: a stereo frame, level 3000, on zeros. -/
def stereo3000 : State := opened 2 3000 100 (zeros 12)

/-- P3's step-mode start: a false-stereo frame. -/
def falseStereo : State := opened 2 1000 3 bytesP3

/-- V41's step-mode start: a silent frame. -/
def silentFrame : State := opened 2 1000 2 bytesV41

/-! ## WellFormed: each check refuses -/

theorem test_wellFormed_rcBits : (Instr.rcBits 32).wellFormed = false ∧ (Instr.rcBits 31).wellFormed = true := by decide

theorem test_wellFormed_rcValue : (Instr.rcValue 32).wellFormed = false ∧ (Instr.rcValue 31).wellFormed = true := by
  decide

theorem test_wellFormed_entRes : (Instr.entRes 2).wellFormed = false ∧ (Instr.entRes 1).wellFormed = true := by decide

theorem test_wellFormed_nnfStep_st : (Instr.nnfStep 4 0).wellFormed = false ∧ (Instr.nnfStep 3 1).wellFormed = true := by
  decide

theorem test_wellFormed_nnfStep_c : (Instr.nnfStep 0 2).wellFormed = false := by decide

theorem test_wellFormed_predStep : (Instr.predStep 2).wellFormed = false ∧ (Instr.predStep 1).wellFormed = true := by
  decide

/-! ## Decoding: every constructor's word, bit by bit from R82 to R86 -/

theorem test_decode_nop : decode 0b00000000_000000000000000000000000#32 = .ok .nop := by rfl

theorem test_decode_sreset : decode 0b00000001_000000000000000000000000#32 = .ok .sreset := by rfl

theorem test_decode_frameStart : decode 0b00000010_000000000000000000000000#32 = .ok .frameStart := by rfl

theorem test_decode_frame : decode 0b00000011_000000000000000000000000#32 = .ok .frame := by rfl

theorem test_decode_rcInit : decode 0b00010000_000000000000000000000000#32 = .ok .rcInit := by rfl

theorem test_decode_rcNorm : decode 0b00010001_000000000000000000000000#32 = .ok .rcNorm := by rfl

theorem test_decode_rcBits : decode 0b00010010_0000000000000000000_10110#32 = .ok (.rcBits 22) := by rfl

theorem test_decode_rcSym : decode 0b00010011_000000000000000000000000#32 = .ok .rcSym := by rfl

theorem test_decode_rcValue : decode 0b00010100_0000000000000000000_01101#32 = .ok (.rcValue 13) := by rfl

theorem test_decode_entRes : decode 0b00010101_00000000000000000000000_1#32 = .ok (.entRes 1) := by rfl

theorem test_decode_nnfStep : decode 0b00100000_00000000000000_10_0000000_1#32 = .ok (.nnfStep 2 1) := by rfl

theorem test_decode_predStep : decode 0b00110000_00000000000000000000000_1#32 = .ok (.predStep 1) := by rfl

theorem test_decode_stereoStep : decode 0b01000000_000000000000000000000000#32 = .ok .stereoStep := by rfl

theorem test_decode_emit : decode 0b01000001_000000000000000000000000#32 = .ok .emit := by rfl

/-- Reserved bits (R88; V2, V24, V51). -/
theorem test_decode_reserved :
    [0x00000001#32, 0x01000100#32, 0x02800000#32, 0x03000001#32, 0x10000001#32, 0x12000020#32, 0x15000002#32,
      0x20000002#32, 0x20000400#32, 0x30000002#32].map decode =
    [.error (.reservedBitSet 0x00), .error (.reservedBitSet 0x01), .error (.reservedBitSet 0x02),
      .error (.reservedBitSet 0x03), .error (.reservedBitSet 0x10), .error (.reservedBitSet 0x12),
      .error (.reservedBitSet 0x15), .error (.reservedBitSet 0x20), .error (.reservedBitSet 0x20),
      .error (.reservedBitSet 0x30)] := by rfl

/-- Unassigned opcodes (V51). -/
theorem test_decode_unassigned :
    [0x04000000#32, 0x0F000000#32, 0x42000000#32, 0xFF000000#32].map decode =
    [.error (.unassignedOpcode 0x04), .error (.unassignedOpcode 0x0F), .error (.unassignedOpcode 0x42),
      .error (.unassignedOpcode 0xFF)] := by rfl

/-- R89's assembler line for the word of its example. -/
theorem test_assembly : assembly (.nnfStep 1 0) = "NNF_STEP 1, 0" ∧ assembly .frame = "FRAME" := by decide +kernel

/-! ## Frame control -/

/-- V51: `NOP` in `IDLE`. -/
theorem test_nop : after .nop State.reset = State.reset := by decide +kernel

/-- P4 step 6. -/
theorem test_sreset :
    let s := after .sreset (after .frame { loaded 1 1000 6 bytesP1 with
      regs := { (loaded 1 1000 6 bytesP1).regs with winLen := 16 } })
    errorOf s = (.idle, .none, 0) ∧ s.regs.formatVersion = 3990 ∧ s.regs.winLen = 16 := by decide +kernel

/-- V1 line 1. -/
theorem test_frameStart : v1.phase = .opened ∧ v1.rcInit = true ∧ v1.rc = ⟨0x53, 0x80, 72⟩ ∧ v1.ch0.k = 10 ∧
    rcBuffer v1 = 0xD3123456 := by decide +kernel

/-- V50's base. -/
def v50 : ConfigRegs := ⟨3990, 1, 16, 1000, 4, 2, 3, 0, 4, 0, 12, 0⟩

/-- `FRAME_START` on a configuration and zeros. -/
def start (g : ConfigRegs) : Phase × ErrKind × Word :=
  errorOf (after .frameStart { State.reset with regs := g, win := windowOf (zeros 12) })

/-- V50, the accepted lines. -/
theorem test_validation_accepts :
    start v50 = (.opened, .none, 0) ∧ start { v50 with formatVersion := 0xFFFFFFFF } = (.opened, .none, 0) ∧
    start { v50 with bitsPerSample := 24 } = (.opened, .none, 0) ∧
    start { v50 with frameIndex := 2, nblocks := 2 } = (.opened, .none, 0) := by decide +kernel

/-- V50, the faulting lines. -/
theorem test_validation_order :
    start { v50 with formatVersion := 3989 } = (.err, .unsupportedVersion, 3989) ∧
    start { v50 with formatVersion := 3980, channels := 3 } = (.err, .unsupportedVersion, 3980) ∧
    start { v50 with channels := 0 } = (.err, .unsupportedConfiguration, 1) ∧
    start { v50 with bitsPerSample := 32 } = (.err, .unsupportedConfiguration, 2) ∧
    start { v50 with compressionLevel := 1500 } = (.err, .unsupportedConfiguration, 3) ∧
    start { v50 with blocksPerFrame := 0, frameIndex := 9 } = (.err, .invalidHeader, 1) ∧
    start { v50 with blocksPerFrame := 0x1000000 } = (.err, .invalidHeader, 1) ∧
    start { v50 with finalFrameBlocks := 5 } = (.err, .invalidHeader, 2) := by decide +kernel

/-- V50, the faulting lines, on. -/
theorem test_validation_order_2 :
    start { v50 with totalFrames := 0 } = (.err, .invalidHeader, 3) ∧
    start { v50 with startBit := 32 } = (.err, .invalidHeader, 4) ∧
    start { v50 with frameIndex := 3 } = (.err, .corruptFrame, 1) ∧
    start { v50 with frameIndex := 1, nblocks := 2 } = (.err, .corruptFrame, 2) ∧
    start { v50 with winLen := 0x100004 } = (.err, .unsupportedConfiguration, 4) ∧
    start { v50 with channels := 2, blocksPerFrame := 0x100000, nblocks := 0x100000 } =
      (.err, .unsupportedConfiguration, 5) := by decide +kernel

/-- V50, the faulting lines, the end. -/
theorem test_validation_order_3 :
    start { v50 with winLen := 4, winExpect := 12 } = (.err, .truncatedFrame, 1) ∧
    start { v50 with winLen := 4 } = (.err, .truncatedFrame, 2) ∧
    start { v50 with winLen := 8 } = (.err, .corruptBitstream, 1) ∧
    start { v50 with startBit := 31 } = (.err, .corruptBitstream, 1) := by decide +kernel

/-- A one-block frame with this flags byte (V43). -/
def flagged (ch : Word) (flags : Nat) : State :=
  after .frameStart (loaded ch 1000 1 [0, 0, 0, 0, flags, 0, 0, 0, 0, 0, 0, 0])

/-- V43, the accepted lines: `SILENT`, `FSTEREO`, `RCINIT`, `RC_POS`. -/
theorem test_flags_accepted :
    [flagged 1 0, flagged 1 1, flagged 2 0, flagged 2 3, flagged 2 4, flagged 2 5].map
      (fun s => (s.silent, s.fstereo, s.rcInit, s.rc.pos)) =
    [(false, false, true, 72), (true, false, false, 64), (false, false, true, 72), (true, false, false, 64),
      (false, true, true, 72), (true, true, false, 64)] := by decide +kernel

/-- V43, the faulting lines. -/
theorem test_flags_refused :
    [flagged 1 2, flagged 1 3, flagged 1 4, flagged 2 1, flagged 2 2, flagged 2 6, flagged 2 7, flagged 2 8].map errorOf =
    [(.err, .corruptFrame, 4), (.err, .corruptFrame, 4), (.err, .corruptFrame, 4), (.err, .corruptFrame, 4),
      (.err, .corruptFrame, 4), (.err, .corruptFrame, 4), (.err, .corruptFrame, 4), (.err, .corruptFrame, 3)] := by
  decide +kernel

/-- P1. -/
theorem test_frame_mono :
    let s := after .frame (loaded 1 1000 6 bytesP1)
    outWords 6 s = [100, 200, 300, 250, -50, -400] ∧ statusWord s = 0x22 ∧ s.frameCrc = 0xCAFEF00D ∧
    s.rc = ⟨0, 0x00800000, 152⟩ ∧ s.ch0.k = 9 ∧
    s.ch0.pred.a.map BitVec.toInt = [3, 0, -1, -2, -1] := by decide +kernel

/-- P3, the false-stereo frame; V41, the silent frame that follows it. -/
theorem test_frame_false_stereo_then_silent :
    let s := after .frame (loaded 2 1000 3 bytesP3)
    let t := after .frame { s with
      regs := { s.regs with blocksPerFrame := 2, finalFrameBlocks := 2, nblocks := 2, winLen := 8 }
      win := windowOf bytesV41 }
    outWords 6 s = [7, 7, -8, -8, 9, 9] ∧ statusWord s = 0x32 ∧ outWords 6 t = [0, 0, 0, 0, 9, 9] ∧
    statusWord t = 0x0A ∧ t.frameCrc = 0xDEADBEEF ∧ t.rc = ⟨0, 0, 64⟩ := by decide +kernel

/-! ## The range decoder -/

/-- V3: restarting after line 3 of V1. -/
theorem test_rcInit : (after .rcInit v1b).rc = ⟨0x78, 0x80, 104⟩ ∧ (after .rcInit v1b).res = 10 := by decide +kernel

/-- V1 lines 2 and 11: three bytes, none. -/
theorem test_rcNorm : v1n.rc = ⟨0x53123456, 0x80000000, 96⟩ ∧ after .rcNorm v1n = v1n := by decide +kernel

/-- V1 line 3. -/
theorem test_rcBits : v1b.rc = ⟨0x03123456, 0x08000000, 96⟩ ∧ v1b.res = 10 := by decide +kernel

/-- V6's parameters. -/
def paramsV6 : Config := { Config.standard with ovfCum := [0, 3, 65536] }

/-- V6's window. -/
def bytesV6 : List Nat := [0, 0, 0, 0, 0, 0, 0, 0, 0xFF, 0xFF, 0xFF, 0x7F, 0xFF, 0xFF, 0xFF, 0xFF]

/-- V6 after `FRAME_START`. -/
def v6start : State := after .frameStart { loaded 1 1000 1 bytesV6 with cfg := paramsV6 }

/-- V6 after `RC_SYM`. -/
def v6 : State := after .rcSym v6start

/-- V6: `CorruptBitstream(2)`. -/
theorem test_rcBits_corrupt : v6.res = 1 ∧ v6.rc.low = 0x7FFE7FFF ∧ v6.rc.range = 0x7FFE8000 ∧
    errorOf (after (.rcBits 16) v6) = (.err, .corruptBitstream, 2) := by decide +kernel

/-- V1 lines 4 and 5. -/
theorem test_rcSym : (after .rcSym v1b).rc = ⟨0x03123456, 0x04000000, 96⟩ ∧ (after .rcSym v1b).res = 0 ∧
    v1s.rc = ⟨0x00123456, 0x00800000, 96⟩ ∧ v1s.res = 2 := by decide +kernel

/-- V1 line 6. -/
theorem test_rcValue : v1v.rc = ⟨0x00045678, 0x00100000, 104⟩ ∧ v1v.res = 291 := by decide +kernel

/-- V5, second row: `k > 16` and the continuation symbol. -/
def v5 : State := opened 1 1000 1 [0, 0, 0, 0, 0, 0, 0, 0, 0xFF, 0xFF, 0xFF, 0x7F, 0x24, 0xAC, 0x68, 0xFC, 0, 0, 0, 0]

theorem test_rcValue_wide : (after (.rcValue 24) v5).res = 0x25123456 ∧
    (after (.rcValue 24) v5).rc = ⟨0, 0x00020000, 144⟩ := by decide +kernel

/-- V1 line 7: the value, its fold, `K`. -/
theorem test_entRes : (after (.entRes 0) v1v).res = 555 ∧ (after (.entRes 0) v1v).ch0.sample.toInt = -278 ∧
    (after (.entRes 0) v1v).ch0.k = 10 ∧ (after (.entRes 0) v1v).rc = ⟨0x0000789A, 0x00020000, 112⟩ := by
  decide +kernel

/-- V7. -/
theorem test_fold_adapt : [0, 1, 2, 3, 555, 0xFFFFFFFE, 0xFFFFFFFF].map fold =
      [0, -1, 1, -2, -278, 2147483647, -2147483648] ∧
    [adapt 24 10 511, adapt 24 10 512, adapt 24 10 2047, adapt 24 10 2048, adapt 24 0 1, adapt 24 0 2,
      adapt 24 24 (2 ^ 25)] = [9, 10, 10, 11, 0, 1, 24] := by decide +kernel

/-! ## The filters, the stereo stage, the output -/

/-- V20, steps 1 to 4, on the states the table gives before each. -/
def v20Step (h w : List Int) (x : Int) : Int × List Int :=
  let s := after (.nnfStep 0 0) { mono with
    ch0 := { mono.ch0 with sample := toWord x, nnf := [⟨h.map toWord, w.map toHalf⟩] } }
  (s.ch0.sample.toInt, ((s.ch0.nnf.head?.map Stage.w).getD []).map BitVec.toInt)

theorem test_nnfStep :
    v20Step [1000, 0, 0, 0, 0, 0, 0, 0] [0, 0, 0, 0, 0, 0, 0, 0] (-2000) = (-2000, [-1, 0, 0, 0, 0, 0, 0, 0]) ∧
    v20Step [3000, -2000, 1000, 0, 0, 0, 0, 0] [-2, 1, 0, 0, 0, 0, 0, 0] 3000 = (2996, [-1, 0, 1, 0, 0, 0, 0, 0]) ∧
    v20Step [2996, 3000, -2000, 1000, 0, 0, 0, 0] [-1, 0, 1, 0, 0, 0, 0, 0] 0 = (-3, [-1, 0, 1, 0, 0, 0, 0, 0]) := by
  decide +kernel

/-- V24: a stage or channel that does not exist. -/
theorem test_nnfStep_illegal : errorOf (after (.nnfStep 1 0) mono) = (.err, .illegalCommand, 0x20000100) ∧
    errorOf (after (.nnfStep 0 1) mono) = (.err, .illegalCommand, 0x20000001) := by decide +kernel

/-- V30 step 4, on the state the table gives before it: `A` and `B` part ways. -/
theorem test_predStep :
    let s := after (.predStep 0) { mono with
      ch0 := { mono.ch0 with
        sample := 2500
        pred := ⟨[0, -1, 0, 0, 0].map toWord, [0, -1, 0, 0, 0, 0, 0, 0].map toWord,
          [0, -3000, 2000, 1000, 0, 0, 0, 0].map toWord, [-4, -2997, 2000, 1000, 0].map toWord⟩ } }
    s.ch0.sample = 2505 ∧ s.ch0.pred.a.map BitVec.toInt = [-1, -2, 1, 1, 0] ∧
    s.ch0.pred.b.map BitVec.toInt = [0, -2, 1, 1, 0, 0, 0, 0] ∧ s.ch0.pred.y.head? = some 2500 ∧
    s.ch0.pred.z.head? = some 2505 := by decide +kernel

/-- V40: `S[0]`, `S[1]` after, or the error. -/
def v40 (x y : Int) : Phase × Int × Int × Word :=
  let s := after .stereoStep { stereoFrame with
    ch0 := { stereoFrame.ch0 with sample := toWord x }
    ch1 := { stereoFrame.ch1 with sample := toWord y } }
  if s.phase = .err then (.err, 0, 0, s.errInfo) else (s.phase, s.ch0.sample.toInt, s.ch1.sample.toInt, 0)

theorem test_stereoStep : v40 10 3 = (.opened, 12, 9, 0) ∧ v40 10 (-3) = (.opened, 9, 12, 0) ∧
    v40 0 (-2147483648) = (.opened, -1073741824, 1073741824, 0) ∧
    v40 (-2147483648) 1 = (.opened, -2147483647, -2147483648, 0) := by decide +kernel

theorem test_stereoStep_overflow : v40 2147483647 (-2) = (.err, 0, 0, 6) ∧ v40 (-2147483648) 2 = (.err, 0, 0, 6) := by
  decide +kernel

/-- V41 in step mode: `EMIT` of a silent frame; P3: both words from `S[0]`. -/
theorem test_emit : outWords 2 (after .emit silentFrame) = [0, 0] ∧ (after .emit silentFrame).bidx = 1 ∧
    outWords 2 (after .emit { falseStereo with ch0 := { falseStereo.ch0 with sample := 7 } }) = [7, 7] := by
  decide +kernel

/-- P2, last line: `EMIT` with `BIDX = NBLOCKS`. -/
theorem test_emit_illegal : errorOf (after .emit { mono with bidx := 100 }) = (.err, .illegalCommand, 0x41000000) := by
  decide +kernel

/-! ## The bus -/

/-- 70_reset_and_hazards.md R260: "a `FRAME` issued straight after reset faults with `UnsupportedVersion(0)`". -/
theorem test_frame_after_reset :
    errorOf (stepped (State.reset.withFetchWord 32 0x03000000)) = (.err, .unsupportedVersion, 0) := by decide +kernel

/-- The numbers of the table of R220. -/
theorem test_error_numbers :
    [.none, .io, .unsupportedVersion, .invalidHeader, .truncatedFrame, .corruptBitstream, .corruptFrame,
      .unsupportedConfiguration, .arithmeticOverflow, .illegalCommand].map errNumber =
    [0, 1, 2, 3, 4, 5, 6, 7, 8, 9] := by decide

/-- P4 steps 4 and 5: in `ERR` writes and every word but `SRESET` are ignored. -/
theorem test_err_ignores :
    let e := after .frame State.reset
    (stepped { e with bus := [.write (0x10000000 + 0x38) 4 20] }).regs.winLen = 0 ∧
    errorOf (stepped (e.withFetchWord 32 0x03000000)) = (.err, .unsupportedVersion, 0) ∧
    errorOf (stepped (e.withFetchWord 32 0x01000000)) = (.idle, .none, 0) := by decide +kernel

/-- V52. -/
theorem test_write_locks :
    (stepped { mono with bus := [.write (0x10000000 + 0x14) 4 2] }).regs.channels = 1 ∧
    winByte (stepped { mono with bus := [.write 0x20000000 4 0xFFFFFFFF] }).win 0 = 0 ∧
    (stepped { mono with bus := [.write (0x10000000 + 0x50) 4 0xFFFFFFFE] }).ch0.sample.toInt = -2 ∧
    (stepped { State.reset with bus := [.write (0x10000000 + 0x50) 4 5] }).ch0.sample = 0 ∧
    (stepped { State.reset with bus := [.write (0x10000000 + 0x14) 4 2] }).regs.channels = 2 := by decide +kernel

/-- R60 and R62: a word written to `WIN` lands least significant byte first, and reads back. -/
theorem test_window_word :
    let s := stepped { State.reset with bus := [.write 0x20000004 4 0x11223344] }
    (winByte s.win 4, winByte s.win 7) = (0x44, 0x11) ∧
    (stepped { s with bus := [.read 0x20000004 4] }).readData = 0x11223344 := by decide +kernel

/-- P1's `RD STATUS` and `RD` of `OUT` word 5. -/
theorem test_reads_after_frame :
    let s := after .frame (loaded 1 1000 6 bytesP1)
    (stepped { s with bus := [.read (0x10000000 + 0x04) 4] }).readData = 0x22 ∧
    (stepped { s with bus := [.read (0x30000000 + 4 * 5) 4] }).readData.toInt = -400 := by decide +kernel

/-! ## Witnesses: the hypotheses of each statement, met together -/

theorem exec_after {i : Instr} {s : State} (hi : i ≠ .sreset) (hp : s.phase ≠ .err) (hl : legal i s = true) :
    exec i s = .next (after i s) := by
  have h := exec_eq_issue hi s
  unfold issue at h
  rw [if_neg hp, if_pos hl] at h
  rw [after, h]

theorem body_after {i : Instr} {s : State} (hi : i ≠ .sreset) (hp : s.phase ≠ .err) (hl : legal i s = true)
    (ht : (after i s).phase ≠ .err) : body i s = .ok (after i s) := by
  have h := exec_after hi hp hl
  rw [exec_eq_issue hi] at h
  exact (issue_completes h ht).2.2

theorem windowOf_wf (bytes : List Nat) : (windowOf bytes).wf := by
  unfold windowOf Memory.wf
  rw [List.pairwise_map]
  exact List.pairwise_lt_range

/-- A loaded machine meets the invariant. -/
theorem loaded_inv (ch lvl nb : Word) {bytes : List Nat} (h : bytes.length ≤ 2 ^ 20) : (loaded ch lvl nb bytes).Inv := by
  refine ⟨(by decide : State.reset.cfg.Legal),
    ⟨windowOf_wf bytes, ?_, Nat.one_pos, List.Pairwise.nil, fun c hc => absurd hc List.not_mem_nil, Nat.one_pos⟩,
    (by decide : ErrorOk State.reset), (by decide : ChanOk State.reset.cfg State.reset.ch0),
    (by decide : ChanOk State.reset.cfg State.reset.ch1), fun h => Phase.noConfusion h⟩
  intro c hc
  simp only [loaded, windowOf, List.mem_map, List.mem_range] at hc
  obtain ⟨a, ha, rfl⟩ := hc
  exact Nat.lt_of_lt_of_le ha h

theorem opened_inv {ch lvl nb : Word} {bytes : List Nat} (h : bytes.length ≤ 2 ^ 20)
    (ho : (opened ch lvl nb bytes).phase = .opened) : OpenInv (opened ch lvl nb bytes) :=
  openInv_frameStart (loaded_inv ch lvl nb h) (fun h => Phase.noConfusion h)
    (body_after (i := .frameStart) (fun h => Instr.noConfusion h) (fun h => Phase.noConfusion h) rfl
      (by show (opened ch lvl nb bytes).phase ≠ .err; rw [ho]; exact fun h => Phase.noConfusion h))

theorem v1_open : OpenInv v1 := opened_inv (by decide) (by decide +kernel)

theorem mono_open : OpenInv mono := opened_inv (by decide) (by decide +kernel)

theorem stereo_open : OpenInv stereoFrame := opened_inv (by decide) (by decide +kernel)

theorem falseStereo_open : OpenInv falseStereo := opened_inv (by decide) (by decide +kernel)

theorem v5_open : OpenInv v5 := opened_inv (by decide) (by decide +kernel)

/-- An operation that completes from an open frame. -/
theorem body_open {i : Instr} {s : State} (hi : i ≠ .sreset) (h : OpenInv s) (hl : legal i s = true)
    (ht : (after i s).phase ≠ .err) : body i s = .ok (after i s) :=
  body_after hi (by rw [h.2]; exact fun h => Phase.noConfusion h) hl ht

theorem v1n_open : OpenInv v1n :=
  openInv_opRcNorm v1_open (by decide +kernel)
    (body_open (i := .rcNorm) (by decide) v1_open (by decide +kernel) (by decide +kernel))

theorem v1b_open : OpenInv v1b :=
  openInv_opRcBits v1n_open (by decide +kernel) (by decide)
    (body_open (i := .rcBits 4) (by decide) v1n_open (by decide +kernel) (by decide +kernel))

/-- V1 line 4. -/
def v1y : State := after .rcSym v1b

theorem v1y_open : OpenInv v1y :=
  openInv_opRcSym v1b_open (by decide +kernel)
    (body_open (i := .rcSym) (by decide) v1b_open (by decide +kernel) (by decide +kernel))

theorem v1s_open : OpenInv v1s :=
  openInv_opRcSym v1y_open (by decide +kernel)
    (body_open (i := .rcSym) (by decide) v1y_open (by decide +kernel) (by decide +kernel))

/-! ### Reset, encoding, errors, the whole machine -/

theorem witness_StepKeepsTheInvariant :
    (loaded 1 1000 6 bytesP1).Inv ∧ step (loaded 1 1000 6 bytesP1) = .next (loaded 1 1000 6 bytesP1) :=
  ⟨loaded_inv _ _ _ (by decide), step_of_idle (by decide) rfl⟩

theorem witness_NothingPendingNothingHappens : State.reset.cfg.Legal ∧ State.reset.bus = [] := by decide

theorem witness_HardwareResetFromEveryState : Pending { mono with bus := [.hardReset] } .hardReset [] :=
  ⟨mono_open.1.1, rfl⟩

theorem witness_DecodeOfEncode : (Instr.nnfStep 3 1).WellFormed ∧ (Instr.rcBits 31).WellFormed := by decide

theorem witness_EncodeOfDecode : decode 0x20000301#32 = .ok (.nnfStep 3 1) := by rfl

theorem witness_StepRunsTheDecodedOperation :
    let s := mono.withFetchWord 32 0x20000000
    Pending s (.write s.cfg.regBase 4 0x20000000) mono.bus ∧ decode 0x20000000#32 = .ok (.nnfStep 0 0) :=
  ⟨⟨mono_open.1.1, rfl⟩, rfl⟩

theorem witness_IllegalWordsRaiseIllegalCommand :
    let s := mono.withFetchWord 32 0x42000000
    Pending s (.write s.cfg.regBase 4 0x42000000) mono.bus ∧ s.phase ≠ .err ∧
    ∀ i, decode 0x42000000#32 = .ok i → ¬ Spec.Legal s i :=
  ⟨⟨mono_open.1.1, rfl⟩, by decide +kernel, fun i h => by cases i <;> cases h⟩

/-- One witness for each check: state, operand, unit. -/
theorem witness_IllegalOperationsRaiseIllegalCommand :
    State.reset.phase ≠ .err ∧ ¬ Spec.Legal State.reset .emit ∧ mono.phase ≠ .err ∧ ¬ Spec.Legal mono (.rcBits 17) ∧
    ¬ Spec.Legal mono (.rcValue 25) ∧ ¬ Spec.Legal mono (.predStep 1) ∧ silentFrame.phase ≠ .err ∧
    ¬ Spec.Legal silentFrame .rcInit ∧ ¬ Spec.Legal silentFrame (.entRes 0) := by
  refine ⟨by decide, fun h => ?_, by decide +kernel, fun h => ?_, fun h => ?_, fun h => ?_, by decide +kernel,
    fun h => ?_, fun h => ?_⟩
  · exact absurd h.1 (by decide)
  · exact absurd h.2.1 (by decide)
  · exact absurd h.2.1 (by decide +kernel)
  · exact absurd h.2 (by decide +kernel)
  · exact absurd h.2 (by decide +kernel)
  · exact absurd h.2.2 (by decide +kernel)

/-- One run for each kind an operation can record. -/
theorem witness_ErrorKindsComeFromTheListedOperations :
    (after .frame State.reset).errCode = .unsupportedVersion ∧
    (start { v50 with startBit := 32 }).2.1 = .invalidHeader ∧
    (start { v50 with winLen := 4 }).2.1 = .truncatedFrame ∧
    (start { v50 with winLen := 8 }).2.1 = .corruptBitstream ∧
    (start { v50 with frameIndex := 3 }).2.1 = .corruptFrame ∧
    (start { v50 with channels := 3 }).2.1 = .unsupportedConfiguration ∧
    (after .stereoStep { stereoFrame with
      ch0 := { stereoFrame.ch0 with sample := 0x7FFFFFFF }
      ch1 := { stereoFrame.ch1 with sample := 0xFFFFFFFE } }).errCode = .arithmeticOverflow ∧
    (after .emit State.reset).errCode = .illegalCommand ∧ State.reset.phase ≠ .err := by decide +kernel

theorem witness_ErrIgnoresEveryWordButSreset :
    let e := after .frame State.reset
    let s := e.withFetchWord 32 0x03000000
    Pending s (.write s.cfg.regBase 4 0x03000000) e.bus ∧ s.phase = .err ∧ 0x03000000#32 ≠ 0x01000000#32 ∧
    Pending (e.withFetchWord 32 0x01000000) (.write e.cfg.regBase 4 0x01000000) e.bus :=
  ⟨⟨by decide +kernel, rfl⟩, by decide +kernel, by decide, ⟨by decide +kernel, rfl⟩⟩

/-- One completion for each clause. -/
theorem witness_StateTransitions :
    (after .sreset mono).phase = .idle ∧ (after .emit (after .frame State.reset)).phase = .err ∧
    mono.phase = .opened ∧ (after .frame (loaded 1 1000 6 bytesP1)).phase = .done ∧
    (after .emit mono).phase = .opened ∧ (after .nop State.reset).phase = .idle := by decide +kernel

theorem witness_NoOperationChangesConfigurationOrWindow :
    exec .frame (loaded 1 1000 6 bytesP1) = .next (after .frame (loaded 1 1000 6 bytesP1)) :=
  exec_after (by decide) (by decide) (by decide)

/-! ### The range decoder -/

theorem witness_RcInitStartsTheDecoder :
    v1b.phase = .opened ∧ v1b.silent = false ∧ streamDefined v1b.view v1b.rc.pos.toNat 8 = true := by decide +kernel

/-- A window that ends with the first code byte. -/
def shortFrame : State := opened 1 1000 4 [0, 0, 0, 0, 0, 0, 0, 0, 0, 0, 0, 0x53]

/-- The window's last byte read: the decoder stands at its end. -/
def atEnd : State := after .rcNorm shortFrame

theorem shortFrame_open : OpenInv shortFrame := opened_inv (by decide) (by decide +kernel)

theorem atEnd_open : OpenInv atEnd :=
  openInv_opRcNorm shortFrame_open (by decide +kernel)
    (body_open (i := .rcNorm) (by decide) shortFrame_open (by decide +kernel) (by decide +kernel))

theorem witness_RcInitStartsTheDecoder_outside :
    atEnd.Inv ∧ atEnd.phase = .opened ∧ atEnd.silent = false ∧
    streamDefined atEnd.view atEnd.rc.pos.toNat 8 = false :=
  ⟨atEnd_open.1, atEnd_open.2, by decide +kernel, by decide +kernel⟩

/-- After sixteen raw bits of it the range is below `2^24` again. -/
def drained : State := after (.rcBits 16) atEnd

theorem drained_open : OpenInv drained :=
  openInv_opRcBits atEnd_open (by decide +kernel) (by decide)
    (body_open (i := .rcBits 16) (by decide) atEnd_open (by decide +kernel) (by decide +kernel))

theorem witness_RcNormNormalises_outside :
    drained.Inv ∧ drained.phase = .opened ∧ drained.rcInit = true ∧ ¬ Available drained.view drained.rc :=
  ⟨drained_open.1, drained_open.2, by decide +kernel, by decide +kernel⟩

theorem witness_RcNormNormalises : v1.Inv ∧ v1.phase = .opened ∧ v1.rcInit = true ∧ Available v1.view v1.rc :=
  ⟨v1_open.1, v1_open.2, by decide +kernel, by decide +kernel⟩

theorem witness_RcBitsDecodesRawBits :
    v1n.Inv ∧ v1n.phase = .opened ∧ v1n.rcInit = true ∧ 4 ≤ 16 ∧
    BitsAt v1n.view 4 v1n.rc 10 ⟨0x03123456, 0x08000000, 96⟩ ∧
    ∃ x r, BitsAt v1n.view 16 v1n.rc x r := by
  refine ⟨v1n_open.1, v1n_open.2, by decide +kernel, by decide, by unfold BitsAt; decide +kernel,
    place v1n.view v1n.rc 16, _, by decide +kernel, rfl, by decide +kernel, rfl⟩

/-- A symbol from the bounds of its entry. -/
theorem symbolAt_of_bounds {p : Config} {v : View} {r : RangeState} {y lo hi : Nat} (ha : Available v r)
    (h1 : p.ovfCum[y]? = some lo) (h2 : p.ovfCum[y + 1]? = some hi) (h3 : lo ≤ place v r p.ovfShift)
    (h4 : place v r p.ovfShift < hi) : SymbolAt p v r y (taken v r p.ovfShift lo (hi - lo)) :=
  ⟨ha, lo, hi, h1, h2, h3, h4, rfl⟩

theorem witness_RcSymDecodesAnOverflowSymbol :
    v1y.Inv ∧ v1y.phase = .opened ∧ v1y.rcInit = true ∧
    SymbolAt v1y.cfg v1y.view v1y.rc 2 ⟨0x00123456, 0x00800000, 96⟩ :=
  ⟨v1y_open.1, v1y_open.2, by decide +kernel, by decide +kernel, 49152, 57344, by decide +kernel, by decide +kernel,
    by decide +kernel, by decide +kernel, by decide +kernel⟩

theorem v6start_open : OpenInv v6start :=
  openInv_frameStart (s := { loaded 1 1000 1 bytesV6 with cfg := paramsV6 })
    ⟨by decide, by decide, by decide, by decide, by decide, fun h => Phase.noConfusion h⟩ (by decide)
    (body_after (i := .frameStart) (by decide) (by decide) (by decide)
      (by show v6start.phase ≠ .err; decide +kernel))

theorem v6_open : OpenInv v6 :=
  openInv_opRcSym v6start_open (by decide +kernel)
    (body_open (i := .rcSym) (by decide) v6start_open (by decide +kernel) (by decide +kernel))

/-- The two errors: past the last interval (V6), past the window's end. -/
theorem witness_RcBitsDecodesRawBits_fails :
    v6.Inv ∧ v6.phase = .opened ∧ v6.rcInit = true ∧ 16 ≤ 16 ∧ BitsFail v6.view 16 v6.rc 2 ∧
    drained.Inv ∧ drained.rcInit = true ∧ BitsFail drained.view 16 drained.rc 1 :=
  ⟨v6_open.1, v6_open.2, by decide +kernel, by decide, .inr ⟨by decide +kernel, by decide +kernel, rfl⟩, drained_open.1,
    by decide +kernel, .inl ⟨by decide +kernel, rfl⟩⟩

/-- The two errors of a symbol. -/
theorem witness_RcSymDecodesAnOverflowSymbol_fails :
    SymbolFails v6.cfg v6.view v6.rc 2 ∧ SymbolFails drained.cfg drained.view drained.rc 1 :=
  ⟨.inr ⟨by decide +kernel, by decide +kernel, rfl⟩, .inl ⟨by decide +kernel, rfl⟩⟩

/-- `k = 0` and `0 < k ≤ 16`. -/
theorem witness_RcValueDecodesCountThenBits :
    v1s.Inv ∧ v1s.phase = .opened ∧ v1s.rcInit = true ∧ 10 ≤ v1s.cfg.kMax ∧
    (∃ x r, ValueAt v1s.cfg v1s.view 0 v1s.rc x r) ∧ ∃ x r, ValueAt v1s.cfg v1s.view 10 v1s.rc x r := by
  have hsym : SymbolAt v1s.cfg v1s.view v1s.rc 0 _ := symbolAt_of_bounds (lo := 0) (hi := 32768) (by decide +kernel)
    (by decide +kernel) (by decide +kernel) (by decide +kernel) (by decide +kernel)
  have hcount := CountAt.stop hsym (by decide +kernel)
  refine ⟨v1s_open.1, v1s_open.2, by decide +kernel, by decide +kernel, ?_, ?_⟩
  · exact ⟨_, _, 0, 0, _, hcount, by decide, .inl ⟨rfl, rfl, rfl⟩, rfl⟩
  · exact ⟨_, _, 0, _, _, hcount, by decide, .inr (.inl ⟨by decide, by decide, by decide +kernel, rfl,
      by decide +kernel, rfl⟩), rfl⟩

/-- `k > 16` and the continuation symbol (V5, second row). -/
theorem witness_RcValueDecodesCountThenBits_wide :
    v5.Inv ∧ v5.phase = .opened ∧ v5.rcInit = true ∧ 24 ≤ v5.cfg.kMax ∧
    ∃ x r, ValueAt v5.cfg v5.view 24 v5.rc x r := by
  have h1 : SymbolAt v5.cfg v5.view v5.rc 16 _ := symbolAt_of_bounds (lo := 65535) (hi := 65536) (by decide +kernel)
    (by decide +kernel) (by decide +kernel) (by decide +kernel) (by decide +kernel)
  have h2 : SymbolAt v5.cfg v5.view _ 16 _ := symbolAt_of_bounds
    (r := taken v5.view v5.rc v5.cfg.ovfShift 65535 (65536 - 65535)) (lo := 65535) (hi := 65536) (by decide +kernel)
    (by decide +kernel) (by decide +kernel) (by decide +kernel) (by decide +kernel)
  have h3 : SymbolAt v5.cfg v5.view _ 5 _ := symbolAt_of_bounds
    (r := taken v5.view (taken v5.view v5.rc v5.cfg.ovfShift 65535 (65536 - 65535)) v5.cfg.ovfShift 65535
      (65536 - 65535)) (lo := 63488) (hi := 64512) (by decide +kernel)
    (by decide +kernel) (by decide +kernel) (by decide +kernel) (by decide +kernel)
  have hcount := CountAt.go h1 (.go h2 (.stop h3 (by decide +kernel)))
  exact ⟨v5_open.1, v5_open.2, by decide +kernel, by decide +kernel, _, _, _, _, _, hcount, by decide +kernel,
    .inr (.inr ⟨by decide, _, _, _, ⟨by decide +kernel, rfl, by decide +kernel, rfl⟩,
      ⟨by decide +kernel, rfl, by decide +kernel, rfl⟩, rfl⟩), rfl⟩

/-- `K_MAX = 31`. -/
def paramsWide : Config := { Config.standard with kMax := 31 }

/-- V1 line 4 with `K_MAX = 31`: the next symbol is 2. -/
def wide : State := { v1y with cfg := paramsWide }

theorem wide_open : OpenInv wide := by
  obtain ⟨⟨h1, h2, h3, h4, h5, h6⟩, hp⟩ := v1y_open
  exact ⟨⟨by decide +kernel, h2, h3, by decide +kernel, by decide +kernel, fun _ => h6 hp⟩, hp⟩

/-- The smallest value that leaves 32 bits, `2 * 2^31`; a symbol that fails; refinement bits that fail. -/
theorem witness_RcValueDecodesCountThenBits_fails :
    wide.Inv ∧ wide.phase = .opened ∧ wide.rcInit = true ∧ 31 ≤ wide.cfg.kMax ∧
    ValueFails wide.cfg wide.view 31 wide.rc 3 ∧ ValueFails drained.cfg drained.view 0 drained.rc 1 ∧
    ValueFails atEnd.cfg atEnd.view 24 atEnd.rc 1 := by
  refine ⟨wide_open.1, wide_open.2, by decide +kernel, by decide +kernel, .inl ⟨0, _, .none, .inr ⟨2, _,
    symbolAt_of_bounds (lo := 49152) (hi := 57344) (by decide +kernel) (by decide +kernel) (by decide +kernel)
      (by decide +kernel) (by decide +kernel), by decide, rfl⟩⟩,
    .inl ⟨0, _, .none, .inl ⟨by decide, .inl ⟨by decide +kernel, rfl⟩⟩⟩, .inr ⟨1, _, .stop (symbolAt_of_bounds
      (lo := 32768) (hi := 49152) (by decide +kernel) (by decide +kernel) (by decide +kernel) (by decide +kernel)
      (by decide +kernel)) (by decide +kernel), by decide, .inr ⟨by decide, .inr ⟨_, _, ⟨by decide +kernel, rfl,
      by decide +kernel, rfl⟩, .inl ⟨by decide +kernel, rfl⟩⟩⟩⟩⟩

theorem witness_RcValueAlwaysEnds : v1s.Inv ∧ v1s.phase = .opened ∧ v1s.rcInit = true ∧ 24 ≤ v1s.cfg.kMax :=
  ⟨v1s_open.1, v1s_open.2, by decide +kernel, by decide +kernel⟩

theorem witness_EntResDecodesAResidual :
    v1s.Inv ∧ v1s.phase = .opened ∧ v1s.rcInit = true ∧ 0 < v1s.ncoded ∧ (v1s.chan 0).k = 10 ∧
    ∃ x r, ValueAt v1s.cfg v1s.view 10 v1s.rc x r :=
  ⟨v1s_open.1, v1s_open.2, by decide +kernel, by decide +kernel, by decide +kernel,
    witness_RcValueDecodesCountThenBits.2.2.2.2.2⟩

/-- A longer window with the same bytes up to the decoder's position. -/
theorem witness_DecoderReadsNoByteBeyondItsPosition :
    v1.Inv ∧ v1.phase = .opened ∧ exec .rcNorm v1 = .next v1n ∧ v1n.phase ≠ .err ∧
    ∀ j, 8 * j < v1n.rc.pos.toNat → insideWindow v1.view j = true →
      insideWindow ⟨windowOf (bytesV1 ++ zeros 4), 24⟩ j = true ∧
      viewByte ⟨windowOf (bytesV1 ++ zeros 4), 24⟩ j = viewByte v1.view j := by
  refine ⟨v1_open.1, v1_open.2, exec_after (by decide) (by decide +kernel) (by decide +kernel), by decide +kernel, ?_⟩
  intro j hj
  have h96 : v1n.rc.pos.toNat = 96 := by decide +kernel
  have h12 : j < 12 := by omega
  clear hj h96
  revert j
  decide +kernel

theorem witness_FoldIsAnInjectionIntoI32 : 0xFFFFFFFF < 2 ^ 32 ∧ 0xFFFFFFFE < 2 ^ 32 := by decide

theorem witness_RangeDecoderInvariantIsKept :
    v1.Inv ∧ exec .rcNorm v1 = .next v1n ∧ v1n.phase = .opened ∧ v1n.rcInit = true :=
  ⟨v1_open.1, exec_after (by decide) (by decide +kernel) (by decide +kernel), v1n_open.2, by decide +kernel⟩

/-- Each of the six operations completes from an open frame. -/
theorem witness_RangeDecoderOperationsFrame :
    v1s.phase = .opened ∧ (after .rcInit v1s).phase ≠ .err ∧ (after .rcNorm v1s).phase ≠ .err ∧
    (after (.rcBits 16) v1s).phase ≠ .err ∧ (after .rcSym v1s).phase ≠ .err ∧ (after (.rcValue 10) v1s).phase ≠ .err ∧
    (after (.entRes 0) v1s).phase ≠ .err := by decide +kernel

/-! ### The filters, the stereo stage, the output -/

/-- V20 step 3: the stage before it. -/
def stage20 : Stage := ⟨[3000, -2000, 1000, 0, 0, 0, 0, 0].map toWord, [-2, 1, 0, 0, 0, 0, 0, 0].map toHalf⟩

/-- The mono frame with a first stage and a sample. -/
def withStage (q : Stage) (x : Word) : State := mono.setChan 0 { mono.ch0 with sample := x, nnf := [q] }

theorem withStage_open {q : Stage} (hh : q.h.length = 8) (hw : q.w.length = 8) (x : Word) : OpenInv (withStage q x) := by
  refine openInv_setChan mono_open (by decide +kernel : ChanOk mono.cfg mono.ch0) ?_
  have : mono.row = [⟨8, 11⟩] := by decide +kernel
  simp [BankOk, this, hh, hw]

theorem withStage_get (q : Stage) (x : Word) :
    (withStage q x).phase = .opened ∧ 0 < (withStage q x).ncoded ∧ (withStage q x).row[0]? = some ⟨8, 11⟩ ∧
    ((withStage q x).chan 0).nnf[0]? = some q ∧ ((withStage q x).chan 0).sample = x := by
  refine ⟨mono_open.2, ?_, ?_, rfl, rfl⟩
  · exact (by decide +kernel : 0 < mono.ncoded)
  · exact (by decide +kernel : mono.row[0]? = some ⟨8, 11⟩)

theorem witness_NnfStepFiltersOneSample :
    (withStage stage20 3000).Inv ∧ (withStage stage20 3000).phase = .opened ∧ 0 < (withStage stage20 3000).ncoded ∧
    (withStage stage20 3000).row[0]? = some ⟨8, 11⟩ ∧ ((withStage stage20 3000).chan 0).nnf[0]? = some stage20 ∧
    ((withStage stage20 3000).chan 0).sample = 3000 ∧
    Fits 32 (stageOut ⟨8, 11⟩ stage20 3000) ∧ ∀ j < 8, Fits 16 (stageWeight stage20 3000 j) :=
  ⟨(withStage_open (by decide) (by decide) _).1, (withStage_get _ _).1, (withStage_get _ _).2.1,
    (withStage_get _ _).2.2.1, (withStage_get _ _).2.2.2.1, (withStage_get _ _).2.2.2.2, by decide +kernel,
    by decide +kernel⟩

/-- V22, before the overflow. -/
def stage22 : Stage := ⟨[0x40000000, 0x40000000, 0, 0, 0, 0, 0, 0], [1, 0, 0, 0, 0, 0, 0, 0]⟩

theorem witness_NnfStepFiltersOneSample_output :
    (withStage stage22 0x7FFFFFFF).Inv ∧ ((withStage stage22 0x7FFFFFFF).chan 0).nnf[0]? = some stage22 ∧
    ¬ Fits 32 (stageOut ⟨8, 11⟩ stage22 0x7FFFFFFF) :=
  ⟨(withStage_open (by decide) (by decide) _).1, rfl, by decide +kernel⟩

/-- A weight at its largest. -/
def stage23 : Stage := ⟨[1, 0, 0, 0, 0, 0, 0, 0], [0x7FFF, 0, 0, 0, 0, 0, 0, 0]⟩

theorem witness_NnfStepFiltersOneSample_weight :
    (withStage stage23 1).Inv ∧ ((withStage stage23 1).chan 0).nnf[0]? = some stage23 ∧
    Fits 32 (stageOut ⟨8, 11⟩ stage23 1) ∧ ¬ ∀ j < 8, Fits 16 (stageWeight stage23 1 j) :=
  ⟨(withStage_open (by decide) (by decide) _).1, rfl, by decide +kernel, by decide +kernel⟩

/-- The largest order, and a stage of an open frame. -/
theorem witness_NnfAccumulatorStaysInRange :
    (List.replicate 1024 (0 : Half)).length ≤ 1024 ∧ (List.replicate 1024 (0 : Word)).length ≤ 1024 ∧
    (withStage stage20 3000).Inv ∧ (withStage stage20 3000).phase = .opened ∧
    stage20 ∈ ((withStage stage20 3000).chan 0).nnf :=
  ⟨(List.length_replicate).le, (List.length_replicate).le, (withStage_open (by decide) (by decide) _).1,
    (withStage_get _ _).1, List.mem_singleton.2 rfl⟩

/-- V20 step 3 read forward: `y = 2996` leaves the residual 3000. -/
theorem witness_NnfStageInvertsTheForwardStage :
    stage20.h.length = 8 ∧ stage20.w.length = 8 ∧
    (3000 : Word).toInt = (2996 : Word).toInt - Int.fdiv (weighted 8 stage20.w stage20.h) ((2 : Int) ^ 11) ∧
    ∀ j < 8, Fits 16 (stageWeight stage20 3000 j) := by decide +kernel

/-- The mono frame with a predictor and a sample. -/
def withPred (q : Predictor) (y : Word) : State := mono.setChan 0 { mono.ch0 with sample := y, pred := q }

theorem withPred_open {q : Predictor} (ha : q.a.length = 5) (hb : q.b.length = 8) (hy : q.y.length = 8)
    (hz : q.z.length = 5) (y : Word) : OpenInv (withPred q y) := by
  have hny : mono.cfg.predNY = 8 := by decide +kernel
  have hnz : mono.cfg.predNZ = 5 := by decide +kernel
  refine openInv_setChan mono_open ⟨(by decide +kernel : mono.ch0.k ≤ mono.cfg.kMax), ?_⟩ (chanOk_of_open mono_open 0).2
  rw [hny, hnz]
  exact ⟨ha, hb, hy, hz⟩

theorem withPred_get (q : Predictor) (y : Word) :
    (withPred q y).phase = .opened ∧ 0 < (withPred q y).ncoded ∧ (withPred q y).cfg = Config.standard ∧
    ((withPred q y).chan 0).pred = q ∧ ((withPred q y).chan 0).sample = y :=
  ⟨mono_open.2, (by decide +kernel : 0 < mono.ncoded), (by decide +kernel : mono.cfg = Config.standard), rfl, rfl⟩

/-- V30 step 4: the predictor before it. -/
def pred30 : Predictor := ⟨[0, -1, 0, 0, 0].map toWord, [0, -1, 0, 0, 0, 0, 0, 0].map toWord,
  [0, -3000, 2000, 1000, 0, 0, 0, 0].map toWord, [-4, -2997, 2000, 1000, 0].map toWord⟩

theorem witness_PredStepPredictsOneSample :
    (withPred pred30 2500).Inv ∧ Fits 64 (predAcc Config.standard pred30) ∧
    Fits 32 (predOut Config.standard pred30 2500) ∧ PredFits Config.standard pred30 2500 :=
  ⟨(withPred_open (by decide) (by decide) (by decide) (by decide) _).1, by decide +kernel, by decide +kernel,
    by decide +kernel⟩

/-- Site 5: two products of `2^62` are enough. -/
def pred5 : Predictor := ⟨[0x80000000, 0x80000000, 0, 0, 0], List.replicate 8 0, List.replicate 8 0,
  [0x80000000, 0x80000000, 0, 0, 0]⟩

theorem witness_PredStepPredictsOneSample_accumulator :
    (withPred pred5 0).Inv ∧ ¬ Fits 64 (predAcc Config.standard pred5) :=
  ⟨(withPred_open (by decide) (by decide) (by decide) (by decide) _).1, by decide +kernel⟩

/-- Site 3: `1024 >> 10` on top of the largest sample. -/
def pred3 : Predictor := ⟨[1024, 0, 0, 0, 0], List.replicate 8 0, List.replicate 8 0, [1, 0, 0, 0, 0]⟩

theorem witness_PredStepPredictsOneSample_output :
    (withPred pred3 0x7FFFFFFF).Inv ∧ Fits 64 (predAcc Config.standard pred3) ∧
    ¬ Fits 32 (predOut Config.standard pred3 0x7FFFFFFF) :=
  ⟨(withPred_open (by decide) (by decide) (by decide) (by decide) _).1, by decide +kernel, by decide +kernel⟩

/-- Site 4: a coefficient at its largest. -/
def pred4 : Predictor := ⟨[0x7FFFFFFF, 0, 0, 0, 0], List.replicate 8 0, List.replicate 8 0, [1, 0, 0, 0, 0]⟩

theorem witness_PredStepPredictsOneSample_coefficient :
    (withPred pred4 1).Inv ∧ Fits 64 (predAcc Config.standard pred4) ∧ Fits 32 (predOut Config.standard pred4 1) ∧
    ¬ PredFits Config.standard pred4 1 :=
  ⟨(withPred_open (by decide) (by decide) (by decide) (by decide) _).1, by decide +kernel, by decide +kernel,
    fun h => absurd (h.1 0 (by decide)) (by decide +kernel)⟩

/-- V30 step 4 read forward: `z = 2505` leaves 2500. -/
theorem witness_PredictorInvertsTheForwardPredictor :
    pred30.a.length = 5 ∧ pred30.z.length = 5 ∧ pred30.b.length = 8 ∧ pred30.y.length = 8 ∧
    Fits 64 (predAcc Config.standard pred30) ∧
    (2500 : Word).toInt = (2505 : Word).toInt - Int.fdiv (predAcc Config.standard pred30) ((2 : Int) ^ 10) ∧
    PredFits Config.standard pred30 2500 := by decide +kernel

/-- Both clauses: V40's first row and its last. -/
theorem witness_StereoStepDecorrelates :
    stereoFrame.phase = .opened ∧ stereoFrame.regs.channels = 2 ∧ stereoFrame.fstereo = false ∧
    Fits 32 (stereoRight 10 3) ∧ Fits 32 (stereoLeft 10 3) ∧ ¬ Fits 32 (stereoRight 0x80000000 2) ∧
    ¬ Fits 32 (stereoRight 0x7FFFFFFF 0xFFFFFFFE) ∧ mono.phase = .opened ∧ mono.regs.channels ≠ 2 ∧
    falseStereo.phase = .opened ∧ falseStereo.fstereo = true := by decide +kernel

theorem witness_StereoInvertsMidSide :
    (100 : Word).toInt = (1000 : Word).toInt - (900 : Word).toInt ∧
    (950 : Word).toInt = (900 : Word).toInt + Int.fdiv (100 : Word).toInt 2 := by decide +kernel

/-- Each of the three operations completes from an open frame. -/
theorem witness_FilterOperationsFrame :
    stereoFrame.phase = .opened ∧ (after (.nnfStep 0 1) stereoFrame).phase ≠ .err ∧
    (after (.predStep 1) stereoFrame).phase ≠ .err ∧ (after .stereoStep stereoFrame).phase ≠ .err := by decide +kernel

/-- One channel, two channels, false stereo. -/
theorem witness_EmitWritesTheBlock :
    (mono.Inv ∧ mono.phase = .opened ∧ mono.bidx.toNat < mono.regs.nblocks.toNat ∧ mono.regs.channels = 1) ∧
    (stereoFrame.Inv ∧ stereoFrame.phase = .opened ∧ stereoFrame.bidx.toNat < stereoFrame.regs.nblocks.toNat ∧
      stereoFrame.regs.channels = 2 ∧ stereoFrame.fstereo = false) ∧
    falseStereo.Inv ∧ falseStereo.phase = .opened ∧ falseStereo.bidx.toNat < falseStereo.regs.nblocks.toNat ∧
    falseStereo.regs.channels = 2 ∧ falseStereo.fstereo = true :=
  ⟨⟨mono_open.1, mono_open.2, by decide +kernel, by decide +kernel⟩,
    ⟨stereo_open.1, stereo_open.2, by decide +kernel, by decide +kernel, by decide +kernel⟩,
    falseStereo_open.1, falseStereo_open.2, by decide +kernel, by decide +kernel, by decide +kernel⟩

/-- After the last block. -/
theorem witness_EmitWritesTheBlock_full :
    (after .emit (after .emit silentFrame)).phase = .opened ∧
    silentFrame.regs.nblocks.toNat ≤ (after .emit (after .emit silentFrame)).bidx.toNat := by decide +kernel

/-! ### Frames -/

/-- V50's base: it completes, and the errors of `startError`, each at the boundary V50 names. -/
def startState (g : ConfigRegs) : State := { State.reset with regs := g, win := windowOf (zeros 12) }

theorem witness_FrameStartValidatesAndStarts :
    (startState v50).phase ≠ .err ∧ startError (startState v50) = none ∧
    startError (startState { v50 with formatVersion := 3989 }) = some ⟨.unsupportedVersion, 3989⟩ ∧
    startError (startState { v50 with channels := 3 }) = some ⟨.unsupportedConfiguration, 1⟩ ∧
    startError (startState { v50 with blocksPerFrame := 0x1000000 }) = some ⟨.invalidHeader, 1⟩ ∧
    startError (startState { v50 with finalFrameBlocks := 5 }) = some ⟨.invalidHeader, 2⟩ ∧
    startError (startState { v50 with startBit := 32 }) = some ⟨.invalidHeader, 4⟩ ∧
    startError (startState { v50 with frameIndex := 3 }) = some ⟨.corruptFrame, 1⟩ ∧
    startError (startState { v50 with frameIndex := 1, nblocks := 2 }) = some ⟨.corruptFrame, 2⟩ ∧
    startError (startState { v50 with winLen := 0x100004 }) = some ⟨.unsupportedConfiguration, 4⟩ := by decide +kernel

theorem witness_FrameStartValidatesAndStarts_header :
    startError (startState { v50 with winLen := 4, winExpect := 12 }) = some ⟨.truncatedFrame, 1⟩ ∧
    startError (startState { v50 with winLen := 4 }) = some ⟨.truncatedFrame, 2⟩ ∧
    startError (startState { v50 with winLen := 8 }) = some ⟨.corruptBitstream, 1⟩ ∧
    startError (loaded 1 1000 1 [0, 0, 0, 0, 2, 0, 0, 0, 0, 0, 0, 0]) = some ⟨.corruptFrame, 4⟩ ∧
    startError (loaded 2 1000 1 [0, 0, 0, 0, 1, 0, 0, 0, 0, 0, 0, 0]) = some ⟨.corruptFrame, 4⟩ ∧
    startError (loaded 2 1000 1 [0, 0, 0, 0, 8, 0, 0, 0, 0, 0, 0, 0]) = some ⟨.corruptFrame, 3⟩ := by decide +kernel

theorem witness_SilentFrameDecodesToZeros :
    (loaded 2 1000 2 bytesV41).phase ≠ .err ∧ startError (loaded 2 1000 2 bytesV41) = none ∧
    headerSilence (loaded 2 1000 2 bytesV41) ≠ 0 := by decide +kernel

/-- A window that ends before the second block's residual. -/
theorem witness_FrameReportsTheFirstEntropyError :
    (loaded 1 1000 2 (zeros 12)).phase ≠ .err ∧ startError (loaded 1 1000 2 (zeros 12)) = none ∧
    headerSilence (loaded 1 1000 2 (zeros 12)) = 0 ∧
    ((nextOf (runOps [.entRes 0, .entRes 0] (started (loaded 1 1000 2 (zeros 12))))).map State.phase = some .err) := by
  decide +kernel

theorem witness_StepModeFollowsFrame :
    (loaded 1 1000 6 bytesP1).Inv ∧ (loaded 1 1000 6 bytesP1).phase ≠ .err ∧
    exec .frame (loaded 1 1000 6 bytesP1) = .next (after .frame (loaded 1 1000 6 bytesP1)) ∧
    (after .frame (loaded 1 1000 6 bytesP1)).phase ≠ .err :=
  ⟨loaded_inv _ _ _ (by decide), by decide, exec_after (by decide) (by decide) (by decide), by decide +kernel⟩

theorem next_of_phase {o : Host.Outcome State Fault Refusal} {p : Phase} (h : (nextOf o).map State.phase = some p) :
    ∃ b, o = .next b ∧ b.phase = p := by
  cases o with
  | next t => exact ⟨t, rfl, by simpa [nextOf] using h⟩
  | fault f => simp [nextOf] at h
  | refused r => simp [nextOf] at h

/-- A one-block frame on zeros (V42) in step mode. -/
def oneBlock : State := loaded 1 1000 1 (zeros 12)

theorem witness_FrameFollowsStepMode :
    oneBlock.Inv ∧ oneBlock.phase ≠ .err ∧ exec .frameStart oneBlock = .next (after .frameStart oneBlock) ∧
    (after .frameStart oneBlock).phase = .opened ∧
    ∃ b, runBlocks oneBlock.regs.nblocks.toNat (after .frameStart oneBlock) = .next b ∧ b.phase = .opened := by
  exact ⟨loaded_inv _ _ _ (by decide), by decide, exec_after (by decide) (by decide) (by decide), by decide +kernel,
    next_of_phase (by decide +kernel)⟩

theorem witness_CompletedFrameWritesExactlyItsWords :
    (loaded 2 1000 3 bytesP3).Inv ∧ (loaded 2 1000 3 bytesP3).phase ≠ .err ∧
    exec .frame (loaded 2 1000 3 bytesP3) = .next (after .frame (loaded 2 1000 3 bytesP3)) ∧
    (after .frame (loaded 2 1000 3 bytesP3)).phase ≠ .err :=
  ⟨loaded_inv _ _ _ (by decide), by decide, exec_after (by decide) (by decide) (by decide), by decide +kernel⟩

theorem witness_FalseStereoDuplicatesChannelZero :
    (loaded 2 1000 3 bytesP3).phase ≠ .err ∧ (after .frame (loaded 2 1000 3 bytesP3)).phase ≠ .err ∧
    headerFalseStereo (loaded 2 1000 3 bytesP3) = true := by decide +kernel

/-- Two machines with the same configuration and window bytes, else different. -/
theorem witness_FrameDependsOnlyOnConfigurationAndWindow :
    let s := loaded 1 1000 6 bytesP1
    let t := { s with phase := .done, bidx := 9, rc := ⟨1, 2, 3⟩, win := windowOf (bytesP1 ++ zeros 4) }
    s.phase ≠ .err ∧ t.phase ≠ .err ∧ s.regs = t.regs ∧ s.cfg = t.cfg ∧
    (∀ a < s.regs.winLen.toNat, winByte s.win a = winByte t.win a) ∧ exec .frame s = .next (after .frame s) ∧
    exec .frame t = .next (after .frame t) :=
  ⟨by decide, by decide, rfl, rfl, by decide +kernel, exec_after (by decide) (by decide) (by decide),
    exec_after (by decide) (by decide) (by decide)⟩

/-! ### The memories and the bus -/

/-- A write in `IDLE` and one in `OPEN`; the last word of `WIN`. -/
theorem witness_WindowWriteIsTheViewWord :
    4 * 262143 < State.reset.cfg.winCap ∧
    Pending { State.reset with bus := [.write (0x20000000 + 4 * 262143) 4 7] } (.write (0x20000000 + 4 * 262143) 4 7) [] ∧
    State.reset.phase = .idle ∧ Pending { mono with bus := [.write 0x20000000 4 7] } (.write 0x20000000 4 7) [] ∧
    mono.phase = .opened :=
  ⟨by decide, ⟨by decide, rfl⟩, rfl, ⟨mono_open.1.1, rfl⟩, mono_open.2⟩

theorem witness_MemoryReadsReturnTheContents :
    4 * 1 < State.reset.cfg.winCap ∧ 1 < State.reset.cfg.outCap ∧ State.reset.phase ≠ .err ∧
    Pending { State.reset with bus := [.read 0x20000004 4] } (.read 0x20000004 4) [] ∧
    Pending { State.reset with bus := [.read 0x30000004 4] } (.read 0x30000004 4) [] ∧
    Pending { State.reset with bus := [.write 0x30000004 4 7] } (.write 0x30000004 4 7) [] :=
  ⟨by decide, by decide, by decide, ⟨by decide, rfl⟩, ⟨by decide, rfl⟩, ⟨by decide, rfl⟩⟩

/-- The first and the last configuration register, unlocked and locked. -/
theorem witness_ConfigurationWritesReadBackOrAreLocked :
    Pending { State.reset with bus := [.write (0x10000000 + 0x10 + 4 * 0) 4 7] }
      (.write (0x10000000 + 0x10 + 4 * 0) 4 7) [] ∧ State.reset.phase = .idle ∧
    Pending { mono with bus := [.write (0x10000000 + 0x10 + 4 * 11) 4 7] } (.write (0x10000000 + 0x10 + 4 * 11) 4 7) [] ∧
    mono.phase = .opened :=
  ⟨⟨by decide, rfl⟩, rfl, ⟨mono_open.1.1, rfl⟩, mono_open.2⟩

theorem witness_SampleWritesOnlyInOpenAndReadOnlyWritesIgnored :
    (∀ off ∈ [0x50, 0x54, 0x04, 0x0C, 0x40, 0x4C, 0x58, 0xFC], off < 0x100 ∧ off % 4 = 0 ∧
      Pending { mono with bus := [.write (0x10000000 + off) 4 7] } (.write (0x10000000 + off) 4 7) []) ∧
    mono.phase = .opened ∧ State.reset.phase ≠ .opened := by
  refine ⟨fun off h => ⟨?_, ?_, mono_open.1.1, rfl⟩, mono_open.2, by decide⟩ <;> revert off <;> decide

theorem witness_StatusRegisterFields :
    Pending { mono with bus := [.read (0x10000000 + 0x04) 4] } (.read (0x10000000 + 0x04) 4) [] := ⟨mono_open.1.1, rfl⟩

theorem witness_RegisterReads :
    ∀ off ∈ [0x00, 0x08, 0x0C, 0x70, 0xFC, 0x40, 0x44, 0x48, 0x4C, 0x50, 0x54, 0x58, 0x5C, 0x60, 0x68, 0x6C],
      Pending { mono with bus := [.read (0x10000000 + off) 4] } (.read (0x10000000 + off) 4) [] ∧ mono.phase ≠ .err :=
  fun _ _ => ⟨⟨mono_open.1.1, rfl⟩, by rw [mono_open.2]; decide⟩

theorem witness_ConfigurationReadsInEveryState :
    ([mono.regs.formatVersion, mono.regs.channels, mono.regs.bitsPerSample, mono.regs.compressionLevel,
      mono.regs.blocksPerFrame, mono.regs.finalFrameBlocks, mono.regs.totalFrames, mono.regs.frameIndex,
      mono.regs.nblocks, mono.regs.startBit, mono.regs.winLen, mono.regs.winExpect][0]? = some 3990) ∧
    Pending { mono with bus := [.read (0x10000000 + 0x10 + 4 * 0) 4] } (.read (0x10000000 + 0x10 + 4 * 0) 4) [] :=
  ⟨by decide +kernel, mono_open.1.1, rfl⟩

theorem witness_RcBufferIsTheNextViewWord :
    v1.phase ≠ .err ∧ Pending { v1 with bus := [.read (0x10000000 + 0x64) 4] } (.read (0x10000000 + 0x64) 4) [] :=
  ⟨by decide +kernel, v1_open.1.1, rfl⟩

theorem witness_ReadsInErrChangeNothing :
    let e := after .frame State.reset
    e.phase = .err ∧ Pending { e with bus := [.read (0x10000000 + 0x48) 4] } (.read (0x10000000 + 0x48) 4) [] ∧
    Pending { e with bus := [.read (0x10000000 + 0x00) 4] } (.read (0x10000000 + 0x00) 4) [] ∧
    0 < e.cfg.outCap ∧ Pending { e with bus := [.read (0x30000000 + 4 * 0) 4] } (.read (0x30000000 + 4 * 0) 4) [] :=
  ⟨by decide +kernel, ⟨by decide +kernel, rfl⟩, ⟨by decide +kernel, rfl⟩, by decide +kernel, ⟨by decide +kernel, rfl⟩⟩

/-- Another width, a misaligned address, an address outside the three regions. -/
theorem witness_AccessesOutsideTheSpecAreRefused :
    Pending { State.reset with bus := [.read 0x10000000 2] } (.read 0x10000000 2) [] ∧ 2 ≠ 4 ∧
    Pending { State.reset with bus := [.write 0x10000002 4 7] } (.write 0x10000002 4 7) [] ∧ 0x10000002 % 4 ≠ 0 ∧
    Pending { State.reset with bus := [.read 0x10000100 4] } (.read 0x10000100 4) [] ∧
    State.reset.cfg.regBase + 0x100 ≤ 0x10000100 ∧ 0x10000100 < State.reset.cfg.winBase ∧
    0x10000100 < State.reset.cfg.outBase :=
  ⟨⟨by decide, rfl⟩, by decide, ⟨by decide, rfl⟩, by decide, ⟨by decide, rfl⟩, by decide, by decide, by decide⟩

end Sys2Proof.Tests
end

section
/-! Every operation reaches an outcome (00_scope.md R12, 70_reset_and_hazards.md R267). -/

namespace Sys2Proof.Machine

/-- An issue answers a next state on every path: ignored in `ERR`, completed, or an error entry from its pseudocode or
from a check of R87. -/
theorem issue_answers_next (i : Instr) (op : State → Except Err State) (s : State) : ∃ t, issue i op s = .next t := by
  by_cases hp : s.phase = .err
  · exact ⟨s, issue_of_err hp⟩
  · cases hl : legal i s with
    | false => exact ⟨_, issue_of_illegal hp hl⟩
    | true =>
      cases ho : op s with
      | ok t => exact ⟨t, issue_of_ok hp hl ho⟩
      | error e => exact ⟨_, issue_of_error hp hl ho⟩

/-- Settles O16: `SRESET` always completes, and every other operation is an issue. -/
theorem everyOperationReachesAnOutcome : Obligations.EveryOperationReachesAnOutcome := by
  intro i s
  by_cases hi : i = .sreset
  · subst hi
    exact ⟨softReset s, exec_sreset s⟩
  · rw [exec_eq_issue hi]
    exact issue_answers_next i (body i) s

end Sys2Proof.Machine
end

section
/-! What a host access does to the register file (10_state.md R24, R26 to R28, R38): one rule for each branch of a
register read and of a register write, then the statements. -/

namespace Sys2Proof.Machine

/-! ## Register reads -/

/-- Outside `ERR` every register reads as its current value; in `ERR` the ones R28 lists do. -/
theorem readReg_of_readable {s : State} {r : Reg} (h : s.phase ≠ .err ∨ readableInErr r = true) :
    readReg s r = { s with readData := regValue s r } := by
  unfold readReg
  rw [if_neg]
  rintro ⟨hp, hr⟩
  exact h.elim (fun hn => hn hp) fun ht => by simp [hr] at ht

/-- Whatever the register and the state, a read moves the read data and the free-value counter at most. -/
theorem readReg_frame (s : State) (r : Reg) : ∃ d n, readReg s r = { s with readData := d, draws := n } := by
  unfold readReg readUnspecified
  split
  · exact ⟨_, _, rfl⟩
  · exact ⟨_, s.draws, rfl⟩

/-- The same of a read of `OUT`. -/
theorem readOut_frame (s : State) (i : Nat) : ∃ d n, readOut s i = { s with readData := d, draws := n } := by
  unfold readOut readUnspecified
  split
  · exact ⟨_, _, rfl⟩
  · exact ⟨_, s.draws, rfl⟩

/-- No register shows the pending requests. -/
theorem regValue_bus (s : State) (rest : List BusReq) (r : Reg) : regValue { s with bus := rest } r = regValue s r := by
  cases r <;> rfl

/-- THE READ RULE: a step that serves the read of a readable register hands over its current value (R28). -/
theorem step_of_readable_read {s : State} {off : Nat} {rest : List BusReq}
    (hq : Spec.Pending s (.read (s.cfg.regBase + off) 4) rest) (h : off < 0x100) (h4 : off % 4 = 0)
    (hr : s.phase ≠ .err ∨ readableInErr (regAt off) = true) :
    step s = .next { s with bus := rest, readData := regValue s (regAt off) } := by
  rw [step_of_register_read hq.1 h h4 hq.2, readReg_of_readable (s := { s with bus := rest }) hr, regValue_bus]

/-- The offsets from 0x70 on are reserved (R26). -/
theorem regAt_reserved {off : Nat} (h : 0x70 ≤ off) : regAt off = .reserved := by
  have hlen : regTable.length ≤ off / 4 := by
    show 28 ≤ off / 4
    omega
  unfold regAt
  rw [List.getElem?_eq_none hlen]
  rfl

/-! ## The configuration registers -/

/-- The twelve configuration registers in the order of their offsets, 0x10 to 0x3C (R26). -/
def configRegTable : List Reg := (regTable.drop 4).take 12

/-- Their values, in the same order. -/
def configValues (g : ConfigRegs) : List Word :=
  [g.formatVersion, g.channels, g.bitsPerSample, g.compressionLevel, g.blocksPerFrame, g.finalFrameBlocks,
    g.totalFrames, g.frameIndex, g.nblocks, g.startBit, g.winLen, g.winExpect]

theorem regAt_config_mem : ∀ j < 12, regAt (0x10 + 4 * j) ∈ configRegTable := by decide

/-- A configuration register reads in every state and is none of the three registers a write treats apart. -/
theorem config_register_kind : ∀ r ∈ configRegTable, readableInErr r = true ∧ r ≠ .cmd ∧ r ≠ .s0 ∧ r ≠ .s1 := by
  decide

theorem configValues_getElem? (s : State) {j : Nat} (hj : j < 12) :
    (configValues s.regs)[j]? = some (regValue s (regAt (0x10 + 4 * j))) := by
  interval_cases j <;> rfl

/-- A write to register `j` of the twelve replaces entry `j` of their values and no other. -/
theorem configValues_write (g : ConfigRegs) (v : Word) {j : Nat} (hj : j < 12) :
    configValues (writeConfigReg g v (regAt (0x10 + 4 * j))) = (configValues g).set j v := by
  interval_cases j <;> rfl

/-- READ AFTER WRITE for the twelve: the register written reads back the value, every other one what it was. -/
theorem regValue_config_write {s t : State} {v : Word} {i j : Nat} (hi : i < 12) (hj : j < 12)
    (ht : t.regs = writeConfigReg s.regs v (regAt (0x10 + 4 * j))) :
    regValue t (regAt (0x10 + 4 * i)) = if i = j then v else regValue s (regAt (0x10 + 4 * i)) := by
  have hget := configValues_getElem? t hi
  rw [ht, configValues_write _ _ hj, List.getElem?_set, configValues_getElem? s hi] at hget
  by_cases hij : i = j
  · subst hij
    simpa [configValues, hi] using hget.symm
  · simpa [hij, Ne.symm hij] using hget.symm

/-- A write to any other register leaves the twelve alone. -/
theorem writeConfigReg_of_not_config {r : Reg} (h : r ∉ configRegTable) (g : ConfigRegs) (v : Word) :
    writeConfigReg g v r = g := by
  cases r <;> simp_all [configRegTable, regTable, writeConfigReg]

/-! ## Register writes -/

/-- Which offsets hold neither `CMD` nor a register that takes host writes (R26, R27), by word number. -/
theorem regAt_read_only : ∀ k < 64, (1 ≤ k ∧ k < 4 ∨ 16 ≤ k ∧ k ≠ 20 ∧ k ≠ 21) →
    regAt (4 * k) ≠ .cmd ∧ regAt (4 * k) ∉ configRegTable ∧ regAt (4 * k) ≠ .s0 ∧ regAt (4 * k) ≠ .s1 := by decide

theorem configWritable_iff (p : Phase) : configWritable p = true ↔ p = .idle ∨ p = .done := by
  simp [configWritable]

theorem writeReg_of_writable {s : State} (hp : configWritable s.phase = true) (r : Reg) (v : Word) :
    writeReg s r v = { s with regs := writeConfigReg s.regs v r } := by
  simp [writeReg, hp]

theorem writeReg_s0_of_opened {s : State} (hp : s.phase = .opened) (v : Word) :
    writeReg s .s0 v = { s with ch0 := { s.ch0 with sample := v } } := by
  simp [writeReg, configWritable, hp, setSample_eq]

theorem writeReg_s1_of_opened {s : State} (hp : s.phase = .opened) (v : Word) :
    writeReg s .s1 v = { s with ch1 := { s.ch1 with sample := v } } := by
  simp [writeReg, configWritable, hp, setSample_eq]

/-- THE LOCKS (R27, R270): a write is ignored to a configuration register where they are locked, to a sample register
outside `OPEN`, and to every other register always. -/
theorem writeReg_ignored {s : State} {r : Reg} (hc : r ∈ configRegTable → configWritable s.phase = false)
    (hs : r = .s0 ∨ r = .s1 → s.phase ≠ .opened) (v : Word) : writeReg s r v = s := by
  unfold writeReg
  split
  · rename_i hp
    have hr : r ∉ configRegTable := fun hm => by simp [hc hm] at hp
    rw [writeConfigReg_of_not_config hr]
  · rw [if_neg fun h => hs (.inl h.2) h.1, if_neg fun h => hs (.inr h.2) h.1]

section
variable {s : State} {off : Nat} {x : Word} {rest : List BusReq}

/-- THE WRITE RULE: a step that serves a write to a configuration register in `IDLE` or `DONE`. -/
theorem step_of_config_write (hq : Spec.Pending s (.write (s.cfg.regBase + off) 4 x) rest) (h : off < 0x100)
    (h4 : off % 4 = 0) (hc : regAt off ∈ configRegTable) (hp : configWritable s.phase = true) :
    step s = .next { s with bus := rest, regs := writeConfigReg s.regs x (regAt off) } := by
  have hcmd := (config_register_kind _ hc).2.1
  rw [step_of_register_write hq.1 h h4 hcmd hq.2, writeReg_of_writable (s := { s with bus := rest }) hp]

/-- A step that serves an ignored write only takes the request off the queue. -/
theorem step_of_ignored_write (hq : Spec.Pending s (.write (s.cfg.regBase + off) 4 x) rest) (h : off < 0x100)
    (h4 : off % 4 = 0) (hcmd : regAt off ≠ .cmd) (hc : regAt off ∈ configRegTable → configWritable s.phase = false)
    (hs : regAt off = .s0 ∨ regAt off = .s1 → s.phase ≠ .opened) : step s = .next { s with bus := rest } := by
  rw [step_of_register_write hq.1 h h4 hcmd hq.2, writeReg_ignored (s := { s with bus := rest }) hc hs]

end

/-! ## `STATUS` and `RC_BUFFER` -/

/-- A bit of a word, read off its value. -/
theorem getLsbD_of_bit {d : Word} {i : Nat} {b : Bool} (h : d.toNat / 2 ^ i % 2 = bit b) : d.getLsbD i = b := by
  rw [← BitVec.testBit_toNat, Nat.testBit_eq_decide_div_mod_eq, h]
  cases b <;> rfl

theorem phaseCode_lt (p : Phase) : phaseCode p < 4 := by cases p <;> decide

theorem bit_lt (b : Bool) : bit b < 2 := by cases b <;> decide

/-- `STATUS` as a number: a sum of fields that do not overlap (R24). -/
theorem statusWord_toNat (s : State) : (statusWord s).toNat =
    phaseCode s.phase + 2 ^ 3 * bit s.silent + 2 ^ 4 * bit s.fstereo + 2 ^ 5 * bit s.rcInit := by
  have hphase := phaseCode_lt s.phase
  have hsilent := bit_lt s.silent
  have hfstereo := bit_lt s.fstereo
  have hrc := bit_lt s.rcInit
  exact natWord_toNat_of_lt (by omega)

/-- View byte `4q + j` of the buffer is byte `4q + 3 - j` of `WIN`, 0 outside the window (R61, R64). -/
theorem bufferByte_eq (s : State) (q : Nat) {j : Nat} (hj : j < 4) :
    bufferByte s.view (4 * q + j) =
      if 4 * q + (3 - j) < s.regs.winLen.toNat then (winByte s.win (4 * q + (3 - j))).toNat else 0 := by
  have hx : (4 * q + j) ^^^ 3 = 4 * q + (3 - j) := by rw [xor_three]; omega
  simp [bufferByte, insideWindow, viewByte, State.view, hx]

/-! ## The statements -/

/-- Settles O55: the twelve are readable in every state, `ERR` included. -/
theorem configurationReadsInEveryState : Obligations.ConfigurationReadsInEveryState := by
  intro s j x rest hx hq
  change (configValues s.regs)[j]? = some x at hx
  have hj : j < 12 := (List.getElem?_eq_some_iff.1 hx).1
  rw [configValues_getElem? s hj, Option.some.injEq] at hx
  have hr := (config_register_kind _ (regAt_config_mem j hj)).1
  rw [Nat.add_assoc] at hq
  rw [step_of_readable_read hq (by omega) (by omega) (.inr hr), hx]

/-- Settles O51: the unlocked write is the write of one entry of the twelve, the locked one is ignored. -/
theorem configurationWritesReadBackOrAreLocked : Obligations.ConfigurationWritesReadBackOrAreLocked := by
  intro s j x rest hj hq
  have hc := regAt_config_mem j hj
  obtain ⟨-, hcmd, hs0, hs1⟩ := config_register_kind _ hc
  rw [Nat.add_assoc] at hq
  constructor
  · intro hp
    refine ⟨_, step_of_config_write hq (by omega) (by omega) hc ((configWritable_iff _).2 hp), rfl, ?_, ?_⟩
    · rw [regValue_config_write (s := s) hj hj rfl, if_pos rfl]
    · intro i hi hne
      rw [regValue_config_write (s := s) hi hj rfl, if_neg hne]
  · intro hp
    have hlocked : configWritable s.phase = false := by rcases hp with hp | hp <;> rw [hp] <;> rfl
    exact step_of_ignored_write hq (by omega) (by omega) hcmd (fun _ => hlocked) fun h => absurd h (by simp [hs0, hs1])

/-- Settles O52: the sample registers by the rules for `OPEN`, everything else by the locks. -/
theorem sampleWritesOnlyInOpenAndReadOnlyWritesIgnored :
    Obligations.SampleWritesOnlyInOpenAndReadOnlyWritesIgnored := by
  intro s off x rest hoff h4 hq
  refine ⟨?_, ?_, ?_, ?_⟩
  · rintro rfl hp
    rw [step_of_register_write hq.1 hoff h4 (by decide) hq.2]
    exact congrArg Host.Outcome.next (writeReg_s0_of_opened (s := { s with bus := rest }) hp x)
  · rintro rfl hp
    rw [step_of_register_write hq.1 hoff h4 (by decide) hq.2]
    exact congrArg Host.Outcome.next (writeReg_s1_of_opened (s := { s with bus := rest }) hp x)
  · intro hs hp
    have hkind : regAt off ≠ .cmd ∧ regAt off ∉ configRegTable := by rcases hs with rfl | rfl <;> decide
    exact step_of_ignored_write hq hoff h4 hkind.1 (fun h => absurd h hkind.2) fun _ => hp
  · intro hr
    obtain ⟨k, rfl⟩ : ∃ k, off = 4 * k := ⟨off / 4, by omega⟩
    obtain ⟨hcmd, hconfig, hs0, hs1⟩ := regAt_read_only k (by omega) (by omega)
    exact step_of_ignored_write hq hoff h4 hcmd (fun h => absurd h hconfig) fun h => absurd h (by simp [hs0, hs1])

/-- Settles O53: each field is read off the sum. -/
theorem statusRegisterFields : Obligations.StatusRegisterFields := by
  intro s rest hq
  refine ⟨statusWord s, step_of_readable_read hq (by decide) (by decide) (.inr rfl), ?_⟩
  have hphase := phaseCode_lt s.phase
  have hsilent := bit_lt s.silent
  have hfstereo := bit_lt s.fstereo
  have hrc := bit_lt s.rcInit
  have hvalue := statusWord_toNat s
  refine ⟨?_, getLsbD_of_bit ?_, getLsbD_of_bit ?_, getLsbD_of_bit ?_, getLsbD_of_bit ?_, ?_⟩
  · show ((statusWord s).extractLsb' 0 2).toNat = phaseCode s.phase
    rw [BitVec.extractLsb'_toNat, Nat.shiftRight_zero, hvalue]
    omega
  · rw [hvalue]; show _ = 0; omega
  · rw [hvalue]; omega
  · rw [hvalue]; omega
  · rw [hvalue]; omega
  · apply BitVec.eq_of_toNat_eq
    rw [BitVec.extractLsb'_toNat, Nat.shiftRight_eq_div_pow, hvalue]
    show _ = 0
    omega

/-- Settles O54: each offset names its register, whose current value is the field. -/
theorem registerReads : Obligations.RegisterReads := by
  intro s off rest hq
  refine ⟨?_, ?_, fun hp => ?_⟩
  · rintro rfl
    rw [step_of_readable_read hq (by decide) (by decide) (.inr rfl)]
    show Host.Outcome.next { s with bus := rest, readData := natWord (errNumber s.errCode) } = _
    cases s.errCode <;> rfl
  · rintro rfl
    exact step_of_readable_read hq (by decide) (by decide) (.inr rfl)
  · have hread (h : off < 0x100) (h4 : off % 4 = 0) := step_of_readable_read hq h h4 (.inl hp)
    refine ⟨?_, ?_, ?_, ?_, ?_, ?_, ?_, ?_, ?_, ?_, ?_, ?_, fun hlow hoff h4 => ?_⟩
    case refine_13 =>
      rw [hread hoff h4, regAt_reserved hlow]
      rfl
    all_goals
      rintro rfl
      exact hread (by decide) (by decide)

/-- Settles O57: a read of either kind moves the read data and the counter at most. -/
theorem readsInErrChangeNothing : Obligations.ReadsInErrChangeNothing := by
  intro s off rest _
  constructor
  · intro _ hoff h4 hq
    obtain ⟨d, n, hd⟩ := readReg_frame { s with bus := rest } (regAt off)
    exact ⟨d, n, by rw [step_of_register_read hq.1 hoff h4 hq.2, hd]⟩
  · intro hoff hq
    obtain ⟨d, n, hd⟩ := readOut_frame { s with bus := rest } off
    exact ⟨d, n, by rw [step_of_out_read hq.1 hoff hq.2, hd]⟩

/-- Settles O56: the view bytes of a word are the bytes of `WIN` in the opposite order. -/
theorem rcBufferIsTheNextViewWord : Obligations.RcBufferIsTheNextViewWord := by
  intro s rest hp hq
  have hbyte {j : Nat} (hj : j < 4) := bufferByte_eq s (s.rc.pos.toNat / 32) hj
  have h0 := hbyte (j := 0) (by decide)
  rw [step_of_readable_read hq (by decide) (by decide) (.inl hp)]
  show Host.Outcome.next { s with bus := rest, readData := rcBuffer s } = _
  rw [Nat.add_zero] at h0
  simp only [rcBuffer, h0, hbyte (j := 1) (by decide), hbyte (j := 2) (by decide), hbyte (j := 3) (by decide)]
  rfl

end Sys2Proof.Machine
end

section
/-! The `STATE` transitions (10_state.md R25), from what a unit operation leaves unchanged. -/

namespace Sys2Proof.Machine

/-- `t` differs from `s` in `RCINIT`, `RES`, `BIDX`, the range decoder's registers, the two channels and the words of
`OUT` at most: what an operation of an open frame may write. -/
def OnlyUnit (s t : State) : Prop :=
  t = { s with
    rcInit := t.rcInit, res := t.res, bidx := t.bidx, rc := t.rc, ch0 := t.ch0, ch1 := t.ch1, out := t.out }

theorem OnlyUnit.phase {s t : State} (h : OnlyUnit s t) : t.phase = s.phase := by rw [h]

theorem OnlyUnit.trans {s t u : State} (h : OnlyUnit s t) (g : OnlyUnit t u) : OnlyUnit s u := by
  unfold OnlyUnit at *; rw [g, h]

theorem OnlyDecode.onlyUnit {s t : State} (h : OnlyDecode s t) : OnlyUnit s t := by
  unfold OnlyUnit; rw [h.eq]

theorem onlyUnit_setSample (s : State) (c : Nat) (v : Word) : OnlyUnit s (s.setSample c v) :=
  (onlyDecode_setChan s c _).onlyUnit

theorem onlyUnit_opEntRes {c : Nat} {s t : State} (h : opEntRes c s = .ok t) : OnlyUnit s t := by
  obtain ⟨⟨v, x, u⟩, hu, h⟩ := bind_ok h
  cases h
  have hres : OnlyUnit u { u with res := natWord v } := rfl
  exact ((onlyDecode_entRes hu).onlyUnit.trans hres).trans (onlyUnit_setSample _ _ _)

theorem onlyUnit_opNnfStep {st c : Nat} {s t : State} (h : opNnfStep st c s = .ok t) : OnlyUnit s t := by
  obtain ⟨⟨y, u⟩, hu, h⟩ := bind_ok h
  cases h
  exact (onlyDecode_nnfStep hu).onlyUnit.trans (onlyUnit_setSample _ _ _)

theorem onlyUnit_opPredStep {c : Nat} {s t : State} (h : opPredStep c s = .ok t) : OnlyUnit s t := by
  obtain ⟨⟨z, u⟩, hu, h⟩ := bind_ok h
  cases h
  exact (onlyDecode_predStep hu).onlyUnit.trans (onlyUnit_setSample _ _ _)

theorem onlyUnit_opStereoStep {s t : State} (h : opStereoStep s = .ok t) : OnlyUnit s t := by
  obtain ⟨⟨l, r⟩, -, h⟩ := bind_ok h
  cases h
  exact (onlyUnit_setSample _ _ _).trans (onlyUnit_setSample _ _ _)

theorem onlyUnit_opEmit {s t : State} (h : opEmit s = .ok t) : OnlyUnit s t := by
  simp only [opEmit, Except.ok.injEq] at h
  subst h
  split <;> rfl

/-- Every operation but the three of frame control writes what `OnlyUnit` lists and nothing else. -/
theorem onlyUnit_body {i : Instr} {s t : State} (hr : i ≠ .sreset) (hs : i ≠ .frameStart) (hf : i ≠ .frame)
    (h : body i s = .ok t) : OnlyUnit s t := by
  cases i with
  | nop => cases h; rfl
  | sreset => exact absurd rfl hr
  | frameStart => exact absurd rfl hs
  | frame => exact absurd rfl hf
  | rcInit | rcNorm | rcBits n | rcSym | rcValue k =>
    obtain ⟨r, -, h⟩ := bind_ok h
    cases h
    rfl
  | entRes c => exact onlyUnit_opEntRes h
  | nnfStep st c => exact onlyUnit_opNnfStep h
  | predStep c => exact onlyUnit_opPredStep h
  | stereoStep => exact onlyUnit_opStereoStep h
  | emit => exact onlyUnit_opEmit h

theorem frameStart_phase {s t : State} (h : frameStart s = .ok t) : t.phase = .opened := by
  obtain ⟨-, -, u, -, ⟨-, rfl⟩ | ⟨-, r, -, rfl⟩⟩ := frameStart_ok h
  · rfl
  · rfl

theorem opFrame_phase {s t : State} (h : opFrame s = .ok t) : t.phase = .done := by
  obtain ⟨a, b, -, -, rfl⟩ := opFrame_ok h
  rfl

/-- Check 2 of R87: a legal operation other than `NOP` and the three of frame control is issued in `OPEN`. -/
theorem opened_of_legal {i : Instr} {s : State} (hn : i ≠ .nop) (hr : i ≠ .sreset) (hs : i ≠ .frameStart)
    (hf : i ≠ .frame) (h : legal i s = true) : s.phase = .opened := by
  have hstate : legalState i s.phase = true := by simp_all [legal]
  cases i <;> simp_all [legalState]

/-- Settles O17: an issue in `ERR` is ignored, and outside it the operation that completes is legal and ran its
body. -/
theorem stateTransitions : Obligations.StateTransitions := by
  intro i s t h
  by_cases hi : i = .sreset
  · subst hi
    cases h
    exact ⟨fun _ => rfl, fun _ hn => absurd rfl hn, fun _ hn => absurd rfl hn⟩
  rw [exec_eq_issue hi] at h
  refine ⟨fun h' => absurd h' hi, fun hp _ => ?_, fun _ _ ht => ?_⟩
  · rw [issue_of_err hp] at h
    cases h
    exact hp
  · obtain ⟨-, hl, hb⟩ := issue_completes h ht
    refine ⟨?_, ?_, fun hs hf => (onlyUnit_body hi hs hf hb).phase, fun hn hs hf => opened_of_legal hn hi hs hf hl⟩
    · rintro rfl
      exact frameStart_phase hb
    · rintro rfl
      exact opFrame_phase hb

end Sys2Proof.Machine
end

section
/-! The memories as the stream and the host see them (20_memory.md R60 to R66, R69): what a word of the view holds, what
a host access to `WIN` and `OUT` does, and which accesses are refused; the statements follow the rules they rest on. -/

namespace Sys2Proof.Machine

/-! ## The stream view -/

/-- A position of the view inside word `q`: the other end of the word (R61). -/
theorem word_position_xor_three (q : Nat) {j : Nat} (hj : j < 4) : (4 * q + j) ^^^ 3 = 4 * q + (3 - j) := by
  rw [xor_three]; omega

/-- View byte `j` of word `q` is inside the window exactly when its byte of `WIN` is below `WIN_LEN` (R64). -/
theorem insideWindow_word_iff (v : View) (q : Nat) {j : Nat} (hj : j < 4) :
    insideWindow v (4 * q + j) = true ↔ 4 * q + (3 - j) < v.len := by
  rw [insideWindow, word_position_xor_three q hj, decide_eq_true_iff]

/-- Byte `j` of `ViewWord(q)`, the least significant first, is byte `4q + j` of `WIN` (R62). -/
theorem viewWord_byte (m : Memory 8) (q : Nat) {j : Nat} (hj : j < 4) :
    viewWord m q / 2 ^ (8 * j) % 2 ^ 8 = (winByte m (4 * q + j)).toNat := by
  have h0 := (winByte m (4 * q)).isLt
  have h1 := (winByte m (4 * q + 1)).isLt
  have h2 := (winByte m (4 * q + 2)).isLt
  have h3 := (winByte m (4 * q + 3)).isLt
  unfold viewWord
  interval_cases j
  · simp only [Nat.add_zero]; omega
  all_goals omega

/-- View byte `j` of word `q` is that byte of `ViewWord(q)`, the most significant first (R61, R62). -/
theorem viewByte_eq_viewWord_byte (v : View) (q : Nat) {j : Nat} (hj : j < 4) :
    viewByte v (4 * q + j) = viewWord v.win q / 2 ^ (8 * (3 - j)) % 2 ^ 8 := by
  rw [viewByte, word_position_xor_three q hj, viewWord_byte v.win q (by omega)]

/-- A bit of the low byte of a number is that bit of the number. -/
theorem bit_of_low_byte (a : Nat) {k : Nat} (hk : k < 8) : a % 2 ^ 8 / 2 ^ k % 2 = a / 2 ^ k % 2 := by
  rw [← Nat.toNat_testBit, ← Nat.toNat_testBit, Nat.testBit_mod_two_pow, decide_eq_true hk, Bool.true_and]

/-- Settles O47: the bit of the view byte is a bit of that byte of the view word, `8` times the byte's place up. -/
theorem streamBitIsABitOfTheViewWord : Obligations.StreamBitIsABitOfTheViewWord := by
  intro v t
  have hbyte : t / 8 = 4 * (t / 32) + t / 8 % 4 := by omega
  have hplace : 8 * (3 - t / 8 % 4) + (7 - t % 8) = 31 - t % 32 := by omega
  calc streamBit v t
      = viewByte v (4 * (t / 32) + t / 8 % 4) / 2 ^ (7 - t % 8) % 2 := by rw [streamBit, ← hbyte]
    _ = viewWord v.win (t / 32) / 2 ^ (8 * (3 - t / 8 % 4)) % 2 ^ 8 / 2 ^ (7 - t % 8) % 2 := by
      rw [viewByte_eq_viewWord_byte v _ (Nat.mod_lt _ (by decide))]
    _ = viewWord v.win (t / 32) / 2 ^ (8 * (3 - t / 8 % 4)) / 2 ^ (7 - t % 8) % 2 := bit_of_low_byte _ (by omega)
    _ = viewWord v.win (t / 32) / 2 ^ (31 - t % 32) % 2 := by rw [Nat.div_div_eq_div_mul, ← Nat.pow_add, hplace]

/-- Settles O48: the first view byte of a word is its last byte of `WIN`, so it decides for all four. -/
theorem wholeWordInsideTheWindow : Obligations.WholeWordInsideTheWindow := by
  intro v q
  have hfirst := insideWindow_word_iff v q (j := 0) (by decide)
  rw [Nat.add_zero] at hfirst
  simp only [Bool.and_eq_true, hfirst, insideWindow_word_iff v q (j := 1) (by decide),
    insideWindow_word_iff v q (j := 2) (by decide), insideWindow_word_iff v q (j := 3) (by decide)]
  omega

/-! ## Host writes to `WIN` -/

/-- Whatever the state, a host write to `WIN` moves `WIN` at most. -/
theorem writeWin_frame (s : State) (q : Nat) (x : Word) : writeWin s q x = { s with win := (writeWin s q x).win } := by
  unfold writeWin; split <;> rfl

/-- THE LOCK of `WIN` (R60, R270). -/
theorem writeWin_ignored {s : State} (hp : configWritable s.phase = false) (q : Nat) (x : Word) :
    writeWin s q x = s := by
  unfold writeWin; rw [hp]; rfl

/-- An unlocked host write puts byte `j` of the word at `WIN[4q + j]` (R62). -/
theorem winByte_writeWin_self {s : State} (hp : configWritable s.phase = true) (q : Nat) (x : Word) {j : Nat}
    (hj : j < 4) : winByte (writeWin s q x).win (4 * q + j) = byteOf x j := by
  rw [writeWin, if_pos hp]
  interval_cases j <;> simp [winByte_write_of_ne]

/-- A host write leaves every byte of every other word alone. -/
theorem winByte_writeWin_of_ne (s : State) {q a : Nat} (x : Word) (ha : a / 4 ≠ q) :
    winByte (writeWin s q x).win a = winByte s.win a := by
  unfold writeWin
  split
  · have h0 : a ≠ 4 * q := by omega
    have h1 : a ≠ 4 * q + 1 := by omega
    have h2 : a ≠ 4 * q + 2 := by omega
    have h3 : a ≠ 4 * q + 3 := by omega
    simp only [winByte_write_of_ne _ _ h0, winByte_write_of_ne _ _ h1, winByte_write_of_ne _ _ h2,
      winByte_write_of_ne _ _ h3]
  · rfl

/-- WRITE, THEN VIEW: an unlocked host write to word `q` makes `ViewWord(q)` the word written (R62). -/
theorem viewWord_writeWin_self {s : State} (hp : configWritable s.phase = true) (q : Nat) (x : Word) :
    viewWord (writeWin s q x).win q = x.toNat := by
  have hbyte {j : Nat} (hj : j < 4) := winByte_writeWin_self hp q x hj
  have h0 := hbyte (j := 0) (by decide)
  rw [Nat.add_zero] at h0
  rw [viewWord, h0, hbyte (j := 1) (by decide), hbyte (j := 2) (by decide), hbyte (j := 3) (by decide), bytes_of_word]

/-- Settles O49: the unlocked write is the write of the four bytes of one word, the locked one is ignored. -/
theorem windowWriteIsTheViewWord : Obligations.WindowWriteIsTheViewWord := by
  intro s q x rest hcap hq
  rw [step_of_win_write hq.1 hcap hq.2]
  constructor
  · intro hp
    have hopen : configWritable s.phase = true := (configWritable_iff _).2 hp
    exact ⟨_, rfl, writeWin_frame { s with bus := rest } q x,
      viewWord_writeWin_self (s := { s with bus := rest }) hopen q x,
      fun a ha => winByte_writeWin_of_ne { s with bus := rest } x ha⟩
  · intro hp
    have hlocked : configWritable s.phase = false := by rcases hp with hp | hp <;> rw [hp] <;> rfl
    rw [writeWin_ignored (s := { s with bus := rest }) hlocked]

/-! ## Refused accesses and host reads -/

/-- An access of another width, misaligned, or outside the three regions has no target (R69). -/
theorem busTarget_none {p : Config} {addr bytes : Nat}
    (h : bytes ≠ 4 ∨ addr % 4 ≠ 0 ∨
      ((addr < p.regBase ∨ p.regBase + 0x100 ≤ addr) ∧ (addr < p.winBase ∨ p.winBase + p.winCap ≤ addr) ∧
        (addr < p.outBase ∨ p.outBase + 4 * p.outCap ≤ addr))) : busTarget p addr bytes = none := by
  cases ht : busTarget p addr bytes with
  | none => rfl
  | some t =>
    obtain ⟨hbytes, haligned, hregion⟩ := busTarget_some ht
    omega

/-- A read without a target is refused. -/
theorem step_of_read_without_target {s : State} {addr bytes : Nat} {rest : List BusReq}
    (hq : Spec.Pending s (.read addr bytes) rest) (ht : busTarget s.cfg addr bytes = none) :
    step s = .refused .busAccessOutsideSpec := by
  rw [step_of_request hq.1 hq.2, serve, busRead, ht]
  rfl

/-- A write without a target is refused. -/
theorem step_of_write_without_target {s : State} {addr bytes : Nat} {x : Word} {rest : List BusReq}
    (hq : Spec.Pending s (.write addr bytes x) rest) (ht : busTarget s.cfg addr bytes = none) :
    step s = .refused .busAccessOutsideSpec := by
  rw [step_of_request hq.1 hq.2, serve, busWrite, ht]
  rfl

/-- Settles O58: such an access has no target, whichever way it goes. -/
theorem accessesOutsideTheSpecAreRefused : Obligations.AccessesOutsideTheSpecAreRefused := by
  intro s addr bytes x rest h
  have ht := busTarget_none h
  exact ⟨fun hq => step_of_read_without_target hq ht, fun hq => step_of_write_without_target hq ht⟩

/-- Outside `ERR` a host read of `OUT` hands over the word (R66). -/
theorem readOut_of_ne_err {s : State} (hp : s.phase ≠ .err) (i : Nat) :
    readOut s i = { s with readData := outWord s.out i } := by
  unfold readOut; rw [if_neg hp]

/-- Settles O50: one step rule for each of the three accesses. -/
theorem memoryReadsReturnTheContents : Obligations.MemoryReadsReturnTheContents := by
  intro s q rest
  refine ⟨fun hcap hq => ?_, fun hcap hp hq => ?_, fun hcap x hq => ?_⟩
  · exact step_of_win_read hq.1 hcap hq.2
  · rw [step_of_out_read hq.1 hcap hq.2, readOut_of_ne_err (s := { s with bus := rest }) hp]
  · exact step_of_out_write hq.1 hcap hq.2

end Sys2Proof.Machine
end

section
/-! The encoding (30_encoding.md section 1): the fields of a word as arithmetic on its value, then that a word decodes
to an operation exactly when it is the word of that operation. -/

namespace Sys2Proof

/-! ## The fields of a word -/

/-- The opcode is what stands above the low 24 bits (R82). -/
theorem opField_eq (w : Word) : opField w = w.toNat / 2 ^ 24 := by
  have := w.isLt
  simp only [opField, BitVec.extractLsb'_toNat, Nat.shiftRight_eq_div_pow]
  omega

/-- Field `N` as a part of the low 24 bits (R84). -/
theorem nField_eq (w : Word) : nField w = w.toNat % 2 ^ 24 % 2 ^ 5 := by
  simp only [nField, BitVec.extractLsb'_toNat, Nat.shiftRight_zero]
  omega

/-- The same of field `C` (R85, R86). -/
theorem cField_eq (w : Word) : cField w = w.toNat % 2 ^ 24 % 2 := by
  simp only [cField, BitVec.extractLsb'_toNat, Nat.shiftRight_zero]
  omega

/-- The same of field `ST` (R86). -/
theorem stField_eq (w : Word) : stField w = w.toNat % 2 ^ 24 / 2 ^ 8 % 2 ^ 2 := by
  simp only [stField, BitVec.extractLsb'_toNat, Nat.shiftRight_eq_div_pow]
  omega

/-- The reserved bits of a format are 0 exactly when the low 24 bits hold its operand fields and nothing else (R83). -/
theorem reservedZ_iff (w : Word) : reservedZ w = true ↔ w.toNat % 2 ^ 24 = 0 := by
  simp [reservedZ, ← BitVec.toNat_inj, BitVec.extractLsb'_toNat]

/-- The same of format N (R84). -/
theorem reservedN_iff (w : Word) : reservedN w = true ↔ w.toNat % 2 ^ 24 = nField w := by
  simp only [reservedN, nField_eq, beq_iff_eq, ← BitVec.toNat_inj, BitVec.extractLsb'_toNat,
    Nat.shiftRight_eq_div_pow, BitVec.toNat_ofNat]
  omega

/-- The same of format C (R85). -/
theorem reservedC_iff (w : Word) : reservedC w = true ↔ w.toNat % 2 ^ 24 = cField w := by
  simp only [reservedC, cField_eq, beq_iff_eq, ← BitVec.toNat_inj, BitVec.extractLsb'_toNat,
    Nat.shiftRight_eq_div_pow, BitVec.toNat_ofNat]
  omega

/-- The same of format SC (R86). -/
theorem reservedSC_iff (w : Word) : reservedSC w = true ↔ w.toNat % 2 ^ 24 = stField w * 2 ^ 8 + cField w := by
  simp only [reservedSC, stField_eq, cField_eq, Bool.and_eq_true, beq_iff_eq, ← BitVec.toNat_inj,
    BitVec.extractLsb'_toNat, Nat.shiftRight_eq_div_pow, BitVec.toNat_ofNat]
  omega

theorem ifReserved_ok_iff {ok : Bool} {op : Nat} {i j : Instr} : ifReserved ok op i = .ok j ↔ ok = true ∧ i = j := by
  cases ok <;> simp [ifReserved]

/-! ## The word of an operation -/

theorem opcodeOf_lt (i : Instr) : opcodeOf i < 2 ^ 8 := by cases i <;> simp [opcodeOf]

/-- Operands that fit their fields lie below the opcode. -/
theorem operandBits_lt {i : Instr} (h : i.WellFormed) : operandBits i < 2 ^ 24 := by
  cases i with
  | rcBits n | rcValue n | entRes n | predStep n =>
    have hn := of_decide_eq_true h
    simp only [operandBits]
    omega
  | nnfStep st c =>
    simp only [Instr.WellFormed, Instr.wellFormed, Bool.and_eq_true, decide_eq_true_eq] at h
    simp only [operandBits]
    omega
  | nop | sreset | frameStart | frame | rcInit | rcNorm | rcSym | stereoStep | emit => decide

/-- The encoding as the two parts of a word: `w` is the word of a well-formed operation exactly when its opcode field is
the operation's opcode and its low 24 bits are the operation's operand fields (R82, R89). -/
theorem encode_eq_iff {i : Instr} (h : i.WellFormed) (w : Word) :
    encode i = w ↔ opField w = opcodeOf i ∧ w.toNat % 2 ^ 24 = operandBits i := by
  have hop := opcodeOf_lt i
  have hbits := operandBits_lt h
  have hw := w.isLt
  rw [← BitVec.toNat_inj, encode, BitVec.toNat_ofNat, opField_eq]
  omega

/-! ## The decoder against the parts of a word -/

/-- What a word that decodes is made of: the cases are the opcodes in the order of R82, taken together by format. -/
theorem parts_of_decode {w : Word} {i : Instr} (h : decode w = .ok i) :
    i.WellFormed ∧ opField w = opcodeOf i ∧ w.toNat % 2 ^ 24 = operandBits i := by
  have hn : nField w < 32 := by rw [nField_eq]; omega
  have hc : cField w < 2 := by rw [cField_eq]; omega
  have hst : stField w < 4 := by rw [stField_eq]; omega
  unfold decode at h
  split at h
  -- no assigned opcode
  case h_15 => cases h
  all_goals
    rename_i hop
    obtain ⟨hr, rfl⟩ := ifReserved_ok_iff.1 h
  -- format N: `RC_BITS`, `RC_VALUE`
  case h_7 | h_9 => exact ⟨decide_eq_true hn, hop, (reservedN_iff w).1 hr⟩
  -- format C: `ENT_RES`, `PRED_STEP`
  case h_10 | h_12 => exact ⟨decide_eq_true hc, hop, (reservedC_iff w).1 hr⟩
  -- format SC: `NNF_STEP`
  case h_11 =>
    exact ⟨Bool.and_eq_true_iff.2 ⟨decide_eq_true hst, decide_eq_true hc⟩, hop, (reservedSC_iff w).1 hr⟩
  -- format Z: the others
  all_goals exact ⟨rfl, hop, (reservedZ_iff w).1 hr⟩

/-- A word made of the parts of a well-formed operation decodes to it. -/
theorem decode_of_parts {w : Word} {i : Instr} (h : i.WellFormed) (hop : opField w = opcodeOf i)
    (hbits : w.toNat % 2 ^ 24 = operandBits i) : decode w = .ok i := by
  unfold decode
  rw [hop]
  cases i with
  | rcBits n | rcValue n =>
    have hn : n < 32 := of_decide_eq_true h
    have hfield : nField w = n := by rw [nField_eq, hbits]; exact Nat.mod_eq_of_lt hn
    exact ifReserved_ok_iff.2 ⟨(reservedN_iff w).2 (hbits.trans hfield.symm), by rw [hfield]⟩
  | entRes c | predStep c =>
    have hc : c < 2 := of_decide_eq_true h
    have hfield : cField w = c := by rw [cField_eq, hbits]; exact Nat.mod_eq_of_lt hc
    exact ifReserved_ok_iff.2 ⟨(reservedC_iff w).2 (hbits.trans hfield.symm), by rw [hfield]⟩
  | nnfStep st c =>
    simp only [Instr.WellFormed, Instr.wellFormed, Bool.and_eq_true, decide_eq_true_eq] at h
    have hst : stField w = st := by rw [stField_eq, hbits, operandBits]; omega
    have hc : cField w = c := by rw [cField_eq, hbits, operandBits]; omega
    exact ifReserved_ok_iff.2 ⟨(reservedSC_iff w).2 (by rw [hst, hc, hbits, operandBits]), by rw [hst, hc]⟩
  | nop | sreset | frameStart | frame | rcInit | rcNorm | rcSym | stereoStep | emit =>
    exact ifReserved_ok_iff.2 ⟨(reservedZ_iff w).2 hbits, rfl⟩

/-- THE DECODER AGAINST THE ENCODER: a word decodes to an operation exactly when the operation fits its fields and the
word is its encoding (R88). -/
theorem decode_eq_ok_iff {w : Word} {i : Instr} : decode w = .ok i ↔ i.WellFormed ∧ encode i = w := by
  constructor
  · intro h
    obtain ⟨hwf, hparts⟩ := parts_of_decode h
    exact ⟨hwf, (encode_eq_iff hwf w).2 hparts⟩
  · rintro ⟨hwf, hw⟩
    obtain ⟨hop, hbits⟩ := (encode_eq_iff hwf w).1 hw
    exact decode_of_parts hwf hop hbits

/-! ## The statements -/

/-- Settles O7: from right to left in `decode_eq_ok_iff`. -/
theorem decodeOfEncode : Obligations.DecodeOfEncode :=
  fun _ h => decode_eq_ok_iff.2 ⟨h, rfl⟩

/-- Settles O8: from left to right in `decode_eq_ok_iff`. -/
theorem encodeOfDecode : Obligations.EncodeOfDecode :=
  fun _ _ => decode_eq_ok_iff.1

/-- Settles O6: each of the words is the encoding of its operation. -/
theorem writtenWordsDecode : Obligations.WrittenWordsDecode := by
  simp only [Obligations.WrittenWordsDecode, decode_eq_ok_iff]
  decide

end Sys2Proof
end

section
/-! The issue of a command word (30_encoding.md R81, R87, R88, 60_exceptions.md R223): the model's three checks are the
rule's, and a word or an operation that fails one raises `IllegalCommand`. -/

namespace Sys2Proof.Machine

/-- Outside `ERR` the model's checks 2 to 4 are the ones R87 writes out. -/
theorem legal_iff {s : State} (hp : s.phase ≠ .err) (i : Instr) : legal i s = true ↔ Spec.Legal s i := by
  cases i with
  | nop | sreset | frameStart | frame => simp [legal, legalState, legalOperand, legalUnit, Spec.Legal, hp]
  | rcInit | rcNorm | rcBits | rcSym | rcValue | entRes | nnfStep | predStep | stereoStep =>
    simp [legal, legalState, legalOperand, legalUnit, Spec.Legal, and_assoc]
  | emit => simp [legal, legalState, legalOperand, legalUnit, Spec.Legal, BitVec.lt_def]

/-- No check of R87 reads the pending requests. -/
theorem specLegal_bus (s : State) (rest : List BusReq) (i : Instr) :
    Spec.Legal { s with bus := rest } i ↔ Spec.Legal s i := by
  cases i <;> exact Iff.rfl

/-- The error entry does what R224 and R225 fix. -/
theorem raised_raise (e : Err) (s : State) : Spec.Raised s (raise e s) e.kind e.info := ⟨rfl, rfl, rfl, rfl, rfl⟩

theorem issueWord_of_ok {w : Word} {i : Instr} (h : decode w = .ok i) (s : State) : issueWord w s = exec i s := by
  rw [issueWord, h]

theorem issueWord_of_error {w : Word} {e : DecodeError} {s : State} (h : decode w = .error e) (hp : s.phase ≠ .err) :
    issueWord w s = .next (raise (illegalCommand w) s) := by
  simp [issueWord, h, rejectWord, hp]

/-- Settles O11: `SRESET` is always legal outside `ERR`, and every other operation is an issue. -/
theorem illegalOperationsRaiseIllegalCommand : Obligations.IllegalOperationsRaiseIllegalCommand := by
  intro i s hp hl
  have hi : i ≠ .sreset := by
    rintro rfl
    exact hl trivial
  have hlegal : legal i s = false := Bool.eq_false_iff.2 fun h => hl ((legal_iff hp i).1 h)
  exact ⟨_, (exec_eq_issue hi s).trans (issue_of_illegal hp hlegal), raised_raise _ s⟩

/-- Settles O10: check 1 fails in the decoder; an operation that fails another check raises with its word, which is the
word written. -/
theorem illegalWordsRaiseIllegalCommand : Obligations.IllegalWordsRaiseIllegalCommand := by
  intro s w rest ⟨hcfg, hbus⟩ hp hl
  rw [step_of_command hcfg hbus]
  cases hd : decode w with
  | error e => exact ⟨_, issueWord_of_error (s := { s with bus := rest }) hd hp, raised_raise _ { s with bus := rest }⟩
  | ok i =>
    have hword : encode i = w := (decode_eq_ok_iff.1 hd).2
    have hillegal : ¬ Spec.Legal { s with bus := rest } i := fun h => hl i hd ((specLegal_bus s rest i).1 h)
    rw [issueWord_of_ok hd, ← hword]
    exact illegalOperationsRaiseIllegalCommand i { s with bus := rest } hp hillegal

/-- Settles O9: the step issues the word, and the issue of a word that decodes is the operation. -/
theorem stepRunsTheDecodedOperation : Obligations.StepRunsTheDecodedOperation := by
  intro s w i rest ⟨hcfg, hbus⟩ hd
  rw [step_of_command hcfg hbus, issueWord_of_ok hd]

end Sys2Proof.Machine
end

section
/-! The operations that are legal in `ERR` or ignored there (40_frame_control.md R110, R111, R119). -/

namespace Sys2Proof.Machine

/-- Settles O15: in `ERR` it is ignored, outside it is legal and its body does nothing. -/
theorem nopChangesNothing : Obligations.NopChangesNothing := by
  refine ⟨by decide, fun s => ?_⟩
  by_cases hp : s.phase = .err
  · exact issue_of_err hp
  · exact issue_of_ok hp ((legal_iff hp .nop).2 trivial) rfl

/-- Every entry of a cleared channel is 0. -/
theorem clearChan_entries (s : State) (k : Nat) :
    (∀ g ∈ (clearChan s k).nnf, (∀ x ∈ g.h, x = 0) ∧ ∀ x ∈ g.w, x = 0) ∧
      (∀ x ∈ (clearChan s k).pred.a, x = 0) ∧ (∀ x ∈ (clearChan s k).pred.b, x = 0) ∧
      (∀ x ∈ (clearChan s k).pred.y, x = 0) ∧ ∀ x ∈ (clearChan s k).pred.z, x = 0 := by
  simp +contextual [clearChan, Stage.zeroBank, Predictor.zero, List.mem_replicate]

/-- Settles O14: both channels of the state `SRESET` answers are cleared channels. -/
theorem sresetReturnsFromEveryState : Obligations.SresetReturnsFromEveryState := by
  refine ⟨by decide, fun s => ⟨softReset s, exec_sreset s, rfl, rfl, rfl, rfl, rfl, rfl, rfl, rfl, rfl, rfl, rfl,
    fun c _ => ?_, rfl, ⟨fun _ => rfl, fun _ => rfl⟩, rfl, rfl⟩⟩
  have hchan : (softReset s).chan c = clearChan s 0 := by unfold State.chan; split <;> rfl
  rw [hchan]
  exact ⟨rfl, rfl, clearChan_entries s 0⟩

/-- In `ERR` a word is ignored unless it decodes to `SRESET` (R119). -/
theorem issueWord_of_err {w : Word} {s : State} (hp : s.phase = .err) (hw : decode w ≠ .ok .sreset) :
    issueWord w s = .next s := by
  cases hd : decode w with
  | error e => simp [issueWord, hd, rejectWord, hp]
  | ok i =>
    have hi : i ≠ .sreset := fun h => hw (h ▸ hd)
    rw [issueWord_of_ok hd, exec_eq_issue hi, issue_of_err hp]

/-- Settles O13: `SRESET` has one word (R88). -/
theorem errIgnoresEveryWordButSreset : Obligations.ErrIgnoresEveryWordButSreset := by
  intro s w rest ⟨hcfg, hbus⟩ hp
  rw [step_of_command hcfg hbus]
  have hword : decode w = .ok .sreset ↔ w = 0x01000000#32 := by
    rw [decode_eq_ok_iff, eq_comm (a := w)]
    exact and_iff_right rfl
  exact ⟨fun h => issueWord_of_ok (hword.2 h) _, fun h =>
    issueWord_of_err (s := { s with bus := rest }) hp (mt hword.1 h)⟩

end Sys2Proof.Machine
end

section
/-! `FRAME_START` (40_frame_control.md R112 to R116): its checks against the errors of `Spec.startError` one by one, and
the started state. -/

namespace Sys2Proof.Machine

/-- The outcome of a computation that raises the error, if there is one, and else ends in `t`. -/
def outcomeOf (e : Option Err) (t : State) : Except Err State := e.elim (.ok t) .error

@[simp] theorem outcomeOf_none (t : State) : outcomeOf none t = .ok t := rfl

@[simp] theorem outcomeOf_some (e : Err) (t : State) : outcomeOf (some e) t = .error e := rfl

/-- A check before a computation is a check before what follows it. -/
theorem check_bind {α β : Type} {b : Prop} [Decidable b] {e : Err} {x : Except Err α} {f : α → Except Err β} :
    ((if b then .error e else x) >>= f) = if b then .error e else x >>= f := by
  split <;> rfl

/-- ONE CHECK: the same condition raises the same error on both sides, and where it fails the rest agrees. -/
theorem check_outcome {b : Prop} [Decidable b] {P : Prop} [Decidable P] {x : Except Err State} {e : Err}
    {o : Option Err} {t : State} (hb : b ↔ P) (hx : ¬ P → x = outcomeOf o t) :
    (if b then .error e else x) = outcomeOf (if P then some e else o) t := by
  by_cases h : P
  · rw [if_pos (hb.2 h), if_pos h, outcomeOf_some]
  · rw [if_neg (mt hb.1 h), if_neg h, hx h]

theorem runChecks_cons_bind {α : Type} (b : Bool) (e : Err) (l : List (Bool × Err)) (f : Unit → Except Err α) :
    (runChecks ((b, e) :: l) >>= f) = if b then .error e else runChecks l >>= f := by
  cases b <;> rfl

theorem runChecks_nil_bind {α : Type} (f : Unit → Except Err α) : (runChecks [] >>= f) = f () := rfl

/-- The two words of the header are inside the window, or `TruncatedFrame(2)` (R115). -/
theorem header_bind {α : Type} (v : View) (p : Nat) (f : Word → Word → Except Err α) :
    (headerWord v p >>= fun crc => headerWord v (p + 32) >>= fun w => f crc w) =
      if ¬ streamDefined v p 64 then .error (truncatedFrame 2)
      else f (natWord (streamBits v p 32)) (natWord (streamBits v (p + 32) 32)) := by
  rw [show (64 : Nat) = 32 + 32 from rfl, streamDefined_add, headerWord, headerWord]
  cases streamDefined v p 32 <;> cases streamDefined v (p + 32) 32 <;> rfl

/-- `RcInit` reads one byte, or `CorruptBitstream(1)` (R131, R132). -/
theorem rcInit_eq (v : View) (r : RangeState) :
    rcInit v r =
      if ¬ streamDefined v r.pos.toNat 8 then .error (corruptBitstream 1)
      else .ok ⟨natWord (streamBits v r.pos.toNat 8 % 2 ^ 7), natWord (2 ^ 7), natWord (r.pos.toNat + 8)⟩ := by
  rw [rcInit, nextByte]
  cases streamDefined v r.pos.toNat 8 <;> rfl

/-- Check 4 of R112: the level is none of the five. -/
theorem row_isNone_iff (t : NnfTable) (x : Word) :
    (t.row x.toNat).isNone = true ↔ x ∉ ([1000, 2000, 3000, 4000, 5000] : List Word) := by
  have hlevel (n : Nat) (hn : n < 2 ^ 32) : x = BitVec.ofNat 32 n ↔ x.toNat = n := (toNat_eq_iff hn).symm
  simp only [List.mem_cons, List.not_mem_nil, or_false, BitVec.ofNat_eq_ofNat, hlevel 1000 (by decide),
    hlevel 2000 (by decide), hlevel 3000 (by decide), hlevel 4000 (by decide), hlevel 5000 (by decide), NnfTable.row]
  split_ifs <;> simp_all

/-- The expected block count as a word (R113 check 2). -/
theorem nblocks_expected_iff (s : State) :
    (s.regs.nblocks.toNat != expectedBlocks s) = true ↔ s.regs.nblocks ≠
      (if s.regs.frameIndex.toNat + 1 < s.regs.totalFrames.toNat then s.regs.blocksPerFrame
        else s.regs.finalFrameBlocks) := by
  have hlast : s.regs.frameIndex.toNat < s.regs.totalFrames.toNat - 1 ↔
      s.regs.frameIndex.toNat + 1 < s.regs.totalFrames.toNat := by omega
  rw [expectedBlocks, bne_iff_ne, ← apply_ite BitVec.toNat]
  simp only [hlast, ne_eq, BitVec.toNat_inj]

/-- The cleared state after the header (R114, R115). -/
def headed (s : State) : State :=
  { clearFrameState s with
    rc := ⟨0, 0, natWord (s.regs.startBit.toNat + 64)⟩
    frameCrc := Spec.headerCrc s
    frameFlags := Spec.headerFlags s
    fstereo := flagFalseStereo (Spec.headerFlags s)
    silent := flagSilence (Spec.headerFlags s) != 0 }

theorem headerFalseStereo_eq (s : State) : Spec.headerFalseStereo s = flagFalseStereo (Spec.headerFlags s) :=
  (flagFalseStereo_eq _).symm

theorem headerSilence_eq (s : State) : Spec.headerSilence s = flagSilence (Spec.headerFlags s) :=
  (flagSilence_eq _).symm

theorem headerCoded_eq (s : State) :
    Spec.headerCoded s = codedChannels s.regs.channels (flagFalseStereo (Spec.headerFlags s)) := by
  rw [← headerFalseStereo_eq]; rfl

/-- `ReadHeader` of the cleared state: its words are inside the window and its flags legal, or the first error. -/
theorem readHeader_clear (s : State) : readHeader (clearFrameState s) =
    if ¬ streamDefined s.view s.regs.startBit.toNat 64 then .error (truncatedFrame 2)
    else runChecks (flagChecks s (Spec.headerFlags s)) >>= fun _ => .ok (headed s) :=
  header_bind _ _ _

/-- The end of `FRAME_START` in a silent frame (R116, R204). -/
theorem headed_silent {s : State} (hs : Spec.headerSilence s ≠ 0) :
    { headed s with phase := .opened } = Spec.started s := by
  have hsilent : (flagSilence (Spec.headerFlags s) != 0) = true := by simpa [headerSilence_eq] using hs
  simp only [headed, Spec.started, headerFalseStereo_eq, hsilent, decide_eq_true hs]
  rfl

/-- The end of `FRAME_START` in any other frame: the range decoder starts on the byte after the header (R116, R132). -/
theorem opRcInit_headed {s : State} (hbit : s.regs.startBit.toNat ≤ 31) (hs : Spec.headerSilence s = 0) :
    (opRcInit (headed s) >>= fun u => .ok { u with phase := .opened }) =
      if ¬ streamDefined s.view (s.regs.startBit.toNat + 64) 8 then .error (corruptBitstream 1)
      else .ok (Spec.started s) := by
  have hpos : (headed s).rc.pos.toNat = s.regs.startBit.toNat + 64 := natWord_toNat_of_lt (by omega)
  have hview : (headed s).view = s.view := rfl
  have hloud : (flagSilence (Spec.headerFlags s) != 0) = false := by simpa [headerSilence_eq] using hs
  simp only [opRcInit, rcInit_eq, hpos, hview, check_bind, ok_bind]
  simp only [headed, Spec.started, headerFalseStereo_eq, hloud, hs]
  rfl

/-- `FRAME_START` is the first error in order, or the started state. -/
theorem frameStart_eq (s : State) : frameStart s = outcomeOf (Spec.startError s) (Spec.started s) := by
  unfold frameStart Spec.startError
  simp only [streamChecks, frameChecks, runChecks_cons_bind, runChecks_nil_bind, readHeader_clear, check_bind]
  refine check_outcome (by simp) fun _ => ?_
  refine check_outcome (by simp [← BitVec.toNat_inj]) fun _ => ?_
  refine check_outcome (by simp [← BitVec.toNat_inj, and_assoc]) fun _ => ?_
  refine check_outcome (row_isNone_iff _ _) fun _ => ?_
  refine check_outcome (by simp [← BitVec.toNat_inj]) fun _ => ?_
  refine check_outcome (by simp [← BitVec.toNat_inj, BitVec.lt_def]) fun _ => ?_
  refine check_outcome (by simp [← BitVec.toNat_inj]) fun _ => ?_
  refine check_outcome (by simp) fun hbit => ?_
  refine check_outcome (by simp [BitVec.le_def]) fun _ => ?_
  refine check_outcome (nblocks_expected_iff s) fun _ => ?_
  refine check_outcome (by simp) fun _ => ?_
  refine check_outcome (by simp) fun _ => ?_
  refine check_outcome (by simp [BitVec.lt_def]) fun _ => ?_
  refine check_outcome Iff.rfl fun _ => ?_
  simp only [flagChecks, runChecks_cons_bind, runChecks_nil_bind, check_bind, ok_bind]
  refine check_outcome (by simp [flagReservedSet_eq]) fun _ => ?_
  refine check_outcome (by simp [headerFalseStereo_eq]) fun _ => ?_
  refine check_outcome (by simp [headerSilence_eq, headerCoded_eq]) fun _ => ?_
  by_cases hs : Spec.headerSilence s = 0
  · have hloud : (headed s).silent = false := by simpa [headed, headerSilence_eq] using hs
    rw [if_neg (by simp [hloud]), opRcInit_headed (Nat.not_lt.1 hbit) hs]
    exact check_outcome (by simp [hs]) fun _ => rfl
  · have hsilent : (headed s).silent = true := by simpa [headed, headerSilence_eq] using hs
    rw [if_pos hsilent, headed_silent hs, if_neg fun h => hs h.1, outcomeOf_none]

/-- Settles O39: `FRAME` ends with the error of its first six lines. -/
theorem frameStartValidatesAndStarts : Obligations.FrameStartValidatesAndStarts := by
  refine ⟨by decide, by decide, fun s hp => ⟨fun hnone => ?_, fun e he => ⟨?_, ?_⟩⟩⟩
  · exact issue_of_ok hp ((legal_iff hp .frameStart).2 trivial) (by rw [frameStart_eq, hnone, outcomeOf_none])
  · exact ⟨_, issue_of_error hp ((legal_iff hp .frameStart).2 trivial) (by rw [frameStart_eq, he, outcomeOf_some]),
      raised_raise e s⟩
  · have hframe : opFrame s = .error e := by rw [opFrame, frameStart_eq, he, outcomeOf_some, error_bind]
    exact ⟨_, issue_of_error hp ((legal_iff hp .frame).2 trivial) hframe, raised_raise e s⟩

end Sys2Proof.Machine
end

section
/-! Two computations side by side, and the operations of the step mode as one computation that stops at the first error
(30_encoding.md R90, 70_reset_and_hazards.md R266). -/

namespace Sys2Proof.Machine

/-! ## Two computations side by side -/

/-- Two computations end alike: both complete, with results that `R` relates, or both raise the same error. -/
def Alike {α β : Type} (R : α → β → Prop) (x : Except Err α) (y : Except Err β) : Prop :=
  (∃ a b, x = .ok a ∧ y = .ok b ∧ R a b) ∨ ∃ e, x = .error e ∧ y = .error e

section
variable {α β γ δ : Type} {R : α → β → Prop} {Q : γ → δ → Prop}

theorem alike_ok {a : α} {b : β} (h : R a b) : Alike R (.ok a) (.ok b) := .inl ⟨a, b, rfl, rfl, h⟩

theorem alike_error (e : Err) : Alike R (.error e) (.error e) := .inr ⟨e, rfl, rfl⟩

theorem Alike.bind {x : Except Err α} {y : Except Err β} {f : α → Except Err γ} {g : β → Except Err δ}
    (h : Alike R x y) (hfg : ∀ a b, R a b → Alike Q (f a) (g b)) : Alike Q (x >>= f) (y >>= g) := by
  obtain ⟨a, b, rfl, rfl, hab⟩ | ⟨e, rfl, rfl⟩ := h
  · exact hfg a b hab
  · exact alike_error e

/-- The same first computation, then two that end alike. -/
theorem alike_bind_same {x : Except Err α} {f : α → Except Err γ} {g : α → Except Err δ}
    (h : ∀ a, Alike Q (f a) (g a)) : Alike Q (x >>= f) (x >>= g) := by
  cases x with
  | ok a => exact h a
  | error e => exact alike_error e

theorem Alike.mono {R' : α → β → Prop} {x : Except Err α} {y : Except Err β} (h : Alike R x y)
    (hR : ∀ a b, R a b → R' a b) : Alike R' x y :=
  h.imp (fun ⟨a, b, hx, hy, hab⟩ => ⟨a, b, hx, hy, hR a b hab⟩) id

theorem Alike.of_left_ok {x : Except Err α} {y : Except Err β} {a : α} (h : Alike R x y) (hx : x = .ok a) :
    ∃ b, y = .ok b ∧ R a b := by
  obtain ⟨a', b, rfl, rfl, hab⟩ | ⟨e, rfl, rfl⟩ := h
  · cases hx; exact ⟨b, rfl, hab⟩
  · cases hx

theorem Alike.of_right_ok {x : Except Err α} {y : Except Err β} {b : β} (h : Alike R x y) (hy : y = .ok b) :
    ∃ a, x = .ok a ∧ R a b := by
  obtain ⟨a, b', rfl, rfl, hab⟩ | ⟨e, rfl, rfl⟩ := h
  · cases hy; exact ⟨a, rfl, hab⟩
  · cases hy

theorem Alike.of_left_error {x : Except Err α} {y : Except Err β} {e : Err} (h : Alike R x y) (hx : x = .error e) :
    y = .error e := by
  obtain ⟨a, b, rfl, rfl, -⟩ | ⟨e', rfl, rfl⟩ := h
  · cases hx
  · cases hx; rfl

end

/-- THE LOOP RULE for two loops: what relates the two states before the first iteration, and is carried by each
iteration, relates them at the end. -/
theorem alike_forUpTo {f g : Nat → State → Except Err State} {n : Nat} {s t : State} (R : Nat → State → State → Prop)
    (h0 : R 0 s t) (hs : ∀ i < n, ∀ a b, R i a b → Alike (R (i + 1)) (f i a) (g i b)) :
    Alike (R n) (forUpTo n f s) (forUpTo n g t) := by
  induction n with
  | zero => exact alike_ok h0
  | succ n ih =>
    exact (ih fun i hi => hs i (Nat.lt_succ_of_lt hi)).bind fun a b hab => hs n (Nat.lt_succ_self n) a b hab

/-- A loop is its first iterations, then the rest. -/
theorem forUpTo_add (f : Nat → State → Except Err State) (n m : Nat) (s : State) :
    forUpTo (n + m) f s = forUpTo n f s >>= forUpTo m fun j => f (n + j) := by
  induction m with
  | zero => exact (bind_pure _).symm
  | succ m ih => rw [← Nat.add_assoc, forUpTo_succ, ih, bind_assoc]; rfl

/-- A loop seen from its first iteration. -/
theorem forUpTo_succ_first (f : Nat → State → Except Err State) (n : Nat) (s : State) :
    forUpTo (n + 1) f s = f 0 s >>= forUpTo n fun j => f (j + 1) := by
  rw [Nat.add_comm, forUpTo_add]
  simp only [Nat.add_comm 1]
  rfl

/-! ## Operations one after the other -/

/-- An operation of the step mode: neither `SRESET` nor one of the two that start a frame. -/
abbrev UnitOp (i : Instr) : Prop := i ≠ .sreset ∧ i ≠ .frameStart ∧ i ≠ .frame

/-- An operation outside `ERR` as a computation: the checks of R87, then its pseudocode. -/
def attempt (i : Instr) (s : State) : Except Err State :=
  if legal i s then body i s else .error (illegalCommand (encode i))

/-- Operations one after the other, up to the first that raises. -/
def attempts (ops : List Instr) (s : State) : Except Err State := ops.foldlM (fun u i => attempt i u) s

@[simp] theorem attempts_nil (s : State) : attempts [] s = .ok s := rfl

@[simp] theorem attempts_cons (i : Instr) (ops : List Instr) (s : State) :
    attempts (i :: ops) s = attempt i s >>= attempts ops := rfl

theorem attempts_append (l m : List Instr) (s : State) : attempts (l ++ m) s = attempts l s >>= attempts m :=
  List.foldlM_append

theorem attempts_singleton (i : Instr) (s : State) : attempts [i] s = attempt i s := bind_pure _

/-- A list of operation lists, one for each number below `m`, is a counted loop. -/
theorem attempts_flatten_range (m : Nat) (g : Nat → List Instr) (s : State) :
    attempts ((List.range m).map g).flatten s = forUpTo m (fun c => attempts (g c)) s := by
  induction m with
  | zero => rfl
  | succ m ih =>
    rw [List.range_succ, List.map_append, List.flatten_append, attempts_append, ih, forUpTo_succ]
    simp

theorem attempts_map_range (m : Nat) (f : Nat → Instr) (s : State) :
    attempts ((List.range m).map f) s = forUpTo m (fun c => attempt (f c)) s := by
  induction m with
  | zero => rfl
  | succ m ih =>
    rw [List.range_succ, List.map_append, attempts_append, ih, forUpTo_succ]
    congr 1
    funext u
    exact attempts_singleton _ u

theorem attempt_of_legal {i : Instr} {s : State} (hp : s.phase ≠ .err) (hl : Spec.Legal s i) :
    attempt i s = body i s := if_pos ((legal_iff hp i).2 hl)

theorem exec_eq_settle {i : Instr} {s : State} (hi : i ≠ .sreset) (hp : s.phase ≠ .err) :
    exec i s = .next (settle (attempt i s) s) := by
  rw [exec_eq_issue hi, issue, if_neg hp, attempt]
  split <;> rfl

theorem attempt_phase {i : Instr} {s t : State} (hi : UnitOp i) (h : attempt i s = .ok t) : t.phase = s.phase := by
  unfold attempt at h
  split at h
  · exact (onlyUnit_body hi.1 hi.2.1 hi.2.2 h).phase
  · cases h

theorem attempts_phase {ops : List Instr} (hops : ∀ i ∈ ops, UnitOp i) {s t : State} (h : attempts ops s = .ok t) :
    t.phase = s.phase := by
  induction ops generalizing s with
  | nil => cases h; rfl
  | cons i ops ih =>
    obtain ⟨u, hu, h⟩ := bind_ok h
    rw [List.forall_mem_cons] at hops
    rw [ih hops.2 h, attempt_phase hops.1 hu]

/-- The machine ends in `t` as the computation does: in its result, or in `ERR` with its error. -/
def EndsIn (x : Except Err State) (t : State) : Prop :=
  x = .ok t ∨ ∃ e, x = .error e ∧ t.phase = .err ∧ t.errCode = e.kind ∧ t.errInfo = e.info

theorem EndsIn.ok_of_phase {x : Except Err State} {t : State} (h : EndsIn x t) (ht : t.phase ≠ .err) : x = .ok t :=
  h.resolve_right fun ⟨_, _, hp, _⟩ => ht hp

/-- In `ERR` the operations of the step mode are ignored (R119). -/
theorem runOps_of_err {ops : List Instr} (hops : ∀ i ∈ ops, UnitOp i) {s : State} (hp : s.phase = .err) :
    runOps ops s = .next s := by
  induction ops with
  | nil => rfl
  | cons i ops ih =>
    rw [List.forall_mem_cons] at hops
    rw [runOps, exec_eq_issue hops.1.1, issue_of_err hp]
    exact ih hops.2

/-- `runOps` is `attempts`: after the first error every operation is ignored. -/
theorem runOps_endsIn {ops : List Instr} (hops : ∀ i ∈ ops, UnitOp i) {s : State} (hp : s.phase ≠ .err) :
    ∃ t, runOps ops s = .next t ∧ EndsIn (attempts ops s) t := by
  induction ops generalizing s with
  | nil => exact ⟨s, rfl, .inl rfl⟩
  | cons i ops ih =>
    rw [List.forall_mem_cons] at hops
    rw [runOps, exec_eq_settle hops.1.1 hp, attempts_cons]
    cases hi : attempt i s with
    | ok u => exact ih hops.2 (by rwa [settle_ok, attempt_phase hops.1 hi])
    | error e => exact ⟨raise e s, runOps_of_err hops.2 rfl, .inr ⟨e, rfl, rfl, rfl, rfl⟩⟩

theorem filterOps_unitOp (nstages c : Nat) : ∀ i ∈ filterOps nstages c, UnitOp i := by
  simp [filterOps, UnitOp, or_imp, forall_and]

theorem blockOps_unitOp (s : State) : ∀ i ∈ blockOps s, UnitOp i := by
  intro i hi
  unfold blockOps at hi
  split at hi
  · simp_all [UnitOp]
  · simp only [List.mem_append, List.mem_map, List.mem_flatten, List.mem_ite_nil_right, List.mem_singleton] at hi
    obtain ((⟨c, -, rfl⟩ | ⟨l, ⟨c, -, rfl⟩, hi⟩) | ⟨-, rfl⟩) | rfl := hi
    · simp [UnitOp]
    · exact filterOps_unitOp _ _ i hi
    · simp [UnitOp]
    · simp [UnitOp]

/-- `BLOCK` as a computation (R90). -/
def attemptBlock (s : State) : Except Err State := attempts (blockOps s) s

theorem runBlocks_of_err (n : Nat) {s : State} (hp : s.phase = .err) : runBlocks n s = .next s := by
  induction n with
  | zero => rfl
  | succ n ih => rw [runBlocks, runOps_of_err (blockOps_unitOp s) hp]; exact ih

/-- `runBlocks` is a counted loop of `BLOCK`. -/
theorem runBlocks_endsIn (n : Nat) {s : State} (hp : s.phase ≠ .err) :
    ∃ t, runBlocks n s = .next t ∧ EndsIn (forUpTo n (fun _ => attemptBlock) s) t := by
  induction n generalizing s with
  | zero => exact ⟨s, rfl, .inl rfl⟩
  | succ n ih =>
    obtain ⟨u, hu, hend⟩ := runOps_endsIn (blockOps_unitOp s) hp
    rw [runBlocks, hu, forUpTo_succ_first]
    obtain hok | ⟨e, he, hperr, hcode, hinfo⟩ := hend
    · rw [attemptBlock, hok]
      exact ih (by rwa [attempts_phase (blockOps_unitOp s) hok])
    · rw [attemptBlock, he]
      exact ⟨u, runBlocks_of_err n hperr, .inr ⟨e, rfl, hperr, hcode, hinfo⟩⟩

end Sys2Proof.Machine
end

section
/-! The entropy pass of `FRAME` against `ENT_RES` (40_frame_control.md R117 step 4, 60_exceptions.md R227 (3)). -/

namespace Sys2Proof.Machine

/-! ## The datapath of an open frame -/

/-- `u` differs from `s` in `RES`, the range decoder's registers and the two channels at most: what the operations of
`BLOCK` before `EMIT` may write. -/
def OnlyDatapath (s u : State) : Prop := u = { s with res := u.res, rc := u.rc, ch0 := u.ch0, ch1 := u.ch1 }

namespace OnlyDatapath

variable {s t u : State}

theorem refl (s : State) : OnlyDatapath s s := rfl

theorem trans (h : OnlyDatapath s t) (g : OnlyDatapath t u) : OnlyDatapath s u := by
  unfold OnlyDatapath at *; rw [g, h]

theorem phase (h : OnlyDatapath s t) : t.phase = s.phase := by rw [h]

theorem silent (h : OnlyDatapath s t) : t.silent = s.silent := by rw [h]

theorem fstereo (h : OnlyDatapath s t) : t.fstereo = s.fstereo := by rw [h]

theorem rcInit (h : OnlyDatapath s t) : t.rcInit = s.rcInit := by rw [h]

theorem regs (h : OnlyDatapath s t) : t.regs = s.regs := by rw [h]

theorem bidx (h : OnlyDatapath s t) : t.bidx = s.bidx := by rw [h]

theorem out (h : OnlyDatapath s t) : t.out = s.out := by rw [h]

theorem cfg (h : OnlyDatapath s t) : t.cfg = s.cfg := by rw [h]

theorem nch (h : OnlyDatapath s t) : t.nch = s.nch := by rw [h]; rfl

theorem ncoded (h : OnlyDatapath s t) : t.ncoded = s.ncoded := by rw [h]; rfl

theorem nstages (h : OnlyDatapath s t) : t.nstages = s.nstages := by rw [h]; rfl

end OnlyDatapath

theorem onlyDatapath_setChan (s : State) (c : Nat) (ch : Chan) : OnlyDatapath s (s.setChan c ch) := by
  unfold State.setChan; split <;> rfl

/-- The state of `FRAME` where the step mode is in `u`: `FRAME` keeps `RES`, `BIDX` and the samples cleared, and the
words of the blocks in progress stand in `OUT`, which holds `o`. -/
def frameView (o : Memory 32) (u : State) : State :=
  { u with res := 0, bidx := 0, ch0 := { u.ch0 with sample := 0 }, ch1 := { u.ch1 with sample := 0 }, out := o }

section
variable (o : Memory 32) (u : State) (c : Nat)

@[simp] theorem frameView_out : (frameView o u).out = o := rfl

@[simp] theorem frameView_cfg : (frameView o u).cfg = u.cfg := rfl

@[simp] theorem frameView_rc : (frameView o u).rc = u.rc := rfl

@[simp] theorem frameView_view : (frameView o u).view = u.view := rfl

@[simp] theorem frameView_row : (frameView o u).row = u.row := rfl

@[simp] theorem frameView_nch : (frameView o u).nch = u.nch := rfl

@[simp] theorem frameView_ncoded : (frameView o u).ncoded = u.ncoded := rfl

@[simp] theorem frameView_silent : (frameView o u).silent = u.silent := rfl

@[simp] theorem frameView_fstereo : (frameView o u).fstereo = u.fstereo := rfl

theorem frameView_chan : (frameView o u).chan c = { u.chan c with sample := 0 } := by
  unfold State.chan; split <;> rfl

theorem writeOut_frameView (i : Nat) (v : Word) : (frameView o u).writeOut i v = frameView (o.write i v) u := rfl

/-- Setting a channel is seen but for its sample. -/
theorem frameView_setChan (ch : Chan) :
    frameView o (u.setChan c ch) = (frameView o u).setChan c { ch with sample := 0 } := by
  unfold State.setChan; split <;> rfl

theorem frameView_setSample (v : Word) : frameView o (u.setSample c v) = frameView o u := by
  unfold State.setSample State.setChan State.chan; split <;> rfl

theorem frameView_setK (e k : Nat) : frameView o (u.setK e k) = (frameView o u).setK e k := by
  unfold State.setK State.setChan State.chan; split <;> rfl

end

/-! ## One residual -/

/-- The value of the next residual of channel `c`, and the range decoder's registers after it (R137). -/
def nextResidual (c : Nat) (s : State) : Except Err (Nat × RangeState) :=
  rcValue s.cfg s.view (s.chan (kIndex s.cfg c)).k s.rc

/-- The range decoder and `K[e]` advanced past the residual `d` of channel `c` (R137, R139). -/
def pastResidual (c : Nat) (d : Nat × RangeState) (s : State) : State :=
  { s with rc := d.2 }.setK (kIndex s.cfg c) (adapt s.cfg.kMax (s.chan (kIndex s.cfg c)).k d.1)

/-- The sample of a decoded residual (R138). -/
abbrev residualWord (d : Nat × RangeState) : Word := toWord (fold d.1)

theorem onlyDatapath_pastResidual (c : Nat) (d : Nat × RangeState) (s : State) :
    OnlyDatapath s (pastResidual c d s) :=
  OnlyDatapath.trans (t := { s with rc := d.2 }) rfl (onlyDatapath_setChan _ _ _)

theorem entropyChannel_eq (b c : Nat) (s : State) : entropyChannel b c s =
    nextResidual c s >>= fun d => .ok ((pastResidual c d s).writeOut (b * s.nch + c) (residualWord d)) := by
  unfold entropyChannel entRes
  simp only [nextResidual, bind_assoc, ok_bind]
  congr 1
  funext d
  rw [← (onlyDatapath_pastResidual c d s).nch]
  rfl

theorem opEntRes_eq (c : Nat) (s : State) : opEntRes c s =
    nextResidual c s >>= fun d =>
      .ok ({ pastResidual c d s with res := natWord d.1 }.setSample c (residualWord d)) := by
  unfold opEntRes entRes
  simp only [nextResidual, bind_assoc, ok_bind]
  rfl

theorem pastResidual_sample (c : Nat) (d : Nat × RangeState) (s : State) (j : Nat) :
    ((pastResidual c d s).chan j).sample = (s.chan j).sample := by
  unfold pastResidual State.setK State.setChan State.chan
  split_ifs <;> rfl

theorem nextResidual_frameView (o : Memory 32) (u : State) (c : Nat) :
    nextResidual c (frameView o u) = nextResidual c u := by
  simp [nextResidual, frameView_chan]

theorem pastResidual_frameView (o : Memory 32) (u : State) (c : Nat) (d : Nat × RangeState) :
    pastResidual c d (frameView o u) = frameView o (pastResidual c d u) := by
  rw [pastResidual, pastResidual, frameView_setK, frameView_chan]
  rfl

theorem ncoded_le_two (s : State) : s.ncoded ≤ 2 := by
  unfold State.ncoded codedChannels; split <;> decide

/-- One sample of block `b`, channel `c`, on both sides: the step mode goes from `u` to `u'` and leaves it in `S[c]`,
`FRAME` ends in `t` and leaves it in a word of `OUT`, which held `o`. -/
structure SampleStep (b c : Nat) (o : Memory 32) (u u' t : State) : Prop where
  datapath : OnlyDatapath u u'
  others : ∀ j < 2, j ≠ c → (u'.chan j).sample = (u.chan j).sample
  view : t = frameView (o.write (b * u.nch + c) (u'.chan c).sample) u'

/-- One residual of `FRAME` against `ENT_RES` (R117 step 4, R137): the same value, in a word of `OUT` here and in `S[c]`
there. -/
theorem entRes_alike {u : State} (hp : u.phase = .opened) (hr : u.rcInit = true) {c : Nat} (hc : c < u.ncoded)
    (b : Nat) (o : Memory 32) :
    Alike (SampleStep b c o u) (attempt (.entRes c) u) (entropyChannel b c (frameView o u)) := by
  have hlegal : Spec.Legal u (.entRes c) := ⟨hp, hc, hr⟩
  rw [attempt_of_legal (by simp [hp]) hlegal, entropyChannel_eq, nextResidual_frameView]
  change Alike _ (opEntRes c u) _
  rw [opEntRes_eq]
  refine alike_bind_same fun d => alike_ok ⟨?_, fun j hj hne => ?_, ?_⟩
  · have hres : OnlyDatapath (pastResidual c d u) { pastResidual c d u with res := natWord d.1 } := rfl
    exact ((onlyDatapath_pastResidual c d u).trans hres).trans (onlyDatapath_setChan _ _ _)
  · rw [setSample_eq, chan_setChan_of_ne _ _ _ (hc.trans_le (ncoded_le_two u)) hj hne]
    exact pastResidual_sample c d u j
  · rw [frameView_setSample, pastResidual_frameView, setSample_eq, chan_setChan_self]
    rfl

/-! ## The entropy pass -/

/-- A state at the start of a frame is its own frame view. -/
theorem frameView_started (s : State) : frameView s.out (Spec.started s) = Spec.started s := rfl

/-- Decoding the residuals of `n` blocks with `ENT_RES` ends as step 4 of `FRAME` does (R117). -/
theorem entropyPass_alike {s : State} (hp : s.phase = .opened) (hr : s.rcInit = true) (o : Memory 32) (n : Nat) :
    Alike (fun _ _ => True) (attempts (List.replicate n ((List.range s.ncoded).map Instr.entRes)).flatten s)
      (forUpTo n entropyBlock (frameView o s)) := by
  have hloop : attempts (List.replicate n ((List.range s.ncoded).map Instr.entRes)).flatten s =
      forUpTo n (fun _ => forUpTo s.ncoded fun c => attempt (.entRes c)) s := by
    have hlist : List.replicate n ((List.range s.ncoded).map Instr.entRes) =
        (List.range n).map fun _ => (List.range s.ncoded).map Instr.entRes := by simp
    rw [hlist, attempts_flatten_range]
    congr 1
    funext _ u
    exact attempts_map_range _ _ u
  rw [hloop]
  refine (alike_forUpTo (fun _ u t => OnlyDatapath s u ∧ ∃ o, t = frameView o u) ⟨.refl s, o, rfl⟩ ?_).mono
    fun _ _ _ => trivial
  rintro b - u _ ⟨hu, o, rfl⟩
  have hcount : (frameView o u).ncoded = s.ncoded := hu.ncoded
  rw [entropyBlock, hcount]
  refine alike_forUpTo (fun _ u t => OnlyDatapath s u ∧ ∃ o, t = frameView o u) ⟨hu, o, rfl⟩ ?_
  rintro c hc v _ ⟨hv, o, rfl⟩
  refine (entRes_alike (hv.phase.trans hp) (hv.rcInit.trans hr) (hv.ncoded ▸ hc) b o).mono ?_
  rintro v' _ ⟨hv', -, rfl⟩
  exact ⟨hv.trans hv', _, rfl⟩

/-- An error of the entropy pass is the error of the body of a frame that is not silent (R227 (3)). -/
theorem frameBody_error {s : State} {e : Err} (hs : s.silent = false)
    (h : forUpTo s.regs.nblocks.toNat entropyBlock s = .error e) : frameBody s = .error e := by
  simp [frameBody, hs, h]

/-- Settles O41: the entropy pass comes before every filter. -/
theorem frameReportsTheFirstEntropyError : Obligations.FrameReportsTheFirstEntropyError := by
  intro s t hp hstart hloud hrun ht
  have hstarted : frameStart s = .ok (Spec.started s) := by rw [frameStart_eq, hstart, outcomeOf_none]
  have hsilent : (Spec.started s).silent = false := by simp [Spec.started, hloud]
  have hr : (Spec.started s).rcInit = true := by simp [Spec.started, hloud]
  have hunit : ∀ i ∈ (List.replicate s.regs.nblocks.toNat
      ((List.range (Spec.headerCoded s)).map Instr.entRes)).flatten, UnitOp i := by
    simp +contextual [UnitOp, List.mem_replicate, eq_comm]
  obtain ⟨t', ht', hend⟩ := runOps_endsIn hunit (s := Spec.started s) (by simp [Spec.started])
  rw [hrun, Host.Outcome.next.injEq] at ht'
  subst ht'
  obtain hok | ⟨e, he, -, hcode, hinfo⟩ := hend
  · have hopen := attempts_phase hunit hok
    rw [ht] at hopen
    cases hopen
  · have hpass := (entropyPass_alike rfl hr s.out s.regs.nblocks.toNat).of_left_error he
    rw [frameView_started] at hpass
    have hframe : opFrame s = .error e := by
      rw [opFrame, hstarted, ok_bind, frameBody_error hsilent hpass, error_bind]
    rw [hcode, hinfo]
    exact ⟨_, issue_of_error hp ((legal_iff hp .frame).2 trivial) hframe, raised_raise e s⟩

end Sys2Proof.Machine
end

section
/-! The filter pass and the stereo pass of `FRAME`, one block at a time (40_frame_control.md R117 steps 5 and 6). -/

namespace Sys2Proof.Machine

/-! ## One sample through the filters -/

/-- The first `m` stages of a bank on the sample `x`: the output, and the bank after it (R117). -/
def bankCascade (row : List StageSpec) (c : Nat) (x : Word) (bank : List Stage) : Nat → Except Err (Word × List Stage)
  | 0 => .ok (x, bank)
  | m + 1 => do
    let (y, bank') ← bankCascade row c x bank m
    let (z, g) ← nnfStage (row[m]?.getD ⟨0, 0⟩) m c y (bank'[m]?.getD ⟨[], []⟩)
    .ok (z, bank'.set m g)

/-- A sample that has passed a channel's filters: the output, and the bank and the predictor after it. -/
structure Filtered where
  out : Word
  nnf : List Stage
  pred : Predictor

/-- The sample `x` through the bank and the predictor of channel `c` (R117 step 5). -/
def nextSample (c : Nat) (x : Word) (s : State) : Except Err Filtered := do
  let (y, bank) ← bankCascade s.row c x (s.chan c).nnf s.nstages
  let (z, q) ← predStage s.cfg c y (s.chan c).pred
  .ok ⟨z, bank, q⟩

/-- The bank and the predictor of channel `c` advanced past a sample. -/
def pastSample (c : Nat) (f : Filtered) (s : State) : State :=
  s.setChan c { s.chan c with nnf := f.nnf, pred := f.pred }

theorem cascade_eq (c : Nat) (x : Word) (s : State) (m : Nat) : cascade c x s m =
    bankCascade s.row c x (s.chan c).nnf m >>= fun q => .ok (q.1, s.setChan c { s.chan c with nnf := q.2 }) := by
  induction m with
  | zero => exact congrArg (fun t => Except.ok (x, t)) (setChan_chan s c).symm
  | succ m ih => simp [cascade, bankCascade, ih, nnfStep, bind_assoc]

/-- One iteration of step 5 of `FRAME`: a word of `OUT` through the filters. -/
theorem filterBlock_eq (c b : Nat) (s : State) : filterBlock c b s =
    nextSample c (outWord s.out (b * s.nch + c)) s >>= fun f =>
      .ok ((pastSample c f s).writeOut (b * s.nch + c) f.out) := by
  simp [filterBlock, nextSample, pastSample, cascade_eq, predStep, bind_assoc]

/-- The stages of a channel one after the other, each on `S[c]` (R90). -/
theorem attempts_nnfSteps {s : State} (hp : s.phase = .opened) {c : Nat} (hc : c < s.ncoded) {m : Nat}
    (hm : m ≤ s.nstages) : attempts ((List.range m).map fun st => .nnfStep st c) s =
      bankCascade s.row c (s.chan c).sample (s.chan c).nnf m >>= fun q =>
        .ok (s.setChan c { s.chan c with sample := q.1, nnf := q.2 }) := by
  rw [attempts_map_range]
  induction m with
  | zero => exact congrArg Except.ok (setChan_chan s c).symm
  | succ m ih =>
    rw [forUpTo_succ, ih (by omega), bankCascade, bind_assoc, bind_assoc]
    congr 1
    funext q
    have hlegal : Spec.Legal (s.setChan c { s.chan c with sample := q.1, nnf := q.2 }) (.nnfStep m c) :=
      ⟨by simp [hp], by simpa using hc, by simpa using hm⟩
    rw [ok_bind, attempt_of_legal (by simp [hp]) hlegal]
    simp [body, opNnfStep, nnfStep, bind_assoc, setSample_eq]

/-- The filter operations of a channel (R90): `S[c]` through the filters. -/
theorem attempts_filterOps {s : State} (hp : s.phase = .opened) {c : Nat} (hc : c < s.ncoded) :
    attempts (filterOps s.nstages c) s = nextSample c (s.chan c).sample s >>= fun f =>
      .ok ((pastSample c f s).setSample c f.out) := by
  rw [filterOps, attempts_append, attempts_nnfSteps hp hc (Nat.le_refl _), nextSample, bind_assoc, bind_assoc]
  congr 1
  funext q
  have hlegal : Spec.Legal (s.setChan c { s.chan c with sample := q.1, nnf := q.2 }) (.predStep c) :=
    ⟨by simp [hp], by simpa using hc⟩
  rw [ok_bind, attempts_singleton, attempt_of_legal (by simp [hp]) hlegal]
  simp [body, opPredStep, predStep, bind_assoc, setSample_eq, pastSample]

theorem nextSample_frameView (o : Memory 32) (u : State) (c : Nat) (x : Word) :
    nextSample c x (frameView o u) = nextSample c x u := by
  simp [nextSample, frameView_chan, State.nstages]

theorem pastSample_frameView (o : Memory 32) (u : State) (c : Nat) (f : Filtered) :
    pastSample c f (frameView o u) = frameView o (pastSample c f u) := by
  rw [pastSample, pastSample, frameView_setChan, frameView_chan]

theorem filter_alike {u : State} (hp : u.phase = .opened) {c : Nat} (hc : c < u.ncoded) {b : Nat} {o : Memory 32}
    (ho : outWord o (b * u.nch + c) = (u.chan c).sample) :
    Alike (SampleStep b c o u) (attempts (filterOps u.nstages c) u) (filterBlock c b (frameView o u)) := by
  rw [attempts_filterOps hp hc, filterBlock_eq, nextSample_frameView, frameView_out, frameView_nch, ho]
  refine alike_bind_same fun f => alike_ok ⟨?_, fun j hj hne => ?_, ?_⟩
  · exact (onlyDatapath_setChan _ _ _).trans (onlyDatapath_setChan _ _ _)
  · have hc2 := hc.trans_le (ncoded_le_two u)
    rw [setSample_eq, chan_setChan_of_ne _ _ _ hc2 hj hne, pastSample, chan_setChan_of_ne _ _ _ hc2 hj hne]
  · rw [frameView_setSample, pastSample_frameView, setSample_eq, chan_setChan_self]
    rfl

/-! ## Writes to `OUT` in either order -/

theorem insertCell_comm {w a b : Nat} (h : a ≠ b) (v u : BitVec w) (l : List (Nat × BitVec w)) :
    insertCell a v (insertCell b u l) = insertCell b u (insertCell a v l) := by
  induction l with
  | nil => grind [insertCell]
  | cons d l ih => grind [insertCell]

/-- Writes to two words of `OUT` swap. -/
theorem writeOut_comm {i j : Nat} (h : i ≠ j) (v w : Word) (s : State) :
    (s.writeOut i v).writeOut j w = (s.writeOut j w).writeOut i v := by
  unfold State.writeOut Memory.write
  rw [insertCell_comm h.symm]

end Sys2Proof.Machine
end

section
/-! The three passes of `FRAME` taken block by block: operations on different blocks, or on different channels, swap
(40_frame_control.md R117, R120). -/

namespace Sys2Proof.Machine

/-! ## Runs as relations -/

/-- `f` changes the decode state and nothing else. -/
def Decodes (f : State → Except Err State) : Prop := ∀ s t, f s = .ok t → OnlyDecode s t

theorem decodes_forUpTo {f : Nat → State → Except Err State} (hf : ∀ i, Decodes (f i)) (n : Nat) :
    Decodes (forUpTo n f) := fun _ _ h => onlyDecode_forUpTo h fun i _ => hf i

theorem decodes_filterBlock (c b : Nat) : Decodes (filterBlock c b) := fun _ _ h => onlyDecode_filterBlock h

theorem decodes_entropyChannel (b c : Nat) : Decodes (entropyChannel b c) := fun _ _ h => onlyDecode_entropyChannel h

theorem decodes_stereoBlock (b : Nat) : Decodes (stereoBlock b) := fun _ _ h => onlyDecode_stereoBlock h

/-- The runs of `f` that complete, from states that differ from `d` in the decode state at most. -/
def Leads (d : State) (f : State → Except Err State) (s t : State) : Prop := OnlyDecode d s ∧ f s = .ok t

/-- Two relations compose to the same in either order. -/
def Swaps (A B : State → State → Prop) : Prop := Relation.Comp A B = Relation.Comp B A

theorem comp_swap_middle {A B C D : State → State → Prop} (h : Swaps B C) :
    Relation.Comp (Relation.Comp A B) (Relation.Comp C D) = Relation.Comp (Relation.Comp A C) (Relation.Comp B D) := by
  unfold Swaps at h
  rw [Relation.comp_assoc, ← Relation.comp_assoc (r := B), h, Relation.comp_assoc, ← Relation.comp_assoc (r := A)]

theorem Swaps.comp_left {A B C : State → State → Prop} (hA : Swaps A C) (hB : Swaps B C) :
    Swaps (Relation.Comp A B) C := by
  unfold Swaps at *
  rw [Relation.comp_assoc, hB, ← Relation.comp_assoc, hA, Relation.comp_assoc]

section
variable {d : State} {f g : State → Except Err State}

theorem leads_bind (hf : Decodes f) :
    Leads d (fun s => f s >>= g) = Relation.Comp (Leads d f) (Leads d g) := by
  funext s t
  refine propext ⟨fun ⟨hs, h⟩ => ?_, fun ⟨u, ⟨hs, hu⟩, _, h⟩ => ⟨hs, ?_⟩⟩
  · obtain ⟨u, hu, h⟩ := bind_ok h
    exact ⟨u, ⟨hs, hu⟩, hs.trans (hf s u hu), h⟩
  · show (f s >>= g) = .ok t
    rw [hu]; exact h

theorem leads_congr (h : ∀ s, OnlyDecode d s → f s = g s) : Leads d f = Leads d g := by
  funext s t
  exact propext (and_congr_right fun hs => by rw [h s hs])

theorem ok_comp_leads : Relation.Comp (Leads d .ok) (Leads d g) = Leads d g :=
  (leads_bind (f := .ok) fun s t h => by cases h; exact .refl s).symm

theorem leads_comp_ok (hf : Decodes f) : Relation.Comp (Leads d f) (Leads d .ok) = Leads d f := by
  rw [← leads_bind hf]
  exact congrArg (Leads d) (funext fun s => bind_pure (f s))

theorem leads_forUpTo_succ {f : Nat → State → Except Err State} (hf : ∀ i, Decodes (f i)) (n : Nat) :
    Leads d (forUpTo (n + 1) f) = Relation.Comp (Leads d (forUpTo n f)) (Leads d (f n)) :=
  leads_bind (decodes_forUpTo hf n)

/-- A loop swaps with what each of its iterations swaps with. -/
theorem swaps_forUpTo {f : Nat → State → Except Err State} (hf : ∀ i, Decodes (f i)) (hg : Decodes g) {n : Nat}
    (h : ∀ i < n, Swaps (Leads d (f i)) (Leads d g)) : Swaps (Leads d (forUpTo n f)) (Leads d g) := by
  induction n with
  | zero => exact ok_comp_leads.trans (leads_comp_ok hg).symm
  | succ n ih =>
    rw [leads_forUpTo_succ hf]
    exact (ih fun i hi => h i (Nat.lt_succ_of_lt hi)).comp_left (h n (Nat.lt_succ_self n))

theorem swaps_forUpTo_right {f : Nat → State → Except Err State} (hf : ∀ i, Decodes (f i)) (hg : Decodes g) {n : Nat}
    (h : ∀ i < n, Swaps (Leads d g) (Leads d (f i))) : Swaps (Leads d g) (Leads d (forUpTo n f)) :=
  (swaps_forUpTo hf hg fun i hi => (h i hi).symm).symm

/-- LOOPS INTERCHANGE: the last iteration of every inner loop may come after all the inner loops. -/
theorem leads_interchange {f : Nat → Nat → State → Except Err State} (hf : ∀ c b, Decodes (f c b)) {m n : Nat}
    (h : ∀ c' < m, ∀ c < c', ∀ b < n, Swaps (Leads d (f c n)) (Leads d (f c' b))) :
    Leads d (forUpTo m fun c => forUpTo (n + 1) (f c)) =
      Relation.Comp (Leads d (forUpTo m fun c => forUpTo n (f c))) (Leads d (forUpTo m fun c => f c n)) := by
  have hloop (k : Nat) (c : Nat) : Decodes (forUpTo k (f c)) := decodes_forUpTo (hf c) k
  induction m with
  | zero => exact ok_comp_leads.symm
  | succ m ih =>
    have hlast : Swaps (Leads d (forUpTo m fun c => f c n)) (Leads d (forUpTo n (f m))) :=
      swaps_forUpTo (fun c => hf c n) (hloop n m) fun c hc =>
        swaps_forUpTo_right (hf m) (hf c n) fun b hb => h m (Nat.lt_succ_self m) c hc b hb
    rw [leads_forUpTo_succ (hloop (n + 1)), leads_forUpTo_succ (hloop n), leads_forUpTo_succ fun c => hf c n,
      ih fun c' hc' => h c' (Nat.lt_succ_of_lt hc'), leads_forUpTo_succ (hf m), comp_swap_middle hlast]

/-- Two computations that each read something and then write, neither what the other reads or writes, swap. -/
theorem swaps_of_independent {V W : Type} {f g : State → Except Err State} (hfd : Decodes f) (hgd : Decodes g)
    {readF : State → Except Err V} {writeF : V → State → State} {readG : State → Except Err W}
    {writeG : W → State → State}
    (hf : ∀ s, OnlyDecode d s → f s = readF s >>= fun v => .ok (writeF v s))
    (hg : ∀ s, OnlyDecode d s → g s = readG s >>= fun w => .ok (writeG w s))
    (hFG : ∀ s w, OnlyDecode d s → readF (writeG w s) = readF s)
    (hGF : ∀ s v, OnlyDecode d s → readG (writeF v s) = readG s)
    (hcomm : ∀ s v w, OnlyDecode d s → writeG w (writeF v s) = writeF v (writeG w s)) :
    Swaps (Leads d f) (Leads d g) := by
  unfold Swaps
  rw [← leads_bind hfd, ← leads_bind hgd]
  funext s t
  refine propext (and_congr_right fun hs => ?_)
  have hf' {w : W} (hw : readG s = .ok w) : f (writeG w s) = readF s >>= fun v => .ok (writeF v (writeG w s)) := by
    rw [hf _ (hs.trans (hgd s _ (by rw [hg s hs, hw]; rfl))), hFG s w hs]
  have hg' {v : V} (hv : readF s = .ok v) : g (writeF v s) = readG s >>= fun w => .ok (writeG w (writeF v s)) := by
    rw [hg _ (hs.trans (hfd s _ (by rw [hf s hs, hv]; rfl))), hGF s v hs]
  show (f s >>= g) = .ok t ↔ (g s >>= f) = .ok t
  rw [hf s hs, hg s hs]
  cases hv : readF s with
  | error e =>
    cases hw : readG s with
    | error e' => simp
    | ok w => simp [hf' hw, hv]
  | ok v =>
    cases hw : readG s with
    | error e' => simp [hg' hv, hw]
    | ok w => simp [hf' hw, hg' hv, hv, hw, hcomm s v w hs]

end

/-! ## What the parts of a block read and write -/

/-- Words of different blocks, or of different channels, are different words. -/
theorem word_ne {n b b' c c' : Nat} (hc : c < n) (hc' : c' < n) (h : b ≠ b' ∨ c ≠ c') : b * n + c ≠ b' * n + c' := by
  intro he
  have hb : b = b' := by
    have h1 : (b * n + c) / n = b := by rw [Nat.mul_comm, Nat.mul_add_div (by omega), Nat.div_eq_of_lt hc, Nat.add_zero]
    have h2 : (b' * n + c') / n = b' := by
      rw [Nat.mul_comm, Nat.mul_add_div (by omega), Nat.div_eq_of_lt hc', Nat.add_zero]
    rw [← h1, ← h2, he]
  subst hb
  omega

section
variable (s : State) (c j i : Nat) (v : Word)

@[simp] theorem nextResidual_writeOut : nextResidual c (s.writeOut i v) = nextResidual c s := rfl

@[simp] theorem nextSample_writeOut (x : Word) : nextSample c x (s.writeOut i v) = nextSample c x s := rfl

theorem setChan_writeOut (ch : Chan) : (s.writeOut i v).setChan c ch = (s.setChan c ch).writeOut i v := by
  unfold State.setChan; split <;> rfl

theorem pastResidual_writeOut (d : Nat × RangeState) :
    pastResidual c d (s.writeOut i v) = (pastResidual c d s).writeOut i v :=
  setChan_writeOut { s with rc := d.2 } _ i v _

theorem pastSample_writeOut (f : Filtered) :
    pastSample c f (s.writeOut i v) = (pastSample c f s).writeOut i v :=
  setChan_writeOut s c i v _

@[simp] theorem nextResidual_pastSample (f : Filtered) : nextResidual c (pastSample j f s) = nextResidual c s := by
  unfold nextResidual pastSample State.setChan State.chan
  split_ifs <;> rfl

@[simp] theorem nextSample_pastResidual (x : Word) (d : Nat × RangeState) :
    nextSample c x (pastResidual j d s) = nextSample c x s := by
  unfold nextSample pastResidual State.setK State.setChan State.chan
  split_ifs <;> rfl

theorem pastResidual_pastSample (d : Nat × RangeState) (f : Filtered) :
    pastResidual c d (pastSample j f s) = pastSample j f (pastResidual c d s) := by
  unfold pastResidual pastSample State.setK State.setChan State.chan
  split_ifs <;> rfl

theorem pastSample_comm {c j : Nat} (hc : c < 2) (hj : j < 2) (h : c ≠ j) (f g : Filtered) :
    pastSample j g (pastSample c f s) = pastSample c f (pastSample j g s) := by
  unfold pastSample
  rw [chan_setChan_of_ne _ _ _ hc hj h.symm, chan_setChan_of_ne _ _ _ hj hc h]
  obtain ⟨rfl, rfl⟩ | ⟨rfl, rfl⟩ : c = 0 ∧ j = 1 ∨ c = 1 ∧ j = 0 := by omega
  all_goals rfl

theorem nextSample_pastSample {c j : Nat} (hc : c < 2) (hj : j < 2) (h : c ≠ j) (x : Word) (f : Filtered) :
    nextSample j x (pastSample c f s) = nextSample j x s := by
  unfold nextSample pastSample
  rw [chan_setChan_of_ne _ _ _ hc hj h.symm]
  simp

end

/-! ## Which parts swap -/

/-- A residual of channel `c` into word `i` of `OUT`. -/
def putResidual (c i : Nat) (d : Nat × RangeState) (s : State) : State :=
  (pastResidual c d s).writeOut i (residualWord d)

/-- Word `i` of `OUT` through the filters of channel `c`. -/
def filterWord (c i : Nat) (s : State) : Except Err Filtered := nextSample c (outWord s.out i) s

/-- A filtered sample of channel `c` into word `i` of `OUT`. -/
def putSample (c i : Nat) (f : Filtered) (s : State) : State := (pastSample c f s).writeOut i f.out

/-- What is read does not depend on word `j` of `OUT`, and what is written is not in it. -/
structure Apart {V : Type} (read : State → Except Err V) (write : V → State → State) (j : Nat) : Prop where
  reads : ∀ s w, read (s.writeOut j w) = read s
  word : ∀ s v, outWord (write v s).out j = outWord s.out j
  writes : ∀ s v w, (write v s).writeOut j w = write v (s.writeOut j w)

theorem apart_residual (c : Nat) {i j : Nat} (h : j ≠ i) : Apart (nextResidual c) (putResidual c i) j where
  reads _ _ := rfl
  word s v := by simp [putResidual, outWord_write_of_ne _ _ h, pastResidual, setK_eq]
  writes s v w := by rw [putResidual, putResidual, pastResidual_writeOut, writeOut_comm h.symm]

theorem apart_sample (c : Nat) {i j : Nat} (h : j ≠ i) : Apart (filterWord c i) (putSample c i) j where
  reads s w := by simp [filterWord, outWord_write_of_ne _ _ h.symm]
  word s v := by simp [putSample, outWord_write_of_ne _ _ h, pastSample]
  writes s v w := by rw [putSample, putSample, pastSample_writeOut, writeOut_comm h.symm]

section
variable {d : State} {b b' c c' : Nat}

theorem entropyChannel_of_onlyDecode {s : State} (hs : OnlyDecode d s) : entropyChannel b c s =
    nextResidual c s >>= fun r => .ok (putResidual c (b * d.nch + c) r s) := by
  rw [entropyChannel_eq, hs.nch]; rfl

theorem filterBlock_of_onlyDecode {s : State} (hs : OnlyDecode d s) : filterBlock c b s =
    filterWord c (b * d.nch + c) s >>= fun f => .ok (putSample c (b * d.nch + c) f s) := by
  rw [filterBlock_eq, hs.nch]; rfl

/-- The stereo pass of a block swaps with what is apart from the block's two words. -/
theorem swaps_stereoBlock {V : Type} {f : State → Except Err State} {read : State → Except Err V}
    {write : V → State → State} (hfd : Decodes f)
    (hf : ∀ s, OnlyDecode d s → f s = read s >>= fun v => .ok (write v s))
    (h : d.nch = 2 → Apart read write (2 * b) ∧ Apart read write (2 * b + 1)) :
    Swaps (Leads d f) (Leads d (stereoBlock b)) := by
  by_cases hn : d.nch = 2
  · obtain ⟨hleft, hright⟩ := h hn
    cases hfs : d.fstereo with
    | true =>
      refine swaps_of_independent hfd (decodes_stereoBlock b) hf
        (readG := fun s => .ok (outWord s.out (2 * b))) (writeG := fun w s => s.writeOut (2 * b + 1) w) ?_ ?_ ?_ ?_
      · intro s hs
        simp [stereoBlock, hs.nch, hn, hs.fstereo, hfs]
      · exact fun s w _ => hright.reads s w
      · exact fun s v _ => by rw [hleft.word]
      · exact fun s v w _ => hright.writes s v w
    | false =>
      refine swaps_of_independent hfd (decodes_stereoBlock b) hf
        (readG := fun s => stereo (outWord s.out (2 * b)) (outWord s.out (2 * b + 1)))
        (writeG := fun w s => (s.writeOut (2 * b) w.1).writeOut (2 * b + 1) w.2) ?_ ?_ ?_ ?_
      · intro s hs
        simp [stereoBlock, hs.nch, hn, hs.fstereo, hfs]
      · exact fun s w _ => by rw [hright.reads, hleft.reads]
      · exact fun s v _ => by rw [hleft.word, hright.word]
      · exact fun s v w _ => by rw [hleft.writes, hright.writes]
  · have hid : Leads d (stereoBlock b) = Leads d .ok :=
      leads_congr fun s hs => by simp [stereoBlock, hs.nch, hn]
    rw [hid]
    exact (leads_comp_ok hfd).trans ok_comp_leads.symm

theorem swaps_entropy_stereo (hc : c < d.nch) (hb : b ≠ b') :
    Swaps (Leads d (entropyChannel b c)) (Leads d (stereoBlock b')) := by
  refine swaps_stereoBlock (decodes_entropyChannel b c) (fun s => entropyChannel_of_onlyDecode) fun hn => ?_
  rw [hn] at hc ⊢
  exact ⟨apart_residual c (by omega), apart_residual c (by omega)⟩

theorem swaps_filter_stereo (hc : c < d.nch) (hb : b ≠ b') :
    Swaps (Leads d (filterBlock c b)) (Leads d (stereoBlock b')) := by
  refine swaps_stereoBlock (decodes_filterBlock c b) (fun s => filterBlock_of_onlyDecode) fun hn => ?_
  rw [hn] at hc ⊢
  exact ⟨apart_sample c (by omega), apart_sample c (by omega)⟩

theorem swaps_entropy_filter (hc : c < d.nch) (hc' : c' < d.nch) (hb : b ≠ b') :
    Swaps (Leads d (entropyChannel b c)) (Leads d (filterBlock c' b')) := by
  have hne := word_ne hc' hc (.inl hb.symm)
  refine swaps_of_independent (decodes_entropyChannel b c) (decodes_filterBlock c' b')
    (fun s => entropyChannel_of_onlyDecode) (fun s => filterBlock_of_onlyDecode) ?_ ?_ ?_
  · exact fun s f _ => by rw [putSample, nextResidual_writeOut, nextResidual_pastSample]
  · intro s r _
    rw [filterWord, filterWord, (apart_residual c hne).word]
    rw [putResidual, nextSample_writeOut, nextSample_pastResidual]
  · intro s r f _
    rw [putSample, putResidual, putSample, putResidual, pastSample_writeOut, pastResidual_writeOut,
      pastResidual_pastSample, writeOut_comm hne.symm]

theorem swaps_filters (hc : c < d.ncoded) (hc' : c' < d.ncoded) (hd : d.ncoded ≤ d.nch) (h : c ≠ c') :
    Swaps (Leads d (filterBlock c b)) (Leads d (filterBlock c' b')) := by
  have h2 := ncoded_le_two d
  have hne := word_ne (b := b) (b' := b') (hc.trans_le hd) (hc'.trans_le hd) (.inr h)
  refine swaps_of_independent (decodes_filterBlock c b) (decodes_filterBlock c' b')
    (fun s => filterBlock_of_onlyDecode) (fun s => filterBlock_of_onlyDecode) ?_ ?_ ?_
  · intro s f _
    rw [filterWord, filterWord, (apart_sample c' hne).word, putSample, nextSample_writeOut,
      nextSample_pastSample _ (hc'.trans_le h2) (hc.trans_le h2) h.symm]
  · intro s f _
    rw [filterWord, filterWord, (apart_sample c hne.symm).word, putSample, nextSample_writeOut,
      nextSample_pastSample _ (hc.trans_le h2) (hc'.trans_le h2) h]
  · intro s f g _
    rw [putSample, putSample, putSample, putSample, pastSample_writeOut, pastSample_writeOut,
      pastSample_comm _ (hc.trans_le h2) (hc'.trans_le h2) h, writeOut_comm hne]

end

/-! ## Block by block -/

theorem decodes_entropyBlock (b : Nat) : Decodes (entropyBlock b) := fun _ _ h =>
  onlyDecode_forUpTo h fun c _ => decodes_entropyChannel b c

/-- Block `b` of `FRAME` through all three passes, or its words of silence (R117). -/
def blockPass (b : Nat) (s : State) : Except Err State :=
  if s.silent then forUpTo s.nch (fun c => silenceWord (b * s.nch + c)) s
  else entropyBlock b s >>= fun t => forUpTo t.ncoded (fun c => filterBlock c b) t >>= stereoBlock b

/-- The three passes over `n` blocks (R117 steps 4 to 6). -/
def passes (n : Nat) (s : State) : Except Err State :=
  forUpTo n entropyBlock s >>= fun t => forUpTo t.ncoded (filterChannel n) t >>= forUpTo n stereoBlock

theorem forUpTo_ok (m : Nat) (s : State) : forUpTo m (fun _ => .ok) s = .ok s := by
  induction m with
  | zero => rfl
  | succ m ih => rw [forUpTo_succ, ih]; rfl

theorem decodes_filterChannel (n c : Nat) : Decodes (filterChannel n c) := decodes_forUpTo (decodes_filterBlock c) n

theorem decodes_silenceWord (i : Nat) : Decodes (silenceWord i) := fun s t h => by
  cases h; exact onlyDecode_writeOut s i 0

theorem decodes_bind {f g : State → Except Err State} (hf : Decodes f) (hg : Decodes g) :
    Decodes fun s => f s >>= g := fun s t h => by
  obtain ⟨u, hu, h⟩ := bind_ok h
  exact (hf s u hu).trans (hg u t h)

theorem decodes_blockPass (b : Nat) : Decodes (blockPass b) := fun s t h => by
  unfold blockPass at h
  split at h
  · exact decodes_forUpTo (fun c => decodes_silenceWord _) _ s t h
  · obtain ⟨u, hu, h⟩ := bind_ok h
    exact (decodes_entropyBlock b s u hu).trans
      (decodes_bind (decodes_forUpTo (fun c => decodes_filterBlock c b) _) (decodes_stereoBlock b) u t h)

section
variable {d : State}

theorem leads_entropyBlock (b : Nat) : Leads d (entropyBlock b) = Leads d (forUpTo d.ncoded (entropyChannel b)) :=
  leads_congr fun s hs => by rw [entropyBlock, hs.ncoded]

/-- Three parts of a frame, the second once for each coded channel. -/
theorem leads_three {e t : State → Except Err State} {f : Nat → State → Except Err State} (he : Decodes e)
    (hf : ∀ c, Decodes (f c)) : Leads d (fun s => e s >>= fun u => forUpTo u.ncoded f u >>= t) =
      Relation.Comp (Relation.Comp (Leads d e) (Leads d (forUpTo d.ncoded f))) (Leads d t) := by
  have hcount : Leads d (fun u => forUpTo u.ncoded f u >>= t) = Leads d (fun u => forUpTo d.ncoded f u >>= t) :=
    leads_congr fun u hu => by rw [hu.ncoded]
  rw [leads_bind he, hcount, leads_bind (decodes_forUpTo hf _), Relation.comp_assoc]

theorem leads_passes (n : Nat) : Leads d (passes n) =
    Relation.Comp (Relation.Comp (Leads d (forUpTo n entropyBlock)) (Leads d (forUpTo d.ncoded (filterChannel n))))
      (Leads d (forUpTo n stereoBlock)) :=
  leads_three (decodes_forUpTo decodes_entropyBlock n) (decodes_filterChannel n)

theorem leads_blockPass (hloud : d.silent = false) (b : Nat) : Leads d (blockPass b) =
    Relation.Comp (Relation.Comp (Leads d (entropyBlock b)) (Leads d (forUpTo d.ncoded fun c => filterBlock c b)))
      (Leads d (stereoBlock b)) := by
  rw [← leads_three (decodes_entropyBlock b) fun c => decodes_filterBlock c b]
  exact leads_congr fun s hs => by rw [blockPass, hs.silent, hloud]; rfl

section
variable (hd : d.ncoded ≤ d.nch) (n : Nat)
include hd

/-- The entropy pass of a block swaps with the filter pass over the blocks before it. -/
theorem swaps_entropyBlock_filters :
    Swaps (Leads d (entropyBlock n)) (Leads d (forUpTo d.ncoded (filterChannel n))) := by
  rw [leads_entropyBlock]
  refine swaps_forUpTo (decodes_entropyChannel n) (decodes_forUpTo (decodes_filterChannel n) _) fun c hc => ?_
  refine swaps_forUpTo_right (decodes_filterChannel n) (decodes_entropyChannel n c) fun c' hc' => ?_
  exact swaps_forUpTo_right (decodes_filterBlock c') (decodes_entropyChannel n c) fun b hb =>
    swaps_entropy_filter (hc.trans_le hd) (hc'.trans_le hd) hb.ne'

/-- The entropy pass and the filter pass of a block swap with the stereo pass over the blocks before it. -/
theorem swaps_block_stereo :
    Swaps (Relation.Comp (Leads d (entropyBlock n)) (Leads d (forUpTo d.ncoded fun c => filterBlock c n)))
      (Leads d (forUpTo n stereoBlock)) := by
  have hstereo := decodes_forUpTo decodes_stereoBlock n
  rw [leads_entropyBlock]
  refine Swaps.comp_left ?_ ?_
  · exact swaps_forUpTo (decodes_entropyChannel n) hstereo fun c hc =>
      swaps_forUpTo_right decodes_stereoBlock (decodes_entropyChannel n c) fun b hb =>
        swaps_entropy_stereo (hc.trans_le hd) hb.ne'
  · exact swaps_forUpTo (fun c => decodes_filterBlock c n) hstereo fun c hc =>
      swaps_forUpTo_right decodes_stereoBlock (decodes_filterBlock c n) fun b hb =>
        swaps_filter_stereo (hc.trans_le hd) hb.ne'

/-- The filter pass over one block more is the pass over the blocks before it, then the block's. -/
theorem leads_filters_succ : Leads d (forUpTo d.ncoded (filterChannel (n + 1))) = Relation.Comp
    (Leads d (forUpTo d.ncoded (filterChannel n))) (Leads d (forUpTo d.ncoded fun c => filterBlock c n)) :=
  leads_interchange decodes_filterBlock fun _ hc' _ hc _ _ => swaps_filters (hc.trans hc') hc' hd hc.ne

/-- THE PASSES IN ANOTHER ORDER: the three passes over `n` blocks lead where the `n` blocks lead, each through all
three. -/
theorem leads_passes_eq_blocks (hloud : d.silent = false) : Leads d (passes n) = Leads d (forUpTo n blockPass) := by
  induction n with
  | zero =>
    refine leads_congr fun s _ => ?_
    show forUpTo s.ncoded (fun _ => .ok) s >>= .ok = .ok s
    rw [forUpTo_ok]; rfl
  | succ n ih =>
    rw [leads_passes, leads_forUpTo_succ decodes_entropyBlock, leads_filters_succ hd,
      leads_forUpTo_succ decodes_stereoBlock, comp_swap_middle (swaps_entropyBlock_filters hd n),
      comp_swap_middle (swaps_block_stereo hd n), ← leads_passes, ← leads_blockPass hloud, ih,
      leads_forUpTo_succ decodes_blockPass]

end

/-- A silent frame is silent block by block. -/
theorem leads_silence_eq_blocks (hsilent : d.silent = true) (n : Nat) :
    Leads d (forUpTo n fun b => forUpTo d.nch fun c => silenceWord (b * d.nch + c)) =
      Leads d (forUpTo n blockPass) := by
  have hwords (b : Nat) : Decodes (forUpTo d.nch fun c => silenceWord (b * d.nch + c)) :=
    decodes_forUpTo (fun c => decodes_silenceWord _) _
  induction n with
  | zero => rfl
  | succ n ih =>
    have hblock : Leads d (blockPass n) = Leads d (forUpTo d.nch fun c => silenceWord (n * d.nch + c)) :=
      leads_congr fun s hs => by rw [blockPass, hs.silent, hsilent, hs.nch]; rfl
    rw [leads_forUpTo_succ hwords, ih, leads_forUpTo_succ decodes_blockPass, hblock]

end

/-- A loop over the words of `n` blocks is a loop over the blocks. -/
theorem forUpTo_mul (f : Nat → State → Except Err State) (n m : Nat) (s : State) :
    forUpTo (n * m) f s = forUpTo n (fun b => forUpTo m fun c => f (b * m + c)) s := by
  induction n with
  | zero => rw [Nat.zero_mul]; rfl
  | succ n ih => rw [Nat.add_mul, Nat.one_mul, forUpTo_add, ih]; rfl

/-- `FRAME` completes exactly when its blocks one after the other do, with the same result. -/
theorem frameBody_iff_blocks {s : State} (h : s.ncoded ≤ s.nch) (t : State) :
    frameBody s = .ok t ↔ forUpTo s.regs.nblocks.toNat blockPass s = .ok t := by
  have hiff {f : State → Except Err State} (hf : Leads s f = Leads s (forUpTo s.regs.nblocks.toNat blockPass)) :
      f s = .ok t ↔ forUpTo s.regs.nblocks.toNat blockPass s = .ok t := by
    simpa [Leads, OnlyDecode.refl] using congrFun (congrFun hf s) t
  cases hs : s.silent with
  | true =>
    rw [← hiff (leads_silence_eq_blocks hs _), ← forUpTo_mul silenceWord]
    simp [frameBody, hs]
  | false =>
    rw [← hiff (leads_passes_eq_blocks h _ hs)]
    simp [frameBody, hs, passes]

end Sys2Proof.Machine
end

section
/-! A block of `FRAME` against `BLOCK` (40_frame_control.md R117, R120, 30_encoding.md R90), and what `FRAME` leaves
(R122). -/

namespace Sys2Proof.Machine

/-! ## The samples of a block in `OUT` -/

theorem insertCell_self {w : Nat} (a : Nat) (v u : BitVec w) (l : List (Nat × BitVec w)) :
    insertCell a v (insertCell a u l) = insertCell a v l := by
  induction l with
  | nil => grind [insertCell]
  | cons d l ih => grind [insertCell]

theorem memory_write_self (m : Memory 32) (i : Nat) (v u : Word) : (m.write i u).write i v = m.write i v := by
  unfold Memory.write; rw [insertCell_self]

theorem memory_write_comm (m : Memory 32) {i j : Nat} (h : i ≠ j) (v u : Word) :
    (m.write i v).write j u = (m.write j u).write i v := by
  unfold Memory.write; rw [insertCell_comm h.symm]

theorem nch_of_one {s : State} (h : s.regs.channels = 1) : s.nch = 1 := by simp [State.nch, h]

theorem nch_of_two {s : State} (h : s.regs.channels = 2) : s.nch = 2 := by simp [State.nch, h]

/-- `OUT` with the samples of the first `m` channels in the words of block `b`. -/
def samplesOut (b : Nat) (u : State) : Nat → Memory 32
  | 0 => u.out
  | m + 1 => (samplesOut b u m).write (b * u.nch + m) (u.chan m).sample

theorem samplesOut_congr {b : Nat} {u v : State} (ho : v.out = u.out) (hn : v.nch = u.nch) {m : Nat}
    (h : ∀ j < m, (v.chan j).sample = (u.chan j).sample) : samplesOut b v m = samplesOut b u m := by
  induction m with
  | zero => exact ho
  | succ m ih =>
    rw [samplesOut, samplesOut, ih fun j hj => h j (Nat.lt_succ_of_lt hj), hn, h m (Nat.lt_succ_self m)]

theorem outWord_samplesOut {b c m : Nat} (u : State) (hc : c < m) :
    outWord (samplesOut b u m) (b * u.nch + c) = (u.chan c).sample := by
  induction m with
  | zero => omega
  | succ m ih =>
    rw [samplesOut, outWord_write]
    by_cases h : c = m
    · rw [if_pos (by rw [h]), h]
    · rw [if_neg (by omega), ih (by omega)]

/-- A new sample of channel `c` in its word. -/
theorem samplesOut_write {b c m : Nat} {u v : State} (ho : v.out = u.out) (hn : v.nch = u.nch) (hc : c < m)
    (h : ∀ j < m, j ≠ c → (v.chan j).sample = (u.chan j).sample) :
    (samplesOut b u m).write (b * u.nch + c) (v.chan c).sample = samplesOut b v m := by
  induction m with
  | zero => omega
  | succ m ih =>
    rw [samplesOut, samplesOut, hn]
    by_cases hcm : c = m
    · subst hcm
      rw [memory_write_self, samplesOut_congr ho hn fun j hj => h j (by omega) (by omega)]
    · rw [memory_write_comm _ (by omega), ih (by omega) fun j hj => h j (by omega), h m (by omega) (Ne.symm hcm)]

/-! ## One block -/

/-- `BLOCK` is done: what it may write, the cursor moved on, and the words of `OUT` it wrote (R90, R203). -/
structure BlockDone (u w : State) : Prop where
  frame : w = { u with
    res := w.res, rc := w.rc, ch0 := w.ch0, ch1 := w.ch1, out := w.out, bidx := natWord (u.bidx.toNat + 1) }
  words : ∃ x y, w.out = if u.regs.channels = 1 then u.out.write u.bidx.toNat x
    else (u.out.write (2 * u.bidx.toNat) x).write (2 * u.bidx.toNat + 1) y

/-- The step mode is in `u`, at block `b` of an open frame. -/
structure AtBlock (b : Nat) (u : State) : Prop where
  opened : u.phase = .opened
  started : u.rcInit = !u.silent
  channels : u.regs.channels = 1 ∨ u.regs.channels = 2
  bidx : u.bidx.toNat = b
  quiet : u.silent = true → u.ch0.sample = 0 ∧ u.ch1.sample = 0

/-- The entropy pass of a block. -/
theorem entropyBlock_alike {b : Nat} {u : State} (hp : u.phase = .opened) (hr : u.rcInit = true) :
    Alike (fun v t => OnlyDatapath u v ∧ t = frameView (samplesOut b v u.ncoded) v)
      (attempts ((List.range u.ncoded).map fun c => .entRes c) u) (entropyBlock b (frameView u.out u)) := by
  rw [attempts_map_range, entropyBlock, frameView_ncoded]
  refine alike_forUpTo (fun m v t => OnlyDatapath u v ∧ t = frameView (samplesOut b v m) v) ⟨.refl u, rfl⟩ ?_
  rintro c hc v _ ⟨hv, rfl⟩
  refine (entRes_alike (hv.phase.trans hp) (hv.rcInit.trans hr) (hv.ncoded ▸ hc) b _).mono ?_
  rintro v' _ ⟨hv', hothers, rfl⟩
  have hc2 := hc.trans_le (ncoded_le_two u)
  refine ⟨hv.trans hv', ?_⟩
  rw [samplesOut, samplesOut_congr hv'.out hv'.nch fun j hj => hothers j (by omega) (by omega), hv'.nch]

/-- The filter pass of a block. -/
theorem filters_alike {b : Nat} {u v : State} (hp : u.phase = .opened) (hv : OnlyDatapath u v) :
    Alike (fun w t => OnlyDatapath u w ∧ t = frameView (samplesOut b w u.ncoded) w)
      (attempts ((List.range u.ncoded).map (filterOps u.nstages)).flatten v)
      (forUpTo u.ncoded (fun c => filterBlock c b) (frameView (samplesOut b v u.ncoded) v)) := by
  rw [attempts_flatten_range]
  refine alike_forUpTo (fun _ w t => OnlyDatapath u w ∧ t = frameView (samplesOut b w u.ncoded) w) ⟨hv, rfl⟩ ?_
  rintro c hc w _ ⟨hw, rfl⟩
  rw [← hw.nstages]
  refine (filter_alike (hw.phase.trans hp) (hw.ncoded ▸ hc) (outWord_samplesOut w hc)).mono ?_
  rintro w' _ ⟨hw', hothers, rfl⟩
  refine ⟨hw.trans hw', ?_⟩
  rw [samplesOut_write hw'.out hw'.nch hc fun j hj => hothers j (hj.trans_le (ncoded_le_two u))]

/-- `OUT` after `EMIT` (R203). -/
def emitOut (u : State) : Memory 32 :=
  if u.regs.channels = 1 then u.out.write u.bidx.toNat u.ch0.sample
  else (u.out.write (2 * u.bidx.toNat) u.ch0.sample).write (2 * u.bidx.toNat + 1)
    (if u.fstereo then u.ch0.sample else u.ch1.sample)

/-- The state after `EMIT` (R203). -/
def emitted (u : State) : State := { u with out := emitOut u, bidx := natWord (u.bidx.toNat + 1) }

theorem opEmit_eq (u : State) : opEmit u = .ok (emitted u) := by
  unfold opEmit emitted emitOut
  split <;> rfl

theorem attempt_emit {u : State} (hp : u.phase = .opened) (hn : u.bidx.toNat < u.regs.nblocks.toNat) :
    attempt .emit u = .ok (emitted u) := by
  rw [← opEmit_eq]
  exact attempt_of_legal (by simp [hp]) ⟨hp, hn⟩

/-- `EMIT` after the datapath operations of a block is the end of the block. -/
theorem blockDone_emitted {u v : State} (h : OnlyDatapath u v) : BlockDone u (emitted v) where
  frame := by
    rw [← h.bidx]
    unfold emitted
    rw [h]
  words := ⟨_, _, by rw [← h.regs, ← h.out, ← h.bidx]; rfl⟩

/-- In a frame that codes every channel, `EMIT` writes what the samples of the block would be. -/
theorem emitOut_eq_samplesOut {u : State} (hch : u.regs.channels = 1 ∨ u.regs.channels = 2 ∧ u.fstereo = false) :
    emitOut u = samplesOut u.bidx.toNat u u.ncoded := by
  rcases hch with h1 | ⟨h2, hf⟩
  · simp [emitOut, State.ncoded, codedChannels, samplesOut, State.nch, h1]
  · simp [emitOut, State.ncoded, codedChannels, samplesOut, State.nch, h2, hf, Nat.mul_comm]

/-- The stereo pass of a block in a frame of one channel. -/
theorem stereoBlock_mono {b : Nat} {v : State} (h1 : v.regs.channels = 1) :
    stereoBlock b (frameView (samplesOut b v v.ncoded) v) = .ok (frameView (samplesOut b v v.ncoded) v) := by
  have hnch : v.nch = 1 := nch_of_one h1
  simp [stereoBlock, hnch]

/-- The stereo pass of a block in a false-stereo frame (R202). -/
theorem stereoBlock_falseStereo {v : State} (h2 : v.regs.channels = 2) (hf : v.fstereo = true) :
    stereoBlock v.bidx.toNat (frameView (samplesOut v.bidx.toNat v v.ncoded) v) = .ok (frameView (emitOut v) v) := by
  have hnch : v.nch = 2 := nch_of_two h2
  simp [stereoBlock, hnch, State.ncoded, codedChannels, samplesOut, emitOut, writeOut_frameView, h2, hf, Nat.mul_comm]

/-- The stereo pass of a block in a frame of two coded channels (R200). -/
theorem stereoBlock_stereo {b : Nat} {v : State} (h2 : v.regs.channels = 2) (hf : v.fstereo = false) :
    stereoBlock b (frameView (samplesOut b v v.ncoded) v) = stereo v.ch0.sample v.ch1.sample >>= fun w =>
      .ok (frameView (samplesOut b ((v.setSample 0 w.1).setSample 1 w.2) v.ncoded)
        ((v.setSample 0 w.1).setSample 1 w.2)) := by
  have hnch : v.nch = 2 := nch_of_two h2
  have hcoded : v.ncoded = 2 := by simp [State.ncoded, codedChannels, hf, h2]
  have hleft := outWord_samplesOut v (b := b) (c := 0) (m := 2) (by decide)
  have hright := outWord_samplesOut v (b := b) (c := 1) (m := 2) (by decide)
  have hwrite (l r : Word) : ((samplesOut b v 2).write (2 * b) l).write (2 * b + 1) r =
      samplesOut b ((v.setSample 0 l).setSample 1 r) 2 := by
    have h0 := samplesOut_write (b := b) (c := 0) (m := 2) (u := v) (v := v.setSample 0 l) rfl rfl (by decide)
      fun j hj hne => by rw [setSample_eq, chan_setChan_of_ne _ _ _ (by decide) hj hne]
    have h1 := samplesOut_write (b := b) (c := 1) (m := 2) (u := v.setSample 0 l)
      (v := (v.setSample 0 l).setSample 1 r) rfl rfl (by decide)
      fun j hj hne => by rw [setSample_eq, chan_setChan_of_ne _ _ _ (by decide) hj hne]
    rw [← h1, ← h0]
    show _ = ((samplesOut b v 2).write (b * v.nch) l).write (b * v.nch + 1) r
    rw [hnch, Nat.mul_comm]
  simp only [hnch, Nat.mul_comm b, Nat.add_zero] at hleft hright
  simp [stereoBlock, hnch, hcoded, hf, hleft, hright, hwrite, writeOut_frameView, frameView_setSample]

section
variable {b : Nat} {u v : State} (hp : u.phase = .opened) (hb : u.bidx.toNat = b) (hn : b < u.regs.nblocks.toNat)
include hp hb hn

theorem emit_alike (hv : OnlyDatapath u v) :
    Alike (fun w t => BlockDone u w ∧ t = frameView w.out w) (attempt .emit v) (.ok (frameView (emitOut v) v)) := by
  rw [attempt_emit (hv.phase.trans hp) (by rw [hv.bidx, hv.regs, hb]; exact hn)]
  exact alike_ok ⟨blockDone_emitted hv, rfl⟩

/-- The stereo pass of a block against `STEREO_STEP`, if the frame has it, and `EMIT`. -/
theorem stereo_emit_alike (hv : OnlyDatapath u v) (hch : u.regs.channels = 1 ∨ u.regs.channels = 2) :
    Alike (fun w t => BlockDone u w ∧ t = frameView w.out w)
      (attempts (if u.regs.channels = 2 ∧ u.fstereo = false then [.stereoStep] else []) v >>= attempt .emit)
      (stereoBlock b (frameView (samplesOut b v u.ncoded) v)) := by
  have hvb : b = v.bidx.toNat := by rw [hv.bidx, hb]
  rw [← hv.ncoded]
  rw [← hv.regs] at hch
  rcases hch with h1 | h2
  · rw [if_neg (by simp [← hv.regs, h1]), stereoBlock_mono h1, hvb, ← emitOut_eq_samplesOut (.inl h1)]
    exact emit_alike hp hb hn hv
  cases hf : v.fstereo with
  | true =>
    rw [if_neg (by simp [← hv.fstereo, hf]), hvb, stereoBlock_falseStereo h2 hf]
    exact emit_alike hp hb hn hv
  | false =>
    have hlegal : Spec.Legal v .stereoStep := ⟨hv.phase.trans hp, h2, hf⟩
    have hstep : attempts [.stereoStep] v = stereo v.ch0.sample v.ch1.sample >>= fun w =>
        .ok ((v.setSample 0 w.1).setSample 1 w.2) := by
      rw [attempts_singleton, attempt_of_legal (by simp [hv.phase, hp]) hlegal]
      rfl
    rw [if_pos ⟨by rw [← hv.regs, h2], by rw [← hv.fstereo, hf]⟩, hstep, stereoBlock_stereo h2 hf, bind_assoc]
    refine alike_bind_same fun w => ?_
    have hv' : OnlyDatapath u ((v.setSample 0 w.1).setSample 1 w.2) :=
      (hv.trans (onlyDatapath_setChan _ _ _)).trans (onlyDatapath_setChan _ _ _)
    have hout := emitOut_eq_samplesOut (u := (v.setSample 0 w.1).setSample 1 w.2) (.inr ⟨h2, hf⟩)
    rw [hvb]
    exact hout ▸ emit_alike hp hb hn hv'

end

/-- The words of silence of a block are what `EMIT` writes of samples that are 0 (R204). -/
theorem silence_eq {b : Nat} {u : State} (h : AtBlock b u) (hs : u.silent = true) :
    forUpTo u.nch (fun c => silenceWord (b * u.nch + c)) (frameView u.out u) = .ok (frameView (emitOut u) u) := by
  obtain ⟨h0, h1⟩ := h.quiet hs
  rcases h.channels with hc | hc
  · have hnch : u.nch = 1 := nch_of_one hc
    simp [hnch, forUpTo_succ, silenceWord, writeOut_frameView, emitOut, hc, h0, h.bidx]
  · have hnch : u.nch = 2 := nch_of_two hc
    simp [hnch, forUpTo_succ, silenceWord, writeOut_frameView, emitOut, hc, h0, h1, h.bidx, Nat.mul_comm]

theorem AtBlock.succ {b : Nat} {u w : State} (h : AtBlock b u) (hn : b < u.regs.nblocks.toNat) (hd : BlockDone u w)
    (hq : u.silent = true → w.ch0.sample = 0 ∧ w.ch1.sample = 0) : AtBlock (b + 1) w := by
  obtain ⟨hopened, hstarted, hchannels, hbidx, -⟩ := h
  have hlt := u.regs.nblocks.isLt
  rw [hd.frame]
  refine ⟨hopened, hstarted, hchannels, ?_, hq⟩
  show (natWord (u.bidx.toNat + 1)).toNat = b + 1
  rw [natWord_toNat_of_lt (by omega), hbidx]

/-- A block of `FRAME` against `BLOCK` (R117, R90). -/
theorem block_alike {b : Nat} {u : State} (h : AtBlock b u) (hn : b < u.regs.nblocks.toNat) :
    Alike (fun w t => BlockDone u w ∧ t = frameView w.out w ∧ AtBlock (b + 1) w) (attemptBlock u)
      (blockPass b (frameView u.out u)) := by
  rw [attemptBlock, blockOps, blockPass, frameView_silent]
  cases hs : u.silent with
  | true =>
    simp only [if_true]
    rw [attempts_singleton, frameView_nch, silence_eq h hs, attempt_emit h.opened (by rw [h.bidx]; exact hn)]
    have hd := blockDone_emitted (.refl u)
    exact alike_ok ⟨hd, rfl, h.succ hn hd fun _ => h.quiet hs⟩
  | false =>
    have hr : u.rcInit = true := by rw [h.started, hs]; rfl
    simp only [Bool.false_eq_true, if_false, attempts_append, bind_assoc]
    refine (entropyBlock_alike h.opened hr).bind ?_
    rintro v _ ⟨hv, rfl⟩
    rw [frameView_ncoded, hv.ncoded]
    refine (filters_alike h.opened hv).bind ?_
    rintro w _ ⟨hw, rfl⟩
    have hemit : attempts [.emit] = attempt .emit := funext (attempts_singleton _)
    rw [hemit]
    refine (stereo_emit_alike h.opened h.bidx hn hw h.channels).mono ?_
    rintro x _ ⟨hd, rfl⟩
    exact ⟨hd, rfl, h.succ hn hd fun hsilent => by rw [hs] at hsilent; cases hsilent⟩

/-! ## A frame -/

/-- A word is listed after a write exactly when it was or is the word written. -/
theorem isSome_lookup_write (m : Memory 32) (i j : Nat) (v : Word) :
    (lookupCell j (m.write i v).cells).isSome = true ↔ j = i ∨ (lookupCell j m.cells).isSome = true := by
  by_cases h : j = i
  · simp [h, Memory.write]
  · simp [h, Memory.write, lookup_insert_of_ne]

/-- `b` blocks of the step mode are done since the state `a`: what they may write, and which words of `OUT` (R90,
R203). -/
structure BlocksDone (a : State) (b : Nat) (w : State) : Prop where
  frame : w = { a with res := w.res, rc := w.rc, ch0 := w.ch0, ch1 := w.ch1, out := w.out, bidx := w.bidx }
  written : ∀ i < b * a.nch, (lookupCell i w.out.cells).isSome = true
  kept : ∀ i, b * a.nch ≤ i → outWord w.out i = outWord a.out i

theorem BlocksDone.zero (a : State) : BlocksDone a 0 a := ⟨rfl, fun i hi => by omega, fun _ _ => rfl⟩

theorem BlocksDone.regs {a w : State} {b : Nat} (h : BlocksDone a b w) : w.regs = a.regs := by rw [h.frame]

theorem BlocksDone.succ {a u w : State} {b : Nat} (h : BlocksDone a b u) (hu : AtBlock b u) (hd : BlockDone u w) :
    BlocksDone a (b + 1) w := by
  have hframe : w = { a with
      res := w.res, rc := w.rc, ch0 := w.ch0, ch1 := w.ch1, out := w.out, bidx := w.bidx } := by
    rw [hd.frame, h.frame]
  have hnch : u.nch = a.nch := by rw [State.nch, h.regs]; rfl
  obtain ⟨hwritten, hkept⟩ := And.intro h.written h.kept
  obtain ⟨x, y, hwords⟩ := hd.words
  rw [hu.bidx] at hwords
  rcases hu.channels with h1 | h2
  · have hn : a.nch = 1 := hnch ▸ nch_of_one h1
    rw [if_pos h1] at hwords
    rw [hn] at hwritten hkept
    refine ⟨hframe, fun i hi => ?_, fun i hi => ?_⟩
    · rw [hn] at hi
      rw [hwords, isSome_lookup_write]
      by_cases hib : i = b
      · exact .inl hib
      · exact .inr (hwritten i (by omega))
    · rw [hn] at hi
      rw [hwords, outWord_write_of_ne _ _ (by omega), hkept i (by omega)]
  · have hn : a.nch = 2 := hnch ▸ nch_of_two h2
    rw [if_neg (by simp [h2])] at hwords
    rw [hn] at hwritten hkept
    refine ⟨hframe, fun i hi => ?_, fun i hi => ?_⟩
    · rw [hn] at hi
      rw [hwords, isSome_lookup_write, isSome_lookup_write]
      by_cases hib : i < b * 2
      · exact .inr (.inr (hwritten i hib))
      · omega
    · rw [hn] at hi
      rw [hwords, outWord_write_of_ne _ _ (by omega), outWord_write_of_ne _ _ (by omega), hkept i (by omega)]

/-- The blocks of `FRAME` against those of the step mode, from the state `FRAME_START` leaves. -/
theorem blocks_alike {a : State} (h : AtBlock 0 a) :
    Alike (fun w t => t = frameView w.out w ∧ AtBlock a.regs.nblocks.toNat w ∧ BlocksDone a a.regs.nblocks.toNat w)
      (forUpTo a.regs.nblocks.toNat (fun _ => attemptBlock) a)
      (forUpTo a.regs.nblocks.toNat blockPass (frameView a.out a)) := by
  refine alike_forUpTo (fun b w t => t = frameView w.out w ∧ AtBlock b w ∧ BlocksDone a b w) ⟨rfl, h, .zero a⟩ ?_
  rintro b hb u _ ⟨rfl, hu, hdone⟩
  refine (block_alike hu (by rwa [hdone.regs])).mono ?_
  rintro w _ ⟨hd, rfl, hw⟩
  exact ⟨rfl, hw, hdone.succ hu hd⟩

theorem started_of_frameStart {s a : State} (h : frameStart s = .ok a) : a = Spec.started s := by
  rw [frameStart_eq] at h
  cases he : Spec.startError s with
  | none => rw [he] at h; cases h; rfl
  | some e => rw [he] at h; cases h

theorem frameStart_regs {s a : State} (h : frameStart s = .ok a) : a.regs = s.regs := by
  rw [started_of_frameStart h]; rfl

theorem atBlock_of_frameStart {s a : State} (hi : s.Inv) (hp : s.phase ≠ .err) (h : frameStart s = .ok a) :
    AtBlock 0 a := by
  obtain ⟨⟨-, -, -, -, -, hopen⟩, hopened⟩ := openInv_frameStart hi hp h
  obtain ⟨⟨-, hchannels, -⟩, -, -, -, -, hstarted, -⟩ := hopen hopened
  refine ⟨hopened, hstarted, hchannels, ?_, ?_⟩
  · rw [started_of_frameStart h]; rfl
  · rw [started_of_frameStart h]; exact fun _ => ⟨rfl, rfl⟩

/-- The state `FRAME` answers where the step mode ends in `w` (R120). -/
def finished (w : State) : State :=
  { w with phase := .done, res := 0, ch0 := { w.ch0 with sample := 0 }, ch1 := { w.ch1 with sample := 0 } }

/-- The end of `FRAME` on the frame view of the step mode's last state. -/
theorem finish_frameView {s a w : State} (h : frameStart s = .ok a) (hw : AtBlock s.regs.nblocks.toNat w)
    (hd : BlocksDone a s.regs.nblocks.toNat w) :
    { frameView w.out w with bidx := (frameView w.out w).regs.nblocks, phase := .done } = finished w := by
  have hbidx : w.regs.nblocks = w.bidx := by
    rw [hd.regs, frameStart_regs h]
    exact BitVec.eq_of_toNat_eq hw.bidx.symm
  show { frameView w.out w with bidx := w.regs.nblocks, phase := .done } = finished w
  rw [hbidx]
  rfl

section
variable {s a : State} (hi : s.Inv) (hp : s.phase ≠ .err) (h : frameStart s = .ok a)
include hi hp h

/-- The blocks of `FRAME` against those of the step mode, after `FRAME_START` (R117, R120). -/
theorem frame_blocks_alike :
    Alike (fun w t => t = frameView w.out w ∧ AtBlock s.regs.nblocks.toNat w ∧ BlocksDone a s.regs.nblocks.toNat w)
      (forUpTo s.regs.nblocks.toNat (fun _ => attemptBlock) a) (forUpTo s.regs.nblocks.toNat blockPass a) := by
  have halike := blocks_alike (atBlock_of_frameStart hi hp h)
  rwa [show frameView a.out a = a by rw [started_of_frameStart h]; rfl, frameStart_regs h] at halike

/-- `FRAME` COMPLETES EXACTLY WHEN THE STEP MODE DOES, and their results belong together (R120). -/
theorem opFrame_iff_stepMode (t : State) : opFrame s = .ok t ↔
    ∃ w, forUpTo s.regs.nblocks.toNat (fun _ => attemptBlock) a = .ok w ∧ t = finished w := by
  have halike := frame_blocks_alike hi hp h
  have hbody := frameBody_iff_blocks (ncoded_le_nch (openInv_frameStart hi hp h))
  rw [frameStart_regs h] at hbody
  constructor
  · intro ht
    obtain ⟨a', u, ha', hu, rfl⟩ := opFrame_ok ht
    rw [h] at ha'
    cases ha'
    obtain ⟨w, hw, rfl, hat, hd⟩ := halike.of_right_ok ((hbody u).1 hu)
    exact ⟨w, hw, finish_frameView h hat hd⟩
  · rintro ⟨w, hw, rfl⟩
    obtain ⟨u, hu, rfl, hat, hd⟩ := halike.of_left_ok hw
    rw [opFrame, h, ok_bind, (hbody _).2 hu, ok_bind, finish_frameView h hat hd]

end

/-- `runBlocks` that ends outside `ERR` is the loop of `BLOCK` that completes. -/
theorem runBlocks_eq_next_iff {n : Nat} {a w : State} (ha : a.phase ≠ .err) (hw : w.phase ≠ .err) :
    runBlocks n a = .next w ↔ forUpTo n (fun _ => attemptBlock) a = .ok w := by
  obtain ⟨t, ht, hend⟩ := runBlocks_endsIn n ha
  rw [ht, Host.Outcome.next.injEq]
  constructor
  · rintro rfl
    exact hend.ok_of_phase hw
  · intro hok
    obtain hok' | ⟨e, he, -⟩ := hend
    · rw [hok] at hok'; cases hok'; rfl
    · rw [hok] at he; cases he

/-- A completed `FRAME` with the step mode beside it. -/
theorem stepMode_of_frame {s t : State} (hi : s.Inv) (hp : s.phase ≠ .err) (h : exec .frame s = .next t)
    (ht : t.phase ≠ .err) : ∃ a w, frameStart s = .ok a ∧
      forUpTo s.regs.nblocks.toNat (fun _ => attemptBlock) a = .ok w ∧ t = finished w := by
  obtain ⟨-, -, hframe⟩ := issue_completes h ht
  obtain ⟨a, -, ha, -, -⟩ := opFrame_ok hframe
  exact ⟨a, (opFrame_iff_stepMode hi hp ha t).1 hframe |>.imp fun w hw => ⟨ha, hw⟩⟩

/-- Settles O42: `FRAME` that completes is the step mode that completes. -/
theorem stepModeFollowsFrame : Obligations.StepModeFollowsFrame := by
  intro s t hi hp h ht
  obtain ⟨a, w, ha, hw, rfl⟩ := stepMode_of_frame hi hp h ht
  obtain ⟨-, -, -, hat, -⟩ := (frame_blocks_alike hi hp ha).of_left_ok hw
  have hstart : a.phase = .opened := frameStart_phase ha
  refine ⟨a, w, issue_of_ok hp ((legal_iff hp .frameStart).2 trivial) ha, hstart, ?_, hat.opened, rfl⟩
  exact (runBlocks_eq_next_iff (by simp [hstart]) (by simp [hat.opened])).2 hw

/-- Settles O43: the step mode that completes is `FRAME` that completes. -/
theorem frameFollowsStepMode : Obligations.FrameFollowsStepMode := by
  intro s a b hi hp hstart ha hrun hb
  obtain ⟨-, -, hok⟩ := issue_completes hstart (by simp [ha])
  have hblocks := (runBlocks_eq_next_iff (by simp [ha]) (by simp [hb])).1 hrun
  have hframe := (opFrame_iff_stepMode hi hp hok (finished b)).2 ⟨b, hblocks, rfl⟩
  exact issue_of_ok hp ((legal_iff hp .frame).2 trivial) hframe

/-- Settles O44: the step mode writes the words block by block, and keeps the rest of the started state. -/
theorem completedFrameWritesExactlyItsWords : Obligations.CompletedFrameWritesExactlyItsWords := by
  intro s t hi hp h ht
  obtain ⟨a, w, ha, hw, rfl⟩ := stepMode_of_frame hi hp h ht
  obtain ⟨-, -, -, hat, hd⟩ := (frame_blocks_alike hi hp ha).of_left_ok hw
  have hstarted := started_of_frameStart ha
  subst hstarted
  obtain ⟨hframe, hwritten, hkept⟩ := hd
  have hrest : finished w = { finished w with
      errCode := s.errCode, errInfo := s.errInfo, regs := s.regs, frameCrc := Spec.headerCrc s
      frameFlags := Spec.headerFlags s, win := s.win } := by
    unfold finished
    rw [hframe]
    rfl
  rw [hrest]
  exact ⟨rfl, BitVec.eq_of_toNat_eq hat.bidx, rfl, rfl, rfl, rfl, rfl, rfl, rfl, rfl, fun _ => rfl, hwritten, hkept⟩

end Sys2Proof.Machine
end

section
/-! What the outcome of `FRAME` depends on (40_frame_control.md R123). -/

namespace Sys2Proof.Machine

/-! ## Windows that agree -/

/-- Two stream views of the same length that agree on the bytes inside the window (R64). -/
structure SameWindow (v v' : View) : Prop where
  len : v'.len = v.len
  byte : ∀ i, insideWindow v i = true → viewByte v' i = viewByte v i

section
variable {v v' : View} (h : SameWindow v v')
include h

theorem streamDefined_sameWindow (p n : Nat) : streamDefined v' p n = streamDefined v p n := by
  rw [Bool.eq_iff_iff, streamDefined_iff, streamDefined_iff]
  simp only [insideWindow, h.len]

theorem streamBits_sameWindow {p n : Nat} (hd : streamDefined v p n = true) : streamBits v' p n = streamBits v p n :=
  streamBits_congr fun t h1 h2 => h.byte _ ((streamDefined_iff v p n).1 hd t h1 h2)

theorem nextByte_sameWindow : nextByte v' = nextByte v := by
  funext r
  unfold nextByte
  rw [streamDefined_sameWindow h]
  split
  · rw [streamBits_sameWindow h ‹_›]
  · rfl

theorem rcInit_sameWindow : rcInit v' = rcInit v := by
  unfold rcInit; rw [nextByte_sameWindow h]

theorem rcNorm_sameWindow : rcNorm v' = rcNorm v := by
  have hloop (fuel : Nat) : rcNormLoop v' fuel = rcNormLoop v fuel := by
    induction fuel with
    | zero => rfl
    | succ fuel ih => funext r; rw [rcNormLoop, rcNormLoop, nextByte_sameWindow h, ih]
  funext r
  rw [rcNorm, rcNorm, hloop]

theorem rcBits_sameWindow : rcBits v' = rcBits v := by
  unfold rcBits; rw [rcNorm_sameWindow h]

theorem rcSym_sameWindow (p : Config) : rcSym p v' = rcSym p v := by
  unfold rcSym; rw [rcNorm_sameWindow h]

/-- The decoder reads the stream by `NextByte` alone (R131). -/
theorem rcValue_sameWindow (p : Config) : rcValue p v' = rcValue p v := by
  have hloop (k fuel : Nat) : rcOverflow p v' k fuel = rcOverflow p v k fuel := by
    induction fuel with
    | zero => rfl
    | succ fuel ih => funext ovf r; rw [rcOverflow, rcOverflow, rcSym_sameWindow h, ih]
  have hrefine : rcRefine v' = rcRefine v := by
    unfold rcRefine; rw [rcBits_sameWindow h]
  funext k r
  rw [rcValue, rcValue, hloop, hrefine]

end

/-! ## States of the same frame -/

/-- Two states of the same frame: they agree on everything `FRAME` computes with, on the window, and on the words of
`OUT` in `W`. The first differs from `a` in the decode state at most. -/
structure SameFrame (a : State) (W : Nat → Prop) (s s' : State) : Prop where
  decode : OnlyDecode a s
  window : SameWindow s.view s'.view
  rest : s' = { s with
    errCode := s'.errCode, errInfo := s'.errInfo, win := s'.win, out := s'.out, bus := s'.bus
    readData := s'.readData, draws := s'.draws }
  words : ∀ i, W i → outWord s'.out i = outWord s.out i

namespace SameFrame

variable {a s s' : State} {W V : Nat → Prop} (h : SameFrame a W s s')
include h

theorem chan (c : Nat) : s'.chan c = s.chan c := by rw [h.rest]; rfl

theorem rc : s'.rc = s.rc := by rw [h.rest]

theorem cfg : s'.cfg = s.cfg := by rw [h.rest]

theorem fstereo : s'.fstereo = s.fstereo := by rw [h.rest]

theorem silent : s'.silent = s.silent := by rw [h.rest]

theorem row : s'.row = s.row := by rw [h.rest]; rfl

theorem nch : s'.nch = s.nch := by rw [h.rest]; rfl

theorem ncoded : s'.ncoded = s.ncoded := by rw [h.rest]; rfl

theorem mono (hV : ∀ i, V i → W i) : SameFrame a V s s' := { h with words := fun i hi => h.words i (hV i hi) }

theorem setChan (c : Nat) (ch : Chan) : SameFrame a W (s.setChan c ch) (s'.setChan c ch) where
  decode := h.decode.trans (onlyDecode_setChan s c ch)
  window := by simpa using h.window
  rest := by rw [h.rest]; unfold State.setChan; split <;> rfl
  words := by simpa using h.words

theorem setK (e k : Nat) : SameFrame a W (s.setK e k) (s'.setK e k) := by
  rw [setK_eq, setK_eq, h.chan]
  exact h.setChan e _

theorem setRc (r : RangeState) : SameFrame a W { s with rc := r } { s' with rc := r } where
  decode := h.decode.trans (onlyDecode_rc s r)
  window := h.window
  rest := by rw [h.rest]
  words := h.words

/-- The same write on both sides adds its word. -/
theorem writeOut (i : Nat) (v : Word) : SameFrame a (fun j => W j ∨ j = i) (s.writeOut i v) (s'.writeOut i v) where
  decode := h.decode.trans (onlyDecode_writeOut s i v)
  window := h.window
  rest := by rw [h.rest]; rfl
  words j hj := by
    rw [writeOut_out, writeOut_out, outWord_write, outWord_write]
    split
    · rfl
    · exact h.words j (hj.resolve_right ‹_›)

theorem nextResidual (c : Nat) : Machine.nextResidual c s' = Machine.nextResidual c s := by
  rw [Machine.nextResidual, rcValue_sameWindow h.window, h.cfg, h.chan, h.rc]
  rfl

theorem pastResidual (c : Nat) (d : Nat × RangeState) :
    SameFrame a W (Machine.pastResidual c d s) (Machine.pastResidual c d s') := by
  have hpast : Machine.pastResidual c d s' = State.setK { s' with rc := d.2 } (kIndex s.cfg c)
      (adapt s.cfg.kMax (s.chan (kIndex s.cfg c)).k d.1) := by rw [← h.cfg, ← h.chan]; rfl
  rw [hpast]
  exact (h.setRc d.2).setK _ _

theorem nextSample (c : Nat) (x : Word) : Machine.nextSample c x s' = Machine.nextSample c x s := by
  rw [Machine.nextSample, h.row, h.chan, h.cfg, State.nstages, h.row]
  rfl

theorem pastSample (c : Nat) (f : Filtered) :
    SameFrame a W (Machine.pastSample c f s) (Machine.pastSample c f s') := by
  rw [Machine.pastSample, Machine.pastSample, h.chan]
  exact h.setChan c _

theorem entropyChannel (b c : Nat) : Alike (SameFrame a fun i => W i ∨ i = b * a.nch + c)
    (Machine.entropyChannel b c s) (Machine.entropyChannel b c s') := by
  rw [entropyChannel_eq, entropyChannel_eq, h.nextResidual, h.nch, h.decode.nch]
  exact alike_bind_same fun d => alike_ok ((h.pastResidual c d).writeOut _ _)

theorem filterBlock {b c : Nat} (hw : W (b * a.nch + c)) : Alike (SameFrame a W) (Machine.filterBlock c b s)
    (Machine.filterBlock c b s') := by
  rw [filterBlock_eq, filterBlock_eq, h.nextSample, h.nch, h.decode.nch, h.words _ hw]
  exact alike_bind_same fun d => alike_ok (((h.pastSample c d).writeOut _ _).mono fun _ => .inl)

theorem stereoBlock {b : Nat} (h0 : a.nch = 2 → W (2 * b)) (h1 : a.nch = 2 → a.fstereo = false → W (2 * b + 1)) :
    Alike (SameFrame a fun i => W i ∨ a.nch = 2 ∧ i = 2 * b + 1) (Machine.stereoBlock b s)
      (Machine.stereoBlock b s') := by
  unfold Machine.stereoBlock
  rw [h.nch, h.fstereo, h.decode.nch, h.decode.fstereo]
  by_cases hn : a.nch = 2
  · rw [if_pos hn, if_pos hn, h.words _ (h0 hn)]
    cases hf : a.fstereo with
    | true => exact alike_ok ((h.writeOut _ _).mono fun i hi => hi.imp id And.right)
    | false =>
      rw [h.words _ (h1 hn hf)]
      exact alike_bind_same fun w => alike_ok (((h.writeOut _ _).writeOut _ _).mono fun i hi => hi.imp .inl And.right)
  · rw [if_neg hn, if_neg hn]
    exact alike_ok (h.mono fun i hi => hi.resolve_right fun hi => hn hi.1)

end SameFrame

/-! ## The passes -/

/-- The words of the coded channels of the first `b` blocks (R117 step 4). -/
def CodedWord (a : State) (b i : Nat) : Prop := ∃ b' < b, ∃ c < a.ncoded, i = b' * a.nch + c

section
variable {a s s' : State} {W : Nat → Prop}

theorem sameFrame_silence (h : SameFrame a W s s') (n : Nat) :
    Alike (SameFrame a fun i => i < n) (forUpTo n silenceWord s) (forUpTo n silenceWord s') := by
  refine alike_forUpTo (fun n => SameFrame a fun i => i < n) (h.mono fun i hi => by omega) ?_
  intro i _ u u' hu
  exact alike_ok ((hu.writeOut i 0).mono fun j hj => by omega)

theorem sameFrame_entropyPass (h : SameFrame a W s s') (n : Nat) :
    Alike (SameFrame a (CodedWord a n)) (forUpTo n entropyBlock s) (forUpTo n entropyBlock s') := by
  refine alike_forUpTo (fun b => SameFrame a (CodedWord a b)) (h.mono fun i ⟨b, hb, _⟩ => by omega) ?_
  intro b _ u u' hu
  rw [entropyBlock, entropyBlock, hu.ncoded, hu.decode.ncoded]
  refine (alike_forUpTo (fun m => SameFrame a fun i => CodedWord a b i ∨ ∃ c < m, i = b * a.nch + c)
    (hu.mono ?_) ?_).mono fun v v' hv => hv.mono ?_
  · rintro i (hi | ⟨c, hc, -⟩)
    · exact hi
    · omega
  · intro c _ v v' hv
    refine (hv.entropyChannel b c).mono fun w w' hw => hw.mono ?_
    rintro i (hi | ⟨c', hc', rfl⟩)
    · exact .inl (.inl hi)
    · rcases Nat.lt_succ_iff_lt_or_eq.1 hc' with hlt | rfl
      · exact .inl (.inr ⟨c', hlt, rfl⟩)
      · exact .inr rfl
  · rintro i ⟨b', hb', c, hc, rfl⟩
    rcases Nat.lt_succ_iff_lt_or_eq.1 hb' with hlt | rfl
    · exact .inl ⟨b', hlt, c, hc, rfl⟩
    · exact .inr ⟨c, hc, rfl⟩

theorem sameFrame_filterPass {n : Nat} (h : SameFrame a (CodedWord a n) s s') :
    Alike (SameFrame a (CodedWord a n)) (forUpTo a.ncoded (filterChannel n) s)
      (forUpTo a.ncoded (filterChannel n) s') := by
  refine alike_forUpTo (fun _ => SameFrame a (CodedWord a n)) h fun c hc u u' hu => ?_
  exact alike_forUpTo (fun _ => SameFrame a (CodedWord a n)) hu fun b hb v v' hv =>
    hv.filterBlock ⟨b, hb, c, hc, rfl⟩

/-- The words of all channels: the coded ones, and in a false-stereo frame the second of each block (R202). -/
theorem word_cases (hch : a.regs.channels = 1 ∨ a.regs.channels = 2) {n i : Nat} (hi : i < n * a.nch) :
    CodedWord a n i ∨ ∃ b < n, a.nch = 2 ∧ i = 2 * b + 1 := by
  rcases hch with h1 | h2
  · have hnch := nch_of_one h1
    have hcoded : a.ncoded = 1 := by simp [State.ncoded, codedChannels, h1]
    rw [hnch] at hi
    exact .inl ⟨i, by omega, 0, by omega, by rw [hnch]; omega⟩
  · have hnch := nch_of_two h2
    rw [hnch] at hi
    by_cases heven : i % 2 = 0
    · have hcoded : 0 < a.ncoded := by unfold State.ncoded codedChannels; split <;> decide
      exact .inl ⟨i / 2, by omega, 0, hcoded, by rw [hnch]; omega⟩
    · exact .inr ⟨i / 2, by omega, hnch, by omega⟩

theorem sameFrame_stereoPass {n : Nat} (h : SameFrame a (CodedWord a n) s s') :
    Alike (SameFrame a fun i => CodedWord a n i ∨ ∃ b < n, a.nch = 2 ∧ i = 2 * b + 1) (forUpTo n stereoBlock s)
      (forUpTo n stereoBlock s') := by
  refine alike_forUpTo (fun m => SameFrame a fun i => CodedWord a n i ∨ ∃ b < m, a.nch = 2 ∧ i = 2 * b + 1)
    (h.mono ?_) fun b hb u u' hu => ?_
  · rintro i (hi | ⟨b, hb, -⟩)
    · exact hi
    · omega
  · have hleft (hn : a.nch = 2) : CodedWord a n (2 * b) :=
      ⟨b, hb, 0, by unfold State.ncoded codedChannels; split <;> decide, by rw [hn]; omega⟩
    have hright (hn : a.nch = 2) (hf : a.fstereo = false) : CodedWord a n (2 * b + 1) := by
      refine ⟨b, hb, 1, ?_, by rw [hn]; omega⟩
      have hne : a.regs.channels ≠ 1#32 := fun h1 => by rw [nch_of_one h1] at hn; omega
      simp [State.ncoded, codedChannels, hf, hne]
    refine (hu.stereoBlock (fun hn => .inl (hleft hn)) fun hn hf => .inl (hright hn hf)).mono
      fun w w' hw => hw.mono ?_
    rintro i (hi | ⟨b', hb', hi⟩)
    · exact .inl (.inl hi)
    · rcases Nat.lt_succ_iff_lt_or_eq.1 hb' with hlt | rfl
      · exact .inl (.inr ⟨b', hlt, hi⟩)
      · exact .inr hi

/-- The body of `FRAME` on two states of the same frame (R117, R123). -/
theorem sameFrame_frameBody (hch : a.regs.channels = 1 ∨ a.regs.channels = 2) (h : SameFrame a W a s') :
    Alike (SameFrame a fun i => i < a.regs.nblocks.toNat * a.nch) (frameBody a) (frameBody s') := by
  have hregs : s'.regs = a.regs := by rw [h.rest]
  rw [frameBody, frameBody, hregs, h.silent, h.nch]
  split
  · exact sameFrame_silence h _
  · refine (sameFrame_entropyPass h _).bind fun u u' hu => ?_
    rw [hu.ncoded, hu.decode.ncoded]
    refine (sameFrame_filterPass hu).bind fun v v' hv => ?_
    exact (sameFrame_stereoPass hv).mono fun w w' hw => hw.mono fun i => word_cases hch

end

/-! ## The whole of `FRAME` -/

/-- Two states once a frame is open in both: `STATE` set to `OPEN`, they are of the same frame. -/
def SameOpened (u u' : State) : Prop :=
  SameFrame { u with phase := .opened } (fun _ => False) { u with phase := .opened } { u' with phase := .opened }

/-- The header's words are the same, once they are inside the window. -/
theorem header_sameWindow {s s' : State} (hregs : s'.regs = s.regs) (hwin : SameWindow s.view s'.view)
    (hd : streamDefined s.view s.regs.startBit.toNat 64 = true) :
    Spec.headerCrc s' = Spec.headerCrc s ∧ Spec.headerFlags s' = Spec.headerFlags s := by
  rw [show (64 : Nat) = 32 + 32 from rfl, streamDefined_add, Bool.and_eq_true] at hd
  obtain ⟨hcrc, hflags⟩ := hd
  rw [Spec.headerCrc, Spec.headerFlags, hregs, streamBits_sameWindow hwin hcrc, streamBits_sameWindow hwin hflags]
  exact ⟨rfl, rfl⟩

section
variable {s s' : State} (hregs : s'.regs = s.regs) (hcfg : s'.cfg = s.cfg) (hwin : SameWindow s.view s'.view)
include hregs hcfg hwin

theorem readHeader_alike :
    Alike SameOpened (readHeader (clearFrameState s)) (readHeader (clearFrameState s')) := by
  rw [readHeader_clear, readHeader_clear, streamDefined_sameWindow hwin, hregs]
  split
  · exact alike_error _
  · rename_i hd
    obtain ⟨hcrc, hflags⟩ := header_sameWindow hregs hwin (not_not.1 hd)
    have hchecks : flagChecks s' = flagChecks s := by funext f; rw [flagChecks, hregs]; rfl
    have hclear (k : Nat) : clearChan s' k = clearChan s k := by rw [clearChan, State.row, hcfg, hregs]; rfl
    rw [hchecks, hflags]
    refine alike_bind_same fun _ => alike_ok ⟨.refl _, hwin, ?_, fun _ h => h.elim⟩
    simp only [headed, clearFrameState, hclear, hregs, hcfg, hcrc, hflags]

/-- Two states with the same configuration, parameters and window start the same frame (R116, R123). -/
theorem frameStart_alike : Alike (fun a a' => SameFrame a (fun _ => False) a a') (frameStart s) (frameStart s') := by
  have hstream : streamChecks s' = streamChecks s := by rw [streamChecks, hregs, hcfg]; rfl
  have hframe : frameChecks s' = frameChecks s := by rw [frameChecks, expectedBlocks, hregs, hcfg]; rfl
  unfold frameStart
  rw [hstream, hframe]
  refine alike_bind_same fun _ => alike_bind_same fun _ => ?_
  refine (readHeader_alike hregs hcfg hwin).bind fun u u' hu => ?_
  have hsilent : u'.silent = u.silent := hu.silent
  have hinit : rcInit u'.view u'.rc = rcInit u.view u.rc :=
    (congrFun (rcInit_sameWindow hu.window) u'.rc).trans (congrArg (rcInit u.view) hu.rc)
  simp only [hsilent]
  split
  · exact alike_ok hu
  · simp only [opRcInit, hinit, bind_assoc, ok_bind]
    refine alike_bind_same fun r => alike_ok ⟨.refl _, hu.window, ?_, fun _ h => h.elim⟩
    exact congrArg (fun t : State => { t with rc := r, rcInit := true }) hu.rest

/-- What `FRAME` answers of two such states, or the one error it raises of both (R123). -/
theorem opFrame_alike :
    Alike (fun t t' => t.phase = .done ∧ SameFrame t (fun i => i < s.regs.nblocks.toNat * s.nch) t t') (opFrame s)
      (opFrame s') := by
  obtain ⟨a, a', ha, ha', hsame⟩ | ⟨e, he, he'⟩ := frameStart_alike hregs hcfg hwin
  · obtain ⟨hstream, hframe, -⟩ := frameStart_ok ha
    have hch : a.regs.channels = 1 ∨ a.regs.channels = 2 := by
      rw [frameStart_regs ha]
      exact (validated_of_checks hstream hframe).2.1
    have hbody := sameFrame_frameBody hch hsame
    rw [State.nch, frameStart_regs ha] at hbody
    rw [opFrame, opFrame, ha, ha', ok_bind, ok_bind]
    refine hbody.bind fun b b' hb => alike_ok ⟨rfl, .refl _, hb.window, ?_, hb.words⟩
    exact congrArg (fun t : State => { t with bidx := t.regs.nblocks, phase := .done }) hb.rest
  · rw [opFrame, opFrame, he, he']
    exact alike_error e

end

theorem exec_frame {s : State} (hp : s.phase ≠ .err) : exec .frame s = .next (settle (opFrame s) s) := by
  rw [exec_eq_settle (by simp) hp, attempt_of_legal (i := .frame) hp trivial]; rfl

/-- Settles O46: the two runs of `FRAME` end alike. -/
theorem frameDependsOnlyOnConfigurationAndWindow : Obligations.FrameDependsOnlyOnConfigurationAndWindow := by
  intro s₁ s₂ t₁ t₂ hp₁ hp₂ hregs hcfg hwin h₁ h₂
  have hview : SameWindow s₁.view s₂.view :=
    ⟨congrArg (fun g => g.winLen.toNat) hregs.symm, fun i hi =>
      congrArg BitVec.toNat (hwin _ (of_decide_eq_true hi)).symm⟩
  rw [exec_frame hp₁, Host.Outcome.next.injEq] at h₁
  rw [exec_frame hp₂, Host.Outcome.next.injEq] at h₂
  obtain ⟨u₁, u₂, hu₁, hu₂, hdone, hsame⟩ | ⟨e, he₁, he₂⟩ := opFrame_alike hregs.symm hcfg.symm hview
  · rw [hu₁, settle_ok] at h₁
    rw [hu₂, settle_ok] at h₂
    subst h₁ h₂
    refine ⟨?_, ?_, ?_⟩
    · rw [hsame.rest]
    · simp [hdone]
    · intro _
      have hwords := fun i hi => (hsame.words i hi).symm
      rw [hsame.rest] at hwords ⊢
      exact ⟨rfl, rfl, rfl, rfl, rfl, rfl, rfl, rfl, rfl, rfl, hwords⟩
  · rw [he₁, settle_error] at h₁
    rw [he₂, settle_error] at h₂
    subst h₁ h₂
    exact ⟨rfl, fun _ => ⟨rfl, rfl⟩, fun h => absurd rfl h⟩

end Sys2Proof.Machine
end

section
/-! The range decoder operations in an open frame (41_range_decoder.md R131 to R141): each outcome is the outcome of the
pseudocode, which the relations of `Sys2Proof.Spec` decide. -/

namespace Sys2Proof.Machine

open Sys2Proof.Spec

/-! ## From the pseudocode to `exec` -/

section
variable {i : Instr} {s : State} (hi : i ≠ .sreset) (hp : s.phase = .opened) (hl : Spec.Legal s i)
include hi hp hl

theorem exec_eq_settle_body : exec i s = .next (settle (body i s) s) := by
  have hne : s.phase ≠ .err := by simp [hp]
  rw [exec_eq_settle hi hne, attempt_of_legal hne hl]

theorem exec_of_body_ok {t : State} (h : body i s = .ok t) : exec i s = .next t := by
  rw [exec_eq_settle_body hi hp hl, h, settle_ok]

theorem exec_raises_of_body_error {e : Err} (h : body i s = .error e) :
    ∃ t, exec i s = .next t ∧ Raised s t e.kind e.info :=
  ⟨raise e s, by rw [exec_eq_settle_body hi hp hl, h, settle_error], raised_raise e s⟩

end

/-- An operation that completes was legal, and its pseudocode ran to its end. -/
theorem completes_of_exec {i : Instr} {s t : State} (hi : i ≠ .sreset) (h : exec i s = .next t) (ht : t.phase ≠ .err) :
    s.phase ≠ .err ∧ Spec.Legal s i ∧ body i s = .ok t := by
  rw [exec_eq_issue hi] at h
  obtain ⟨hp, hl, hb⟩ := issue_completes h ht
  exact ⟨hp, (legal_iff hp i).1 hl, hb⟩

/-- The state after `ENT_RES c` has decoded `x` and left the range decoder at `r` (R137 to R139). -/
def afterEntRes (c x : Nat) (r : RangeState) (s : State) : State :=
  (State.setK { s with rc := r, res := natWord x } (kIndex s.cfg c)
    (adapt s.cfg.kMax (s.chan (kIndex s.cfg c)).k x)).setSample c (toWord (fold x))

section
variable {s : State} {r : RangeState} {e : Err} {x : Nat}

theorem opRcNorm_of_ok (h : rcNorm s.view s.rc = .ok r) : opRcNorm s = .ok { s with rc := r } := by
  rw [opRcNorm, h, ok_bind]

theorem opRcNorm_of_error (h : rcNorm s.view s.rc = .error e) : opRcNorm s = .error e := by
  rw [opRcNorm, h, error_bind]

theorem opRcBits_of_ok {n : Nat} (h : rcBits s.view n s.rc = .ok (x, r)) :
    opRcBits n s = .ok { s with rc := r, res := natWord x } := by rw [opRcBits, h, ok_bind]

theorem opRcBits_of_error {n : Nat} (h : rcBits s.view n s.rc = .error e) : opRcBits n s = .error e := by
  rw [opRcBits, h, error_bind]

theorem opRcSym_of_ok (h : rcSym s.cfg s.view s.rc = .ok (x, r)) :
    opRcSym s = .ok { s with rc := r, res := natWord x } := by rw [opRcSym, h, ok_bind]

theorem opRcSym_of_error (h : rcSym s.cfg s.view s.rc = .error e) : opRcSym s = .error e := by
  rw [opRcSym, h, error_bind]

theorem opRcValue_of_ok {k : Nat} (h : rcValue s.cfg s.view k s.rc = .ok (x, r)) :
    opRcValue k s = .ok { s with rc := r, res := natWord x } := by rw [opRcValue, h, ok_bind]

theorem opRcValue_of_error {k : Nat} (h : rcValue s.cfg s.view k s.rc = .error e) : opRcValue k s = .error e := by
  rw [opRcValue, h, error_bind]

/-- `ENT_RES c` once its value is known (R137): `RES` may be written before `K[e]`. -/
theorem opEntRes_of_ok {c : Nat} (h : nextResidual c s = .ok (x, r)) : opEntRes c s = .ok (afterEntRes c x r s) := by
  rw [opEntRes_eq, h, ok_bind, pastResidual, afterEntRes]
  unfold State.setK State.setChan State.chan
  split <;> rfl

/-- `ENT_RES c` that completes. -/
theorem opEntRes_ok {c : Nat} {t : State} (h : opEntRes c s = .ok t) :
    ∃ x r, nextResidual c s = .ok (x, r) ∧ t = afterEntRes c x r s := by
  obtain ⟨⟨x, r⟩, hd, -⟩ := bind_ok ((opEntRes_eq c s).symm.trans h)
  exact ⟨x, r, hd, Except.ok.inj (h.symm.trans (opEntRes_of_ok hd))⟩

theorem opEntRes_of_error {c : Nat} (h : nextResidual c s = .error e) : opEntRes c s = .error e := by
  rw [opEntRes_eq, h, error_bind]

end

/-- What the pseudocode relies on while the range decoder runs: no position wraps, and R140. -/
theorem decoder_of_open {s : State} (hinv : s.Inv) (hp : s.phase = .opened) (hr : s.rcInit = true) :
    ViewShort s.view ∧ RangeOk s.rc :=
  ⟨viewShort_of_open ⟨hinv, hp⟩, rangeOk_of_open ⟨hinv, hp⟩ hr⟩

/-- The word of an operation once its opcode's place in it is known (R89). -/
theorem encode_of_opcode {i : Instr} (op base : Nat) (hop : opcodeOf i = op) (hbase : op * 2 ^ 24 = base) :
    encode i = BitVec.ofNat 32 (base + operandBits i) := by rw [encode, hop, hbase]

/-! ## The statements of R132 to R139 -/

/-- Settles O19: `RC_INIT` reads one byte, inside the window or not. -/
theorem rcInitStartsTheDecoder : Obligations.RcInitStartsTheDecoder := by
  refine ⟨by decide, fun s hp hs => ⟨fun hd => ?_, fun hd => ?_⟩⟩
  · refine exec_of_body_ok (i := .rcInit) (by simp) hp ⟨hp, hs⟩ ?_
    have hpos : natWord (s.rc.pos.toNat + 8) = s.rc.pos + 8 := by simp [natWord, BitVec.ofNat_add]
    rw [body, opRcInit, rcInit_eq, if_neg (by simp [hd]), hpos]
    rfl
  · refine exec_raises_of_body_error (i := .rcInit) (e := corruptBitstream 1) (by simp) hp ⟨hp, hs⟩ ?_
    rw [body, opRcInit, rcInit_eq, if_pos (by simp [hd]), error_bind]

/-- Settles O20: `RcNorm` in closed form, with the bounds R140 gives. -/
theorem rcNormNormalises : Obligations.RcNormNormalises := by
  refine ⟨by decide, fun s hinv hp hr => ?_⟩
  obtain ⟨hv, hrange⟩ := decoder_of_open hinv hp hr
  obtain ⟨h24, h32, heq⟩ := rcNorm_eq hv hrange
  refine ⟨fun ha => ⟨?_, h24, h32, (normalised_toNat hv hrange ha).2.2⟩, fun ha => ?_⟩
  · exact exec_of_body_ok (i := .rcNorm) (by simp) hp ⟨hp, hr⟩ (opRcNorm_of_ok (heq.trans (if_pos ha)))
  · exact exec_raises_of_body_error (i := .rcNorm) (by simp) hp ⟨hp, hr⟩ (opRcNorm_of_error (heq.trans (if_neg ha)))

/-- Settles O21: `RcBits` computes what the relations allow, its value and both its errors. -/
theorem rcBitsDecodesRawBits : Obligations.RcBitsDecodesRawBits := by
  refine fun n hn => ⟨encode_of_opcode 0x12 _ rfl rfl, fun s hinv hp hr => ?_⟩
  obtain ⟨hv, hrange⟩ := decoder_of_open hinv hp hr
  have hlegal : Spec.Legal s (.rcBits n) := ⟨hp, hn, hr⟩
  refine ⟨fun x r h => ?_, fun info h => ?_⟩
  · exact exec_of_body_ok (by simp) hp hlegal (opRcBits_of_ok (rcBits_of_bitsAt hv hrange h))
  · exact exec_raises_of_body_error (by simp) hp hlegal (opRcBits_of_error (rcBits_of_bitsFail hv hrange h))

/-- Settles O22: `RcSym` computes what the relations allow; the symbol of a code is unique in a legal table. -/
theorem rcSymDecodesAnOverflowSymbol : Obligations.RcSymDecodesAnOverflowSymbol := by
  refine ⟨by decide, fun s hinv hp hr => ?_⟩
  obtain ⟨hv, hrange⟩ := decoder_of_open hinv hp hr
  have hlegal : Spec.Legal s .rcSym := ⟨hp, hr⟩
  refine ⟨fun y r h => ?_, fun info h => ?_⟩
  · exact exec_of_body_ok (by simp) hp hlegal (opRcSym_of_ok (rcSym_of_symbolAt hinv.1 hv hrange h))
  · exact exec_raises_of_body_error (by simp) hp hlegal (opRcSym_of_error (rcSym_of_symbolFails hv hrange h))

/-- Settles O23: `RcValue` computes what the relations allow, within the fuel of R141. -/
theorem rcValueDecodesCountThenBits : Obligations.RcValueDecodesCountThenBits := by
  intro s k hinv hp hr hk
  obtain ⟨hv, hrange⟩ := decoder_of_open hinv hp hr
  have hlegal : Spec.Legal s (.rcValue k) := ⟨hp, hk, hr⟩
  refine ⟨encode_of_opcode 0x14 _ rfl rfl, fun x r h => ?_, fun info h => ?_⟩
  · exact exec_of_body_ok (by simp) hp hlegal (opRcValue_of_ok (rcValue_of_valueAt hinv.1 hv hrange h))
  · exact exec_raises_of_body_error (by simp) hp hlegal (opRcValue_of_error (rcValue_of_valueFails hinv.1 hv hrange h))

/-- Settles O25: `ENT_RES c` is `RcValue` with the channel's own `K`. -/
theorem entResDecodesAResidual : Obligations.EntResDecodesAResidual := by
  intro s c hinv hp hr hc e
  obtain ⟨hv, hrange⟩ := decoder_of_open hinv hp hr
  have hlegal : Spec.Legal s (.entRes c) := ⟨hp, hc, hr⟩
  refine ⟨encode_of_opcode 0x15 _ rfl rfl, fun x r h => ?_, fun info h => ?_⟩
  · rw [← fold_eq, ← adapt_eq]
    exact exec_of_body_ok (by simp) hp hlegal (opEntRes_of_ok (rcValue_of_valueAt hinv.1 hv hrange h))
  · exact exec_raises_of_body_error (by simp) hp hlegal (opEntRes_of_error (rcValue_of_valueFails hinv.1 hv hrange h))

/-- The residual of a `u32` is an `i32` (R138). -/
theorem fits_fold {x : Nat} (hx : x < 2 ^ 32) : Fits 32 (fold x) := by
  rw [fold_eq, residualOf]
  split <;> constructor <;> omega

/-- An even value has its residual at 0 or above, an odd value below. -/
theorem fold_injective {x y : Nat} (h : fold x = fold y) : x = y := by
  simp only [fold_eq, residualOf] at h
  split at h <;> split at h <;> omega

/-- Settles O26: a word determines the `i32` it holds. -/
theorem foldIsAnInjectionIntoI32 : Obligations.FoldIsAnInjectionIntoI32 := by
  refine ⟨fun x hx => ⟨fold_eq x, fits_fold hx⟩, fun x hx y hy h => fold_injective ?_⟩
  have hstored : ∀ z < 2 ^ 32, (BitVec.ofInt 32 (fold z)).toInt = fold z := fun z hz =>
    toInt_ofInt_of_fits (by decide) (fitsSigned_iff.2 (fits_fold hz))
  rw [← hstored x hx, h, hstored y hy]

end Sys2Proof.Machine
end

section
/-! `RC_VALUE` ends (41_range_decoder.md R141): from every state of the range decoder the relations of `Sys2Proof.Spec`
give a value or an error, so that a run of continuation symbols can not go on for ever. -/

namespace Sys2Proof.Machine

open Sys2Proof.Spec

section
variable {p : Config} (hp : p.Legal) {v : View} {r : RangeState}

/-- The relations of one field are total: a value or an error. -/
theorem bitsAt_or_bitsFail (v : View) (n : Nat) (r : RangeState) :
    (∃ x r', BitsAt v n r x r') ∨ ∃ info, BitsFail v n r info := by
  by_cases ha : Available v r
  · rcases Nat.lt_or_ge (place v r n) (2 ^ n) with hlt | hge
    · exact .inl ⟨_, _, ha, rfl, hlt, rfl⟩
    · exact .inr ⟨2, .inr ⟨ha, hge, rfl⟩⟩
  · exact .inr ⟨1, .inl ⟨ha, rfl⟩⟩

include hp in
/-- A code below `2^OVF_SHIFT` lies in the interval of some symbol of a legal table (R7, R135). -/
theorem symbolAt_or_symbolFails (v : View) (r : RangeState) :
    (∃ y r', SymbolAt p v r y r') ∨ ∃ info, SymbolFails p v r info := by
  by_cases ha : Available v r
  · rcases Nat.lt_or_ge (place v r p.ovfShift) (2 ^ p.ovfShift) with hlt | hge
    · obtain ⟨y, lo, hi, hfind⟩ := ovfFind_complete (i := 0) hp.ovfCum_head hp.ovfCum_last (Nat.zero_le _) hlt
      obtain ⟨-, hlo, hhi, hge, hlt⟩ := ovfFind_some hfind
      exact .inl ⟨y, _, ha, lo, hi, hlo, hhi, hge, hlt, rfl⟩
    · exact .inr ⟨2, .inr ⟨ha, hge, rfl⟩⟩
  · exact .inr ⟨1, .inl ⟨ha, rfl⟩⟩

/-- From `r` on, with the count at `a` already, the overflow count ends in a count that fits, or in an error. -/
def CountEnds (p : Config) (v : View) (k a : Nat) (r : RangeState) : Prop :=
  (∃ n r', CountAt p v r n r' ∧ (a + n) * 2 ^ k < 2 ^ 32) ∨
    ∃ n r₁ info, PrefixAt p v r n r₁ ∧ (((a + n) * 2 ^ k < 2 ^ 32 ∧ SymbolFails p v r₁ info) ∨
      ∃ y r', SymbolAt p v r₁ y r' ∧ 2 ^ 32 ≤ (a + n + y) * 2 ^ k ∧ info = 3)

/-- A continuation symbol carries the end of what follows it. -/
theorem CountEnds.of_continuation {k a : Nat} {r₁ : RangeState} (hs : SymbolAt p v r (p.ovfNsym - 1) r₁)
    (h : CountEnds p v k (a + (p.ovfNsym - 1)) r₁) : CountEnds p v k a r := by
  rcases h with ⟨n, r', hc, hlt⟩ | ⟨n, r₂, info, hpre, hend⟩
  · exact .inl ⟨_, r', .go hs hc, by rwa [← Nat.add_assoc]⟩
  · exact .inr ⟨_, r₂, info, .more hs hpre, by rwa [← Nat.add_assoc]⟩

include hp in
/-- Each continuation symbol adds at least 1 to the count, and past `2^32` the value leaves 32 bits (R141). -/
theorem countEnds (v : View) (k : Nat) (r : RangeState) (a : Nat) (ha : a * 2 ^ k < 2 ^ 32) : CountEnds p v k a r := by
  rcases symbolAt_or_symbolFails hp v r with ⟨y, r', hs⟩ | ⟨info, hs⟩
  · rcases Nat.lt_or_ge ((a + y) * 2 ^ k) (2 ^ 32) with hlt | hge
    · by_cases hy : y = p.ovfNsym - 1
      · subst hy
        exact .of_continuation hs (countEnds v k r' (a + (p.ovfNsym - 1)) hlt)
      · exact .inl ⟨y, r', .stop hs hy, hlt⟩
    · exact .inr ⟨0, r, 3, .none, .inr ⟨y, r', hs, hge, rfl⟩⟩
  · exact .inr ⟨0, r, info, .none, .inl ⟨ha, hs⟩⟩
termination_by 2 ^ 32 - a
decreasing_by
  have := hp.ovfNsym_ge
  have hle : a ≤ a * 2 ^ k := Nat.le_mul_of_pos_right a (Nat.two_pow_pos k)
  omega

include hp in
theorem countAt_or_countFails (v : View) (k : Nat) (r : RangeState) :
    (∃ n r', CountAt p v r n r' ∧ n * 2 ^ k < 2 ^ 32) ∨ ∃ info, CountFails p v k r info := by
  have h := countEnds hp v k r 0 (by simp)
  simp only [CountEnds, Nat.zero_add] at h
  exact h.imp id fun ⟨n, r₁, info, h⟩ => ⟨info, n, r₁, h⟩

theorem refineAt_or_refineFails (v : View) (k : Nat) (r : RangeState) :
    (∃ bits r', RefineAt v k r bits r') ∨ ∃ info, RefineFails v k r info := by
  rcases Nat.eq_zero_or_pos k with h0 | h1
  · exact .inl ⟨0, r, .inl ⟨h0, rfl, rfl⟩⟩
  rcases Nat.lt_or_ge 16 k with h17 | h16
  · rcases bitsAt_or_bitsFail v 16 r with ⟨lo, r₁, hlo⟩ | ⟨info, hlo⟩
    · rcases bitsAt_or_bitsFail v (k - 16) r₁ with ⟨hi, r', hhi⟩ | ⟨info, hhi⟩
      · exact .inl ⟨_, r', .inr (.inr ⟨h17, lo, hi, r₁, hlo, hhi, rfl⟩)⟩
      · exact .inr ⟨info, .inr ⟨h17, .inr ⟨lo, r₁, hlo, hhi⟩⟩⟩
    · exact .inr ⟨info, .inr ⟨h17, .inl hlo⟩⟩
  · rcases bitsAt_or_bitsFail v k r with ⟨bits, r', hbits⟩ | ⟨info, hbits⟩
    · exact .inl ⟨bits, r', .inr (.inl ⟨h1, h16, hbits⟩)⟩
    · exact .inr ⟨info, .inl ⟨h1, h16, hbits⟩⟩

include hp in
theorem valueAt_or_valueFails (v : View) (k : Nat) (r : RangeState) :
    (∃ x r', ValueAt p v k r x r') ∨ ∃ info, ValueFails p v k r info := by
  rcases countAt_or_countFails hp v k r with ⟨n, r₁, hcount, hlt⟩ | ⟨info, hcount⟩
  · rcases refineAt_or_refineFails v k r₁ with ⟨bits, r', hbits⟩ | ⟨info, hbits⟩
    · exact .inl ⟨_, r', n, bits, r₁, hcount, hlt, hbits, rfl⟩
    · exact .inr ⟨info, .inr ⟨n, r₁, hcount, hlt, hbits⟩⟩
  · exact .inr ⟨info, .inl hcount⟩

/-! ## The errors are 1, 2 and 3 -/

theorem BitsFail.info_bounds {n info : Nat} (h : BitsFail v n r info) : 1 ≤ info ∧ info ≤ 3 := by
  rcases h with ⟨-, rfl⟩ | ⟨-, -, rfl⟩ <;> decide

theorem SymbolFails.info_bounds {info : Nat} (h : SymbolFails p v r info) : 1 ≤ info ∧ info ≤ 3 := by
  rcases h with ⟨-, rfl⟩ | ⟨-, -, rfl⟩ <;> decide

theorem ValueFails.info_bounds {k info : Nat} (h : ValueFails p v k r info) : 1 ≤ info ∧ info ≤ 3 := by
  rcases h with ⟨n, r₁, -, ⟨-, hs⟩ | ⟨y, r', -, -, rfl⟩⟩ |
    ⟨ovf, r₁, -, -, ⟨-, -, hb⟩ | ⟨-, hb | ⟨lo, r₂, -, hb⟩⟩⟩
  · exact SymbolFails.info_bounds hs
  · decide
  · exact BitsFail.info_bounds hb
  · exact BitsFail.info_bounds hb
  · exact BitsFail.info_bounds hb

end

/-- Settles O24: the relations are total, and `RC_VALUE` answers what they give. -/
theorem rcValueAlwaysEnds : Obligations.RcValueAlwaysEnds := by
  intro s k hinv hp hr hk
  obtain ⟨-, hvalue, hfails⟩ := rcValueDecodesCountThenBits s k hinv hp hr hk
  rcases valueAt_or_valueFails hinv.1 s.view k s.rc with ⟨x, r, hx⟩ | ⟨info, hx⟩
  · obtain ⟨hv, hrange⟩ := decoder_of_open hinv hp hr
    have hlt := (rcValue_ok hinv.1 hv (hk.trans hinv.1.kMax_le) hrange (rcValue_of_valueAt hinv.1 hv hrange hx)).1
    exact .inl ⟨x, r, hx, hlt, hvalue x r hx⟩
  · obtain ⟨t, ht, hraised⟩ := hfails info hx
    obtain ⟨h1, h3⟩ := ValueFails.info_bounds hx
    exact .inr ⟨info, t, hx, h1, h3, ht, hraised⟩

end Sys2Proof.Machine
end

section
/-! No lookahead (41_range_decoder.md R142): a decode that completes depends on the view bytes before its last position
and on no other. -/

namespace Sys2Proof.Machine

/-- The view bytes that `v` has inside the window before bit position `q` are inside `v'` and the same. -/
def AgreeUpTo (v v' : View) (q : Nat) : Prop :=
  ∀ j, 8 * j < q → insideWindow v j = true → insideWindow v' j = true ∧ viewByte v' j = viewByte v j

theorem AgreeUpTo.mono {v v' : View} {p q : Nat} (h : AgreeUpTo v v' q) (hpq : p ≤ q) : AgreeUpTo v v' p :=
  fun j hj => h j (by omega)

section
variable {v v' : View} {p n q : Nat} (hq : p + n ≤ q) (h : AgreeUpTo v v' q)
include hq h

theorem streamDefined_of_agree (hd : streamDefined v p n = true) : streamDefined v' p n = true := by
  rw [streamDefined_iff] at hd ⊢
  exact fun t h1 h2 => (h _ (by omega) (hd t h1 h2)).1

theorem streamBits_of_agree (hd : streamDefined v p n = true) : streamBits v' p n = streamBits v p n :=
  streamBits_congr fun t h1 h2 => (h _ (by omega) ((streamDefined_iff v p n).1 hd t h1 h2)).2

end

/-- From position `p` on, with `pos` the position a result stands at: if `x` completes, it has moved forward, and `x'`,
the same computation on the view `v'`, gives the same result if the views agree up to there. -/
def NoLookahead {α : Type} (v v' : View) (pos : α → Nat) (p : Nat) (x x' : Except Err α) : Prop :=
  ∀ a, x = .ok a → p ≤ pos a ∧ (AgreeUpTo v v' (pos a) → x' = .ok a)

section
variable {α β : Type} {v v' : View} {pos : α → Nat} {pos' : β → Nat} {p : Nat}

theorem noLookahead_ok {a : α} (h : p ≤ pos a) : NoLookahead v v' pos p (.ok a) (.ok a) :=
  fun _ ha => by cases ha; exact ⟨h, fun _ => rfl⟩

theorem noLookahead_error (e : Err) (x' : Except Err α) : NoLookahead v v' pos p (.error e) x' := fun _ ha => nomatch ha

theorem noLookahead_ite {c : Prop} [Decidable c] {x x' y y' : Except Err α} (hx : c → NoLookahead v v' pos p x x')
    (hy : ¬ c → NoLookahead v v' pos p y y') :
    NoLookahead v v' pos p (if c then x else y) (if c then x' else y') := by
  split
  · exact hx ‹_›
  · exact hy ‹_›

/-- The first computation's bytes come before the second's. -/
theorem noLookahead_bind {x x' : Except Err α} {f f' : α → Except Err β} (hx : NoLookahead v v' pos p x x')
    (hf : ∀ a, NoLookahead v v' pos' (pos a) (f a) (f' a)) : NoLookahead v v' pos' p (x >>= f) (x' >>= f') := by
  intro b hb
  obtain ⟨a, ha, hb⟩ := bind_ok hb
  obtain ⟨hle, hsame⟩ := hx a ha
  obtain ⟨hle', hsame'⟩ := hf a b hb
  refine ⟨hle.trans hle', fun h => ?_⟩
  rw [hsame (h.mono hle'), ok_bind, hsame' h]

end

/-- The position of the range decoder's registers. -/
abbrev posOf (r : RangeState) : Nat := r.pos.toNat

/-- The position of the registers that stand beside a value. -/
abbrev posAfter (d : Nat × RangeState) : Nat := d.2.pos.toNat

section
variable {v v' : View} (hv : ViewShort v)
include hv

/-- `NextByte` reads the eight bits before the position it leaves (R131). -/
theorem nextByte_noLookahead (r : RangeState) : NoLookahead v v' posAfter (posOf r) (nextByte v r) (nextByte v' r) := by
  intro d hd
  cases hdef : streamDefined v r.pos.toNat 8 with
  | false => rw [nextByte_of_undefined hdef] at hd; cases hd
  | true =>
    rw [nextByte_of_defined hdef] at hd
    cases hd
    have hbound := pos_bound hdef (by decide)
    have hpos : (natWord (r.pos.toNat + 8)).toNat = r.pos.toNat + 8 := natWord_toNat_of_lt (by
      simp only [ViewShort] at hv; omega)
    simp only [posOf, posAfter, hpos]
    refine ⟨by omega, fun h => ?_⟩
    rw [nextByte_of_defined (streamDefined_of_agree (Nat.le_refl _) h hdef),
      streamBits_of_agree (Nat.le_refl _) h hdef]

theorem rcNormLoop_noLookahead (fuel : Nat) (r : RangeState) :
    NoLookahead v v' posOf (posOf r) (rcNormLoop v fuel r) (rcNormLoop v' fuel r) := by
  induction fuel generalizing r with
  | zero => exact noLookahead_ite (fun _ => noLookahead_error _ _) fun _ => noLookahead_ok (Nat.le_refl _)
  | succ fuel ih =>
    exact noLookahead_ite (fun _ => noLookahead_bind (nextByte_noLookahead hv r) fun d => ih _)
      fun _ => noLookahead_ok (Nat.le_refl _)

theorem rcNorm_noLookahead (r : RangeState) : NoLookahead v v' posOf (posOf r) (rcNorm v r) (rcNorm v' r) :=
  rcNormLoop_noLookahead hv 3 r

theorem rcBits_noLookahead (n : Nat) (r : RangeState) :
    NoLookahead v v' posAfter (posOf r) (rcBits v n r) (rcBits v' n r) :=
  noLookahead_bind (rcNorm_noLookahead hv r) fun _ =>
    noLookahead_ite (fun _ => noLookahead_error _ _) fun _ => noLookahead_ok (Nat.le_refl _)

theorem rcSym_noLookahead (p : Config) (r : RangeState) :
    NoLookahead v v' posAfter (posOf r) (rcSym p v r) (rcSym p v' r) :=
  noLookahead_bind (rcNorm_noLookahead hv r) fun _ => noLookahead_ite (fun _ => noLookahead_error _ _) fun _ => by
    split
    · exact noLookahead_ok (Nat.le_refl _)
    · exact noLookahead_error _ _

theorem rcOverflow_noLookahead (p : Config) (k fuel ovf : Nat) (r : RangeState) :
    NoLookahead v v' posAfter (posOf r) (rcOverflow p v k fuel ovf r) (rcOverflow p v' k fuel ovf r) := by
  induction fuel generalizing ovf r with
  | zero => exact noLookahead_error _ _
  | succ fuel ih =>
    exact noLookahead_bind (rcSym_noLookahead hv p r) fun _ => noLookahead_ite (fun _ => noLookahead_error _ _) fun _ =>
      noLookahead_ite (fun _ => ih _ _) fun _ => noLookahead_ok (Nat.le_refl _)

theorem rcRefine_noLookahead (k : Nat) (r : RangeState) :
    NoLookahead v v' posAfter (posOf r) (rcRefine v k r) (rcRefine v' k r) :=
  noLookahead_ite (fun _ => noLookahead_ok (Nat.le_refl _)) fun _ =>
    noLookahead_ite (fun _ => rcBits_noLookahead hv k r) fun _ =>
      noLookahead_bind (rcBits_noLookahead hv 16 r) fun _ =>
        noLookahead_bind (rcBits_noLookahead hv (k - 16) _) fun _ => noLookahead_ok (Nat.le_refl _)

theorem rcValue_noLookahead (p : Config) (k : Nat) (r : RangeState) :
    NoLookahead v v' posAfter (posOf r) (rcValue p v k r) (rcValue p v' k r) :=
  noLookahead_bind (rcOverflow_noLookahead hv p k _ 0 r) fun _ =>
    noLookahead_bind (rcRefine_noLookahead hv k _) fun _ => noLookahead_ok (Nat.le_refl _)

end

/-! ## The operations -/

/-- `s` with another window. -/
def withWindow (w : Memory 8) (len : Word) (s : State) : State :=
  { s with win := w, regs := { s.regs with winLen := len } }

section
variable (w : Memory 8) (len : Word) (s : State)

/-- No check of R87 reads the window. -/
theorem specLegal_withWindow (i : Instr) : Spec.Legal (withWindow w len s) i ↔ Spec.Legal s i := by
  cases i <;> exact Iff.rfl

theorem withWindow_setChan (c : Nat) (ch : Chan) :
    withWindow w len (s.setChan c ch) = (withWindow w len s).setChan c ch := by
  unfold State.setChan; split <;> rfl

theorem withWindow_setK (e k : Nat) : withWindow w len (s.setK e k) = (withWindow w len s).setK e k :=
  withWindow_setChan w len s e _

theorem withWindow_setSample (c : Nat) (x : Word) :
    withWindow w len (s.setSample c x) = (withWindow w len s).setSample c x :=
  withWindow_setChan w len s c _

theorem withWindow_afterEntRes (c x : Nat) (r : RangeState) :
    withWindow w len (afterEntRes c x r s) = afterEntRes c x r (withWindow w len s) := by
  rw [afterEntRes, withWindow_setSample, withWindow_setK]
  rfl

end

theorem afterEntRes_rc (c x : Nat) (r : RangeState) (s : State) : (afterEntRes c x r s).rc = r := by
  simp [afterEntRes, setSample_eq, setK_eq]

/-- A decode that completes does the same from any window that agrees up to the position it leaves. -/
theorem body_withWindow {i : Instr} {s t : State} {w : Memory 8} {len : Word} (hv : ViewShort s.view)
    (hi : i = .rcNorm ∨ (∃ n, i = .rcBits n) ∨ i = .rcSym ∨ (∃ k, i = .rcValue k) ∨ ∃ c, i = .entRes c)
    (h : body i s = .ok t) (hagree : AgreeUpTo s.view ⟨w, len.toNat⟩ t.rc.pos.toNat) :
    body i (withWindow w len s) = .ok (withWindow w len t) := by
  obtain rfl | ⟨n, rfl⟩ | rfl | ⟨k, rfl⟩ | ⟨c, rfl⟩ := hi
  · obtain ⟨r, hr, h⟩ := bind_ok h
    cases h
    exact opRcNorm_of_ok ((rcNorm_noLookahead hv s.rc r hr).2 hagree)
  · obtain ⟨d, hd, h⟩ := bind_ok h
    cases h
    exact opRcBits_of_ok ((rcBits_noLookahead hv n s.rc d hd).2 hagree)
  · obtain ⟨d, hd, h⟩ := bind_ok h
    cases h
    exact opRcSym_of_ok ((rcSym_noLookahead hv s.cfg s.rc d hd).2 hagree)
  · obtain ⟨d, hd, h⟩ := bind_ok h
    cases h
    exact opRcValue_of_ok ((rcValue_noLookahead hv s.cfg k s.rc d hd).2 hagree)
  · obtain ⟨x, r, hx, rfl⟩ := opEntRes_ok h
    rw [afterEntRes_rc] at hagree
    rw [withWindow_afterEntRes]
    exact opEntRes_of_ok ((rcValue_noLookahead hv s.cfg _ s.rc (x, r) hx).2 hagree)

/-- Settles O27: `NextByte` is the only access to the window, and it ends at the position it leaves. -/
theorem decoderReadsNoByteBeyondItsPosition : Obligations.DecoderReadsNoByteBeyondItsPosition := by
  intro i s t w len hi hinv hp h ht hagree
  have hreset : i ≠ .sreset := by
    obtain rfl | ⟨n, rfl⟩ | rfl | ⟨k, rfl⟩ | ⟨c, rfl⟩ := hi <;> simp
  obtain ⟨-, hlegal, hbody⟩ := completes_of_exec hreset h ht
  exact exec_of_body_ok (s := withWindow w len s) hreset hp ((specLegal_withWindow w len s i).2 hlegal)
    (body_withWindow (viewShort_of_open ⟨hinv, hp⟩) hi hbody hagree)

end Sys2Proof.Machine
end

section
/-! What the range decoder operations keep: the invariant R140 and everything outside "State written" of R132 to R137
(41_range_decoder.md). -/

namespace Sys2Proof.Machine

open Sys2Proof.Spec

/-! ## The invariant R140 -/

/-- A legal operation that completes with an open frame keeps its invariant. -/
theorem openInv_body {i : Instr} {s t : State} (h : s.Inv) (hp : s.phase ≠ .err) (hl : Spec.Legal s i)
    (hb : body i s = .ok t) (ht : t.phase = .opened) : OpenInv t := by
  cases i with
  | nop => cases hb; exact ⟨h, ht⟩
  | sreset => cases hb; cases ht
  | frameStart => exact openInv_frameStart h hp hb
  | frame => have hdone := opFrame_phase hb; rw [ht] at hdone; cases hdone
  | rcInit => exact openInv_opRcInit ⟨h, hl.1⟩ hl.2 hb
  | rcNorm => exact openInv_opRcNorm ⟨h, hl.1⟩ hl.2 hb
  | rcBits n => exact openInv_opRcBits ⟨h, hl.1⟩ hl.2.2 hl.2.1 hb
  | rcSym => exact openInv_opRcSym ⟨h, hl.1⟩ hl.2 hb
  | rcValue k => exact openInv_opRcValue ⟨h, hl.1⟩ hl.2.2 hl.2.1 hb
  | entRes c => exact openInv_opEntRes ⟨h, hl.1⟩ hl.2.2 hb
  | nnfStep st c => exact openInv_opNnfStep ⟨h, hl.1⟩ hl.2.2 hb
  | predStep c => exact openInv_opPredStep ⟨h, hl.1⟩ hb
  | stereoStep => exact openInv_opStereoStep ⟨h, hl.1⟩ hb
  | emit => exact openInv_opEmit ⟨h, hl.1⟩ hl.2 hb

/-- Settles O28: the frame that is open after the operation meets the invariant, and `RcNorm` ends at `2^24` or more. -/
theorem rangeDecoderInvariantIsKept : Obligations.RangeDecoderInvariantIsKept := by
  intro i s t hinv h ht hr
  have hi : i ≠ .sreset := by rintro rfl; cases h; cases ht
  obtain ⟨hp, hl, hb⟩ := completes_of_exec hi h (by simp [ht])
  obtain ⟨hlow, h7⟩ := rangeOk_of_open (openInv_body hinv hp hl hb ht) hr
  refine ⟨hlow, h7, t.rc.range.isLt, ?_⟩
  rintro rfl
  have hopen : OpenInv s := ⟨hinv, hl.1⟩
  obtain ⟨r, hnorm, hb⟩ := bind_ok hb
  cases hb
  exact (rcNorm_ok (viewShort_of_open hopen) (rangeOk_of_open hopen hl.2) hnorm).1

/-! ## The frame of each operation -/

section
variable (s : State) (c d : Nat)

theorem setSample_chan (x : Word) :
    ((s.setSample c x).chan d).nnf = (s.chan d).nnf ∧ ((s.setSample c x).chan d).pred = (s.chan d).pred ∧
      ((s.setSample c x).chan d).k = (s.chan d).k := by
  unfold State.setSample State.setChan State.chan
  split_ifs <;> exact ⟨rfl, rfl, rfl⟩

theorem setK_chan (k : Nat) :
    ((s.setK c k).chan d).nnf = (s.chan d).nnf ∧ ((s.setK c k).chan d).pred = (s.chan d).pred ∧
      ((s.setK c k).chan d).sample = (s.chan d).sample := by
  unfold State.setK State.setChan State.chan
  split_ifs <;> exact ⟨rfl, rfl, rfl⟩

/-- Of the channels only `S[c]` and `K[e]` are written. -/
theorem setK_setSample_chan {c d e : Nat} (hc : c < 2) (hd : d < 2) (he : e < 2) (k : Nat) (x : Word) :
    (((s.setK e k).setSample c x).chan d).nnf = (s.chan d).nnf ∧
      (((s.setK e k).setSample c x).chan d).pred = (s.chan d).pred ∧
      (d ≠ c → (((s.setK e k).setSample c x).chan d).sample = (s.chan d).sample) ∧
      (d ≠ e → (((s.setK e k).setSample c x).chan d).k = (s.chan d).k) := by
  obtain ⟨hnnf, hpred, hk⟩ := setSample_chan (s.setK e k) c d x
  obtain ⟨hnnf', hpred', hsample⟩ := setK_chan s e d k
  refine ⟨hnnf.trans hnnf', hpred.trans hpred', fun hne => ?_, fun hne => ?_⟩
  · rw [setSample_eq, chan_setChan_of_ne _ _ _ hc hd hne, hsample]
  · rw [hk, setK_eq, chan_setChan_of_ne _ _ _ he hd hne]

end

theorem sameMemory_of_eq {s t : State} (hwin : t.win = s.win) (hout : t.out = s.out) : SameMemory s t :=
  ⟨fun _ => by rw [hwin], fun _ => by rw [hout]⟩

/-- `ENT_RES c` writes `S[c]` and `K[e]` of the channels (R137). -/
theorem afterEntRes_chan {c d : Nat} (hc : c < 2) (hd : d < 2) (x : Nat) (r : RangeState) (s : State) :
    ((afterEntRes c x r s).chan d).nnf = (s.chan d).nnf ∧ ((afterEntRes c x r s).chan d).pred = (s.chan d).pred ∧
      (d ≠ c → ((afterEntRes c x r s).chan d).sample = (s.chan d).sample) ∧
      (d ≠ kIndex s.cfg c → ((afterEntRes c x r s).chan d).k = (s.chan d).k) := by
  have he : kIndex s.cfg c < 2 := by unfold kIndex; split <;> omega
  exact setK_setSample_chan { s with rc := r, res := natWord x } hc hd he _ _

theorem onlyDatapath_afterEntRes (c x : Nat) (r : RangeState) (s : State) : OnlyDatapath s (afterEntRes c x r s) := by
  have hres : OnlyDatapath s { s with rc := r, res := natWord x } := rfl
  exact (hres.trans (onlyDatapath_setChan _ _ _)).trans (onlyDatapath_setChan _ _ _)

/-- Settles O29: what each operation writes is read off its pseudocode. -/
theorem rangeDecoderOperationsFrame : Obligations.RangeDecoderOperationsFrame := by
  intro s t hp ht
  refine ⟨fun h => ?_, fun h => ?_, fun n h => ?_, fun h => ?_, fun k h => ?_, fun c h => ?_⟩
  case refine_6 =>
    -- `ENT_RES c`
    obtain ⟨-, hl, hb⟩ := completes_of_exec (by simp) h ht
    have hc : c < 2 := hl.2.1.trans_le (ncoded_le_two s)
    obtain ⟨x, r, -, rfl⟩ := opEntRes_ok hb
    have ho := onlyDatapath_afterEntRes c x r s
    exact ⟨ho, sameMemory_of_eq (by rw [ho]) ho.out, fun d hd => afterEntRes_chan hc hd x r s⟩
  -- the others write registers by name
  all_goals
    obtain ⟨-, -, hb⟩ := completes_of_exec (by simp) h ht
    obtain ⟨r, -, hb⟩ := bind_ok hb
    cases hb
    exact ⟨rfl, sameMemory_of_eq rfl rfl⟩

end Sys2Proof.Machine
end

section
/-! The NNFilter bank (42_nnfilter.md R161 to R164): one sample through one stage, the width of its accumulator, the
inverse of the forward stage; then what the three filter operations leave unchanged (R161, 43_predictor.md R181,
44_stereo_output.md R201). -/

namespace Sys2Proof.Machine

open Sys2Proof.Spec

/-! ## The width of the accumulator -/

/-- One product of a weight and a history entry has at most 46 bits (R162). -/
theorem abs_weight_mul_history_le (w : Half) (h : Word) : |w.toInt * h.toInt| ≤ 2 ^ 46 := by
  have hw : |w.toInt| ≤ 2 ^ 15 := abs_le.2 ⟨w.le_toInt, w.toInt_lt.le⟩
  have hh : |h.toInt| ≤ 2 ^ 31 := abs_le.2 ⟨h.le_toInt, h.toInt_lt.le⟩
  rw [abs_mul]
  exact mul_le_mul hw hh (abs_nonneg _) (by positivity)

/-- The sum grows by at most one product an entry. -/
theorem abs_dot_le : ∀ (w : List Half) (h : List Word),
    |dot (w.map BitVec.toInt) (h.map BitVec.toInt)| ≤ w.length * 2 ^ 46
  | [], _ => by simp [dot]
  | _ :: w, [] => by simp only [List.map_nil, List.map_cons, dot, abs_zero]; positivity
  | x :: w, y :: h => by
    have hsum := abs_add_le (x.toInt * y.toInt) (dot (w.map BitVec.toInt) (h.map BitVec.toInt))
    have hhead := abs_weight_mul_history_le x y
    have htail := abs_dot_le w h
    simp only [List.map_cons, dot, List.length_cons]
    push_cast
    omega

/-- At most 1024 products stay within 56 bits (R162). -/
theorem nnfAcc_bounds {q : Stage} (hw : q.w.length ≤ 1024) : -(2 : Int) ^ 56 ≤ nnfAcc q ∧ nnfAcc q ≤ (2 : Int) ^ 56 := by
  have h : |nnfAcc q| ≤ q.w.length * 2 ^ 46 := abs_dot_le q.w q.h
  exact abs_le.1 (by omega)

/-- Every row of a legal table meets R7. -/
theorem rowLegal_of_row {p : Config} (hp : p.Legal) {level : Nat} {row : List StageSpec}
    (h : p.nnfTable.row level = some row) : rowLegal row := by
  obtain ⟨h1, h2, h3, h4, h5, -⟩ := hp
  unfold NnfTable.row at h
  split_ifs at h <;> cases h <;> assumption

/-- The selected row meets R7, whatever `COMPRESSION_LEVEL` holds (R30). -/
theorem rowLegal_selected {s : State} (hp : s.cfg.Legal) : rowLegal s.row := by
  unfold State.row
  cases h : s.cfg.nnfTable.row s.regs.compressionLevel.toNat with
  | none => simp [rowLegal]
  | some row => exact rowLegal_of_row hp h

/-- A stage of a bank of the row's shape has the lengths of a stage of the row (R33). -/
theorem bankOk_mem {row : List StageSpec} {ch : Chan} (hb : BankOk row ch) {q : Stage} (hq : q ∈ ch.nnf) :
    ∃ g ∈ row, q.h.length = g.order ∧ q.w.length = g.order := by
  have hmem : (q.h.length, q.w.length) ∈ row.map fun g => (g.order, g.order) := hb ▸ List.mem_map_of_mem hq
  obtain ⟨g, hg, he⟩ := List.mem_map.1 hmem
  obtain ⟨hh, hw⟩ := Prod.mk.inj he
  exact ⟨g, hg, hh.symm, hw.symm⟩

/-- Settles O31: each product is below `2^46`, and a legal row has at most `2^10` of them. -/
theorem nnfAccumulatorStaysInRange : Obligations.NnfAccumulatorStaysInRange := by
  refine ⟨fun q hw _ => nnfAcc_bounds hw, fun s hinv hp c _ q hq => ?_⟩
  obtain ⟨g, hg, -, hw⟩ := bankOk_mem (chanOk_of_open ⟨hinv, hp⟩ c).2 hq
  obtain ⟨-, hstages⟩ := rowLegal_selected hinv.1
  obtain ⟨-, horder, -⟩ := hstages g hg
  exact nnfAcc_bounds (hw.trans_le horder)

/-! ## The inverse of the forward stage -/

/-- A weight that fits is stored exactly (R161). -/
theorem entry_stageAfter_w {g : StageSpec} {q : Stage} {x : Word} {j : Nat} (hj : j < g.order)
    (h : Fits 16 (stageWeight q x j)) : entry (stageAfter g q x).w j = stageWeight q x j := by
  have hget : (stageAfter g q x).w.getD j 0 = BitVec.ofInt 16 (stageWeight q x j) := by
    simp [stageAfter, List.getD_eq_getElem?_getD, hj]
  rw [entry, hget, toInt_ofInt_of_fits (by decide) (fitsSigned_iff.2 h)]

/-- Settles O32: adding the prediction back gives `y`, which is an `i32`. -/
theorem nnfStageInvertsTheForwardStage : Obligations.NnfStageInvertsTheForwardStage := by
  intro g q st c x y hh hw hx hfits
  have hout : stageOut g q x = y.toInt := by rw [stageOut, hx, Int.sub_add_cancel]
  have hstored : BitVec.ofInt 32 (stageOut g q x) = y := by rw [hout, BitVec.ofInt_toInt]
  have hy : Fits 32 (stageOut g q x) := hout ▸ fitsSigned_iff.1 (fits_toInt y)
  refine ⟨stageAfter g q x, ?_, ?_, fun j hj => entry_stageAfter_w hj (hfits j hj)⟩
  · rw [nnfStage_eq hh hw, if_neg (not_not.2 hy), if_neg (not_not.2 hfits), hstored]
  · rw [stageAfter, hstored]

/-! ## `NNF_STEP` -/

/-- Channel `c` after a sample `y` that leaves stage `st` at `q` (R161). -/
def afterNnfStep (st c : Nat) (y : Word) (q : Stage) (s : State) : State :=
  s.setChan c { s.chan c with sample := y, nnf := (s.chan c).nnf.set st q }

/-- `NNF_STEP st, c` is its stage's computation, written back to `S[c]` and the stage (R161). -/
theorem opNnfStep_eq (st c : Nat) (s : State) :
    opNnfStep st c s =
      (nnfStage (s.row[st]?.getD ⟨0, 0⟩) st c (s.chan c).sample ((s.chan c).nnf[st]?.getD ⟨[], []⟩) >>= fun r =>
        .ok (afterNnfStep st c r.1 r.2 s)) := by
  simp [opNnfStep, nnfStep, bind_assoc, setSample_eq, afterNnfStep]

/-- Settles O30: the stage's closed form, branch by branch. -/
theorem nnfStepFiltersOneSample : Obligations.NnfStepFiltersOneSample := by
  intro s st c g q hinv hp hc hg hq x
  obtain ⟨q₀, hq₀, hh, hw⟩ := bankOk_get (chanOk_of_open ⟨hinv, hp⟩ c).2 hg
  obtain rfl : q₀ = q := Option.some.inj (hq₀.symm.trans hq)
  have hlegal : Spec.Legal s (.nnfStep st c) := ⟨hp, hc, (List.getElem?_eq_some_iff.1 hg).1⟩
  have hbody : body (.nnfStep st c) s = (nnfStage g st c x q₀ >>= fun r => .ok (afterNnfStep st c r.1 r.2 s)) := by
    rw [body, opNnfStep_eq, hg, hq]
    rfl
  rw [nnfStage_eq hh hw] at hbody
  refine ⟨?_, fun hy hfits => ?_, fun hy => ?_, fun hy hfits => ?_⟩
  · rw [encode_of_opcode 0x20 0x20000000 rfl rfl, operandBits, Nat.mul_comm, Nat.add_assoc]
  · rw [if_neg (not_not.2 hy), if_neg (not_not.2 hfits)] at hbody
    exact exec_of_body_ok (by simp) hp hlegal hbody
  · rw [if_pos hy] at hbody
    exact exec_raises_of_body_error (by simp) hp hlegal hbody
  · rw [if_neg (not_not.2 hy), if_pos hfits] at hbody
    exact exec_raises_of_body_error (by simp) hp hlegal hbody

/-! ## The frame of the filter operations -/

theorem opNnfStep_ok {st c : Nat} {s t : State} (h : opNnfStep st c s = .ok t) :
    ∃ y q, t = afterNnfStep st c y q s := by
  obtain ⟨⟨y, q⟩, -, h⟩ := bind_ok ((opNnfStep_eq st c s).symm.trans h)
  cases h
  exact ⟨y, q, rfl⟩

theorem opPredStep_ok {c : Nat} {s t : State} (h : opPredStep c s = .ok t) :
    ∃ z q, t = s.setChan c { s.chan c with sample := z, pred := q } := by
  obtain ⟨⟨z, u⟩, hu, h⟩ := bind_ok h
  obtain ⟨q, -, rfl⟩ := predStep_ok hu
  cases h
  exact ⟨z, q, by simp [setSample_eq]⟩

/-- Replacing a channel touches neither memory. -/
theorem sameMemory_setChan (s : State) (c : Nat) (ch : Chan) : SameMemory s (s.setChan c ch) :=
  sameMemory_of_eq (setChan_win s c ch) (setChan_out s c ch)

/-- Settles O37: each operation replaces the parts of the channels its pseudocode names. -/
theorem filterOperationsFrame : Obligations.FilterOperationsFrame := by
  intro s t _ ht
  refine ⟨fun st c h => ?_, fun c h => ?_, fun h => ?_⟩
  · obtain ⟨-, -, hb⟩ := completes_of_exec (by simp) h ht
    obtain ⟨y, q, rfl⟩ := opNnfStep_ok hb
    refine ⟨by simp [afterNnfStep], fun j hj => ?_, sameMemory_setChan s c _⟩
    simp [afterNnfStep, List.getElem?_set_ne hj.symm]
  · obtain ⟨-, -, hb⟩ := completes_of_exec (by simp) h ht
    obtain ⟨z, q, rfl⟩ := opPredStep_ok hb
    exact ⟨by simp, sameMemory_setChan s c _⟩
  · obtain ⟨-, -, hb⟩ := completes_of_exec (by simp) h ht
    obtain ⟨⟨l, r⟩, -, hb⟩ := bind_ok hb
    cases hb
    exact ⟨rfl, sameMemory_of_eq rfl rfl⟩

end Sys2Proof.Machine
end

section
/-! The predictor (43_predictor.md R181, R184): one sample through a channel's predictor, and the inverse of the forward
predictor. -/

namespace Sys2Proof.Machine

open Sys2Proof.Spec

/-! ## The inverse of the forward predictor -/

/-- A computed coefficient that fits is stored exactly (R181). -/
theorem entry_map_range_ofInt {n i : Nat} {f : Nat → Int} (hi : i < n) (h : Fits 32 (f i)) :
    entry ((List.range n).map fun k => BitVec.ofInt 32 (f k)) i = f i := by
  have hget : ((List.range n).map fun k => BitVec.ofInt 32 (f k)).getD i 0 = BitVec.ofInt 32 (f i) := by
    simp [List.getD_eq_getElem?_getD, hi]
  rw [entry, hget, toInt_ofInt_of_fits (by decide) (fitsSigned_iff.2 h)]

/-- Settles O34: adding the prediction back gives `z`, which is an `i32`. -/
theorem predictorInvertsTheForwardPredictor : Obligations.PredictorInvertsTheForwardPredictor := by
  intro p q c y z ha hz hb hy hacc hyz hfits
  have hout : predOut p q y = z.toInt := by rw [predOut, hyz, Int.sub_add_cancel]
  have hstored : BitVec.ofInt 32 (predOut p q y) = z := by rw [hout, BitVec.ofInt_toInt]
  have hzfits : Fits 32 (predOut p q y) := hout ▸ fitsSigned_iff.1 (fits_toInt z)
  have ⟨hA, hB⟩ := hfits
  refine ⟨predAfter p q y, ?_, rfl, ?_, fun i hi => entry_map_range_ofInt hi (hA i hi),
    fun j hj => entry_map_range_ofInt hj (hB j hj)⟩
  · rw [predStage_eq ha hb hy hz, if_neg (not_not.2 hacc), if_neg (not_not.2 hzfits), if_neg (not_not.2 hfits), hstored]
  · rw [predAfter, hstored]

/-! ## `PRED_STEP` -/

/-- Channel `c` after an output `z` that leaves its predictor at `q` (R181). -/
def afterPredStep (c : Nat) (z : Word) (q : Predictor) (s : State) : State :=
  s.setChan c { s.chan c with sample := z, pred := q }

/-- `PRED_STEP c` is the channel's computation, written back to `S[c]` and the predictor (R181). -/
theorem opPredStep_eq (c : Nat) (s : State) :
    opPredStep c s =
      (predStage s.cfg c (s.chan c).sample (s.chan c).pred >>= fun r => .ok (afterPredStep c r.1 r.2 s)) := by
  simp [opPredStep, predStep, bind_assoc, setSample_eq, afterPredStep]

/-- Settles O33: the predictor's closed form, branch by branch. -/
theorem predStepPredictsOneSample : Obligations.PredStepPredictsOneSample := by
  intro s c hinv hp hc q y
  obtain ⟨-, ha, hb, hy, hz⟩ := (chanOk_of_open ⟨hinv, hp⟩ c).1
  have hlegal : Spec.Legal s (.predStep c) := ⟨hp, hc⟩
  have hbody : body (.predStep c) s = (predStage s.cfg c y q >>= fun r => .ok (afterPredStep c r.1 r.2 s)) :=
    opPredStep_eq c s
  rw [predStage_eq ha hb hy hz] at hbody
  refine ⟨encode_of_opcode 0x30 0x30000000 rfl rfl, fun hacc hout hfits => ?_, fun hacc => ?_, fun hacc hout => ?_,
    fun hacc hout hfits => ?_⟩
  · rw [if_neg (not_not.2 hacc), if_neg (not_not.2 hout), if_neg (not_not.2 hfits)] at hbody
    exact exec_of_body_ok (by simp) hp hlegal hbody
  · rw [if_pos hacc] at hbody
    exact exec_raises_of_body_error (by simp) hp hlegal hbody
  · rw [if_neg (not_not.2 hacc), if_pos hout] at hbody
    exact exec_raises_of_body_error (by simp) hp hlegal hbody
  · rw [if_neg (not_not.2 hacc), if_neg (not_not.2 hout), if_pos hfits] at hbody
    exact exec_raises_of_body_error (by simp) hp hlegal hbody

end Sys2Proof.Machine
end

section
/-! The stereo decorrelator and `EMIT` (44_stereo_output.md R200 to R203). -/

namespace Sys2Proof.Machine

open Sys2Proof.Spec

/-- An operation of an open frame that fails a check of R87 raises `IllegalCommand` with its word (R223). -/
theorem exec_raises_of_illegal {i : Instr} {s : State} {w : Word} (hp : s.phase = .opened) (hl : ¬ Spec.Legal s i)
    (hw : encode i = w) : ∃ t, exec i s = .next t ∧ Raised s t .illegalCommand w :=
  hw ▸ illegalOperationsRaiseIllegalCommand i s (by simp [hp]) hl

/-! ## `STEREO_STEP` -/

/-- `Stereo` in the spec's terms: both results are `i32` values, or it overflows at site 6 (R200, R222). -/
theorem stereo_eq_spec (x y : Word) :
    stereo x y =
      if Fits 32 (stereoRight x y) ∧ Fits 32 (stereoLeft x y) then
        .ok (BitVec.ofInt 32 (stereoLeft x y), BitVec.ofInt 32 (stereoRight x y))
      else .error (arithmeticOverflow 6 0 0) := by
  have hright : x.toInt - sar y.toInt 1 = stereoRight x y := by rw [sar_eq_fdiv]; rfl
  rw [stereo_eq, hright]
  simp only [Bool.and_eq_true, fitsSigned_iff]
  rfl

/-- Settles O36: taking `floor(Y / 2)` from `X` gives `right` back, and adding `Y` to that gives `left`. -/
theorem stereoInvertsMidSide : Obligations.StereoInvertsMidSide := by
  intro left right x y hy hx
  have hright : stereoRight x y = right.toInt := by rw [stereoRight, hx, Int.add_sub_cancel]
  have hleft : stereoLeft x y = left.toInt := by rw [stereoLeft, hright, hy, add_sub_cancel]
  have hfits (w : Word) : Fits 32 w.toInt := fitsSigned_iff.1 (fits_toInt w)
  rw [stereo_eq_spec, hright, hleft, if_pos ⟨hfits right, hfits left⟩, BitVec.ofInt_toInt, BitVec.ofInt_toInt]

/-- Settles O35: the closed form of `Stereo`, branch by branch; in any other frame `STEREO_STEP` is illegal. -/
theorem stereoStepDecorrelates : Obligations.StereoStepDecorrelates := by
  have hword : encode .stereoStep = 0x40000000#32 := by decide
  refine ⟨hword, fun s hp => ?_⟩
  intro x y
  refine ⟨fun hch hf => ?_, fun hbad => ?_⟩
  · have hlegal : Spec.Legal s .stereoStep := ⟨hp, hch, hf⟩
    have hbody : body .stereoStep s = stereo x y >>= fun w => .ok ((s.setSample 0 w.1).setSample 1 w.2) := rfl
    rw [stereo_eq_spec] at hbody
    refine ⟨fun hright hleft => ?_, fun hover => ?_⟩
    · rw [if_pos ⟨hright, hleft⟩] at hbody
      exact exec_of_body_ok (by simp) hp hlegal hbody
    · rw [if_neg hover] at hbody
      exact exec_raises_of_body_error (by simp) hp hlegal hbody
  · have hillegal : ¬ Spec.Legal s .stereoStep := fun ⟨_, hch, hf⟩ => by simp [hch, hf] at hbad
    exact exec_raises_of_illegal hp hillegal hword

/-! ## `EMIT` -/

/-- The words of `OUT` after `EMIT` in a frame of one channel (R203). -/
theorem outWord_emitOut_one {s : State} (h1 : s.regs.channels = 1) (i : Nat) :
    outWord (emitOut s) i = if i = s.bidx.toNat then s.ch0.sample else outWord s.out i := by
  rw [emitOut, if_pos h1, outWord_write]

/-- The words of `OUT` after `EMIT` in a frame of two channels (R202, R203). -/
theorem outWord_emitOut_two {s : State} (h2 : s.regs.channels = 2) (i : Nat) :
    outWord (emitOut s) i =
      if i = 2 * s.bidx.toNat then s.ch0.sample
      else if i = 2 * s.bidx.toNat + 1 then (if s.fstereo = true then s.ch0.sample else s.ch1.sample)
      else outWord s.out i := by
  rw [emitOut, if_neg (by simp [h2]), outWord_write, outWord_write]
  by_cases hi : i = 2 * s.bidx.toNat
  · rw [if_neg (by omega), if_pos hi, if_pos hi]
  · rw [if_neg hi, if_neg hi]

theorem natWord_toNat_add_one (x : Word) : natWord (x.toNat + 1) = x + 1 := by
  rw [natWord, BitVec.ofNat_add, BitVec.ofNat_toNat, BitVec.setWidth_eq]
  rfl

/-- Settles O38: `EMIT` answers `emitted`, whose words are those of `emitOut`; past the last block it is illegal. -/
theorem emitWritesTheBlock : Obligations.EmitWritesTheBlock := by
  have hword : encode .emit = 0x41000000#32 := by decide
  refine ⟨hword, fun s _ hp => ⟨fun hb => ?_, fun hb => ?_⟩⟩
  · have hlt := s.regs.nblocks.isLt
    have hnext : (natWord (s.bidx.toNat + 1)).toNat = s.bidx.toNat + 1 := natWord_toNat_of_lt (by omega)
    have hlegal : Spec.Legal s .emit := ⟨hp, hb⟩
    refine ⟨emitted s, exec_of_body_ok (by simp) hp hlegal (opEmit_eq s), ?_, hnext, outWord_emitOut_one,
      outWord_emitOut_two⟩
    rw [emitted, natWord_toNat_add_one]
  · have hillegal : ¬ Spec.Legal s .emit := fun hl => hl.2.not_ge hb
    exact exec_raises_of_illegal hp hillegal hword

end Sys2Proof.Machine
end

section
/-! The two frames of `FRAME` that code fewer values than they write: silence and false stereo
(44_stereo_output.md R202, R204). -/

namespace Sys2Proof.Machine

open Sys2Proof.Spec

/-! ## Silence -/

/-- `t` is `s` with zeros in the first `n` words of `OUT` (R204). -/
structure Silenced (s : State) (n : Nat) (t : State) : Prop where
  rest : t = { s with out := t.out }
  words : ∀ i, outWord t.out i = if i < n then 0 else outWord s.out i

theorem Silenced.zero (s : State) : Silenced s 0 s := ⟨rfl, fun _ => rfl⟩

/-- One more word of silence. -/
theorem Silenced.succ {s t : State} {n : Nat} (h : Silenced s n t) : Silenced s (n + 1) (t.writeOut n 0) where
  rest := by rw [h.rest]; rfl
  words i := by
    rw [writeOut_out, outWord_write, h.words]
    by_cases hi : i = n
    · rw [if_pos hi, if_pos (by omega)]
    · rw [if_neg hi]
      exact if_congr (by omega) rfl rfl

/-- The pass of silence always completes (R117, R204). -/
theorem silencePass_completes (n : Nat) (s : State) : ∃ t, forUpTo n silenceWord s = .ok t ∧ Silenced s n t :=
  forUpTo_completes (Silenced s) (.zero s) fun m _ u hu => ⟨u.writeOut m 0, rfl, hu.succ⟩

/-- The body of `FRAME` in a silent frame (R117, R204). -/
theorem frameBody_of_silent {s : State} (hs : s.silent = true) :
    frameBody s = forUpTo (s.regs.nblocks.toNat * s.nch) silenceWord s := by
  rw [frameBody, if_pos hs]

/-- Settles O40: `FRAME_START` ends in the started state, which is silent, and the pass of silence completes. -/
theorem silentFrameDecodesToZeros : Obligations.SilentFrameDecodesToZeros := by
  intro s hp hstart hsilence
  have hstarted : frameStart s = .ok (started s) := by rw [frameStart_eq, hstart, outcomeOf_none]
  have hsilent : (started s).silent = true := decide_eq_true hsilence
  obtain ⟨u, hu, hrest, hwords⟩ := silencePass_completes (s.regs.nblocks.toNat * s.nch) (started s)
  have hframe : opFrame s = .ok { u with bidx := u.regs.nblocks, phase := .done } := by
    rw [opFrame, hstarted, ok_bind, frameBody_of_silent hsilent]
    exact congrArg (· >>= _) hu
  refine ⟨{ u with bidx := u.regs.nblocks, phase := .done }, by rw [exec_frame hp, hframe, settle_ok], ?_, hwords⟩
  exact congrArg (fun t : State => { t with bidx := t.regs.nblocks, phase := .done }) hrest

/-! ## False stereo -/

/-- `t` differs from `s` in the decode state at most, and not in channel 1. -/
structure OnlyChannelZero (s t : State) : Prop extends OnlyDecode s t where
  ch1 : t.ch1 = s.ch1

theorem OnlyChannelZero.refl (s : State) : OnlyChannelZero s s := ⟨.refl s, rfl⟩

theorem OnlyChannelZero.trans {s t u : State} (h : OnlyChannelZero s t) (g : OnlyChannelZero t u) :
    OnlyChannelZero s u := ⟨h.toOnlyDecode.trans g.toOnlyDecode, g.ch1.trans h.ch1⟩

theorem onlyChannelZero_forUpTo {f : Nat → State → Except Err State} {n : Nat} {s t : State}
    (h : forUpTo n f s = .ok t) (hf : ∀ i a b, OnlyDecode s a → f i a = .ok b → OnlyChannelZero a b) :
    OnlyChannelZero s t :=
  forUpTo_induct (fun _ => OnlyChannelZero s) h (.refl s) fun i _ a b ha hb =>
    ha.trans (hf i a b ha.toOnlyDecode hb)

/-- A loop over the coded channels is its one iteration when only channel 0 is coded. -/
theorem forUpTo_one (f : Nat → State → Except Err State) (s : State) : forUpTo 1 f s = f 0 s := rfl

theorem pastResidual_zero_ch1 (d : Nat × RangeState) (s : State) : (pastResidual 0 d s).ch1 = s.ch1 := by
  have hk : kIndex s.cfg 0 = 0 := by unfold kIndex; split <;> rfl
  rw [pastResidual, hk]
  rfl

theorem onlyChannelZero_entropyChannel {b : Nat} {s t : State} (h : entropyChannel b 0 s = .ok t) :
    OnlyChannelZero s t := by
  refine ⟨onlyDecode_entropyChannel h, ?_⟩
  rw [entropyChannel_eq] at h
  obtain ⟨d, -, h⟩ := bind_ok h
  cases h
  exact pastResidual_zero_ch1 d s

theorem onlyChannelZero_filterBlock {b : Nat} {s t : State} (h : filterBlock 0 b s = .ok t) :
    OnlyChannelZero s t := by
  refine ⟨onlyDecode_filterBlock h, ?_⟩
  rw [filterBlock_eq] at h
  obtain ⟨f, -, h⟩ := bind_ok h
  cases h
  rfl

theorem onlyChannelZero_stereoBlock {b : Nat} {s t : State} (h : stereoBlock b s = .ok t) :
    OnlyChannelZero s t := by
  refine ⟨onlyDecode_stereoBlock h, ?_⟩
  rcases stereoBlock_ok h with ⟨-, rfl⟩ | ⟨-, -, rfl⟩ | ⟨-, -, l, r, -, rfl⟩ <;> rfl

/-- The body of `FRAME` leaves channel 1 alone in a frame that codes only channel 0 (R117, R202). -/
theorem onlyChannelZero_frameBody {s t : State} (hc : s.ncoded = 1) (h : frameBody s = .ok t) :
    OnlyChannelZero s t := by
  cases hs : s.silent with
  | true =>
    rw [frameBody_of_silent hs] at h
    refine onlyChannelZero_forUpTo h fun i a b _ hb => ?_
    cases hb
    exact ⟨onlyDecode_writeOut a i 0, rfl⟩
  | false =>
    obtain ⟨u, v, hentropy, hfilter, hstereo⟩ := frameBody_ok hs h
    have h1 : OnlyChannelZero s u := onlyChannelZero_forUpTo hentropy fun b x y hx hy => by
      rw [entropyBlock, hx.ncoded, hc, forUpTo_one] at hy
      exact onlyChannelZero_entropyChannel hy
    rw [h1.ncoded, hc, forUpTo_one] at hfilter
    have h2 : OnlyChannelZero u v := onlyChannelZero_forUpTo hfilter fun _ _ _ _ => onlyChannelZero_filterBlock
    exact (h1.trans h2).trans (onlyChannelZero_forUpTo hstereo fun _ _ _ _ => onlyChannelZero_stereoBlock)

/-- In `OUT` the two words of each of the first `n` blocks of two channels are equal (R202). -/
def Doubled (n : Nat) (o : Memory 32) : Prop := ∀ b < n, outWord o (2 * b + 1) = outWord o (2 * b)

/-- One more block doubled. -/
theorem Doubled.succ {n : Nat} {o : Memory 32} (h : Doubled n o) :
    Doubled (n + 1) (o.write (2 * n + 1) (outWord o (2 * n))) := by
  intro b hb
  rw [outWord_write, outWord_write_of_ne _ _ (by omega)]
  by_cases hbn : b = n
  · rw [hbn, if_pos rfl]
  · rw [if_neg (by omega), h b (by omega)]

theorem stereoBlock_of_falseStereo {s : State} (hn : s.nch = 2) (hf : s.fstereo = true) (b : Nat) :
    stereoBlock b s = .ok (s.writeOut (2 * b + 1) (outWord s.out (2 * b))) := by
  rw [stereoBlock, if_pos hn, if_pos hf]

/-- The stereo pass of a false-stereo frame doubles the value of each block (R117 step 6, R202). -/
theorem stereoPass_doubled {n : Nat} {s t : State} (hn : s.nch = 2) (hf : s.fstereo = true)
    (h : forUpTo n stereoBlock s = .ok t) : Doubled n t.out := by
  refine (forUpTo_induct (fun m u => OnlyDecode s u ∧ Doubled m u.out) h ⟨.refl s, fun b hb => by omega⟩ ?_).2
  rintro m - u v ⟨hu, hdone⟩ hv
  refine ⟨hu.trans (onlyDecode_stereoBlock hv), ?_⟩
  rw [stereoBlock_of_falseStereo (hu.nch.trans hn) (hu.fstereo.trans hf)] at hv
  cases hv
  exact hdone.succ

/-- The body of `FRAME` in a false-stereo frame, silent or not, leaves the two words of each block equal (R202). -/
theorem frameBody_doubled {s t : State} (hn : s.nch = 2) (hf : s.fstereo = true) (h : frameBody s = .ok t) :
    Doubled s.regs.nblocks.toNat t.out := by
  cases hs : s.silent with
  | true =>
    intro b hb
    obtain ⟨u, hu, -, hwords⟩ := silencePass_completes (s.regs.nblocks.toNat * s.nch) s
    rw [frameBody_of_silent hs, hu] at h
    cases h
    rw [hn] at hwords
    rw [hwords, hwords, if_pos (by omega), if_pos (by omega)]
  | false =>
    obtain ⟨u, v, hentropy, hfilter, hstereo⟩ := frameBody_ok hs h
    have hv : OnlyDecode s v := (decodes_forUpTo decodes_entropyBlock _ s u hentropy).trans
      (decodes_forUpTo (decodes_filterChannel _) _ u v hfilter)
    exact stereoPass_doubled (hv.nch.trans hn) (hv.fstereo.trans hf) hstereo

/-- A false-stereo header is accepted with two channels only (R93, R115). -/
theorem channels_of_falseStereo {s a : State} (h : frameStart s = .ok a) (hf : headerFalseStereo s = true) :
    s.regs.channels = 2 := by
  obtain ⟨hstream, hframe, u, hu, -⟩ := frameStart_ok h
  obtain ⟨-, hchannels, -⟩ := validated_of_checks hstream hframe
  refine hchannels.resolve_left fun h1 => ?_
  rw [readHeader_clear] at hu
  split at hu
  · cases hu
  · obtain ⟨⟨⟩, hchecks, -⟩ := bind_ok hu
    have hmono := (runChecks_ok_iff _).1 hchecks
      (flagFalseStereo (headerFlags s) && s.regs.channels == 1#32, corruptFrame 4) (by simp [flagChecks])
    simp [← headerFalseStereo_eq, hf, h1] at hmono

/-- Settles O45: a false-stereo frame has two channels and codes the first; the body keeps channel 1 and doubles the
words. -/
theorem falseStereoDuplicatesChannelZero : Obligations.FalseStereoDuplicatesChannelZero := by
  intro s t hp h ht hf
  obtain ⟨-, -, hb⟩ := completes_of_exec (by simp) h ht
  obtain ⟨a, b, hstart, hbody, rfl⟩ := opFrame_ok hb
  have h2 := channels_of_falseStereo hstart hf
  obtain rfl := started_of_frameStart hstart
  have hnch : (started s).nch = 2 := nch_of_two h2
  have hcoded : (started s).ncoded = 1 := by
    show codedChannels s.regs.channels (headerFalseStereo s) = 1
    simp [codedChannels, hf]
  have hwords : Doubled s.regs.nblocks.toNat b.out := frameBody_doubled (s := started s) hnch hf hbody
  exact ⟨(onlyChannelZero_frameBody hcoded hbody).ch1, hwords⟩

end Sys2Proof.Machine
end

section
/-! Errors as the host sees them (60_exceptions.md): the kinds an operation can record (R220), and what no operation
changes, whatever its outcome (R225). -/

namespace Sys2Proof.Machine

/-! ## The kinds an operation can record -/

/-- R220's column "raised by", read by operation: the errors the operation's pseudocode can end in. -/
def ListedFor : Instr → Err → Prop
  | .frameStart => IsStartError
  | .frame => fun e => IsStartError e ∨ IsOverflow e
  | .rcInit | .rcNorm | .rcBits _ | .rcSym | .rcValue _ | .entRes _ => IsBitstream
  | .nnfStep _ _ | .predStep _ | .stereoStep => IsOverflow
  | .nop | .sreset | .emit => fun _ => False

/-- An operation's pseudocode raises only what the table lists for the operation (R220). -/
theorem raises_listedFor (i : Instr) (s : State) : Raises (ListedFor i) (body i s) := by
  cases i with
  | nop | sreset | emit => exact raises_ok _
  | frameStart => exact raises_frameStart s
  | frame => exact raises_opFrame s
  | rcInit => exact raises_bind (raises_rcInit _ _) fun _ _ => raises_ok _
  | rcNorm => exact raises_bind (raises_rcNorm _ _) fun _ _ => raises_ok _
  | rcBits n => exact raises_bind (raises_rcBits _ _ _) fun _ _ => raises_ok _
  | rcSym => exact raises_bind (raises_rcSym _ _ _) fun _ _ => raises_ok _
  | rcValue k => exact raises_bind (raises_rcValue _ _ _ _) fun _ _ => raises_ok _
  | entRes c => exact raises_bind (raises_entRes _ _) fun _ _ => raises_ok _
  | nnfStep st c => exact raises_bind (raises_nnfStep _ _ _ _) fun _ _ => raises_ok _
  | predStep c => exact raises_bind (raises_predStep _ _ _) fun _ _ => raises_ok _
  | stereoStep => exact raises_bind (raises_stereo _ _) fun _ _ => raises_ok _

/-- An operation that completes does not enter `ERR`: the only way there is the error entry (R25, R224). -/
theorem body_phase_ne_err {i : Instr} {s t : State} (hp : s.phase ≠ .err) (h : body i s = .ok t) : t.phase ≠ .err := by
  cases i with
  | sreset => cases h; simp
  | frameStart => simp [frameStart_phase h]
  | frame => simp [opFrame_phase h]
  | _ => rwa [(onlyUnit_body (by simp) (by simp) (by simp) h).phase]

/-- An operation that ends in `ERR` took the error entry: with an error its pseudocode raised, or with `IllegalCommand`
because a check of R87 failed (R224). -/
theorem exec_enters_err {i : Instr} {s t : State} (hp : s.phase ≠ .err) (h : exec i s = .next t) (ht : t.phase = .err) :
    ∃ e, t = raise e s ∧ (ListedFor i e ∨ (¬ Spec.Legal s i ∧ e = illegalCommand (encode i))) := by
  by_cases hi : i = .sreset
  · subst hi
    cases h
    cases ht
  rw [exec_eq_issue hi] at h
  obtain ⟨hp', -⟩ | ⟨-, -, hb⟩ | ⟨-, e, rfl, hcause⟩ := issue_cases h
  · exact absurd hp' hp
  · exact absurd ht (body_phase_ne_err hp hb)
  · refine ⟨e, rfl, ?_⟩
    obtain ⟨-, hb⟩ | ⟨hl, he⟩ := hcause
    · exact .inl (raises_listedFor i s e hb)
    · exact .inr ⟨fun hlegal => by simp [(legal_iff hp i).2 hlegal] at hl, he⟩

/-- Settles O12: the table by operation, read by kind. -/
theorem errorKindsComeFromTheListedOperations : Obligations.ErrorKindsComeFromTheListedOperations := by
  intro i s t hp h ht
  obtain ⟨e, rfl, hlist | ⟨hl, rfl⟩⟩ := exec_enters_err hp h ht
  · rw [raise_errCode]
    cases i with
    | nop | sreset | emit => exact hlist.elim
    | frameStart => obtain hk | hk | hk | hk | hk | hk := hlist <;> simp [hk]
    | frame => obtain (hk | hk | hk | hk | hk | hk) | hk := hlist <;> simp [hk]
    | rcInit | rcNorm | rcBits n | rcSym | rcValue k | entRes c =>
      have hk : e.kind = .corruptBitstream := hlist
      simp [hk]
    | nnfStep st c | predStep c | stereoStep =>
      have hk : e.kind = .arithmeticOverflow := hlist
      simp [hk]
  · exact ⟨hl, rfl⟩

/-! ## What no operation changes -/

/-- The configuration registers, `WIN` and the parameters of `t` are those of `s`. -/
structure KeepsConfigAndWindow (s t : State) : Prop where
  regs : t.regs = s.regs
  win : t.win = s.win
  cfg : t.cfg = s.cfg

theorem OnlyUnit.keepsConfigAndWindow {s t : State} (h : OnlyUnit s t) : KeepsConfigAndWindow s t := by
  constructor <;> rw [h]

theorem keepsConfigAndWindow_raise (e : Err) (s : State) : KeepsConfigAndWindow s (raise e s) := ⟨rfl, rfl, rfl⟩

theorem keepsConfigAndWindow_softReset (s : State) : KeepsConfigAndWindow s (softReset s) := ⟨rfl, rfl, rfl⟩

theorem keepsConfigAndWindow_started (s : State) : KeepsConfigAndWindow s (Spec.started s) := ⟨rfl, rfl, rfl⟩

theorem keepsConfigAndWindow_opFrame {s t : State} (h : opFrame s = .ok t) : KeepsConfigAndWindow s t := by
  obtain ⟨a, b, ha, hb, rfl⟩ := opFrame_ok h
  obtain rfl := started_of_frameStart ha
  have hbody := onlyDecode_frameBody hb
  exact ⟨hbody.regs, hbody.win, hbody.cfg⟩

/-- An operation that completes keeps them (R225). -/
theorem keepsConfigAndWindow_body {i : Instr} {s t : State} (h : body i s = .ok t) : KeepsConfigAndWindow s t := by
  cases i with
  | sreset => cases h; exact keepsConfigAndWindow_softReset s
  | frameStart => rw [started_of_frameStart h]; exact keepsConfigAndWindow_started s
  | frame => exact keepsConfigAndWindow_opFrame h
  | _ => exact (onlyUnit_body (by simp) (by simp) (by simp) h).keepsConfigAndWindow

/-- Every outcome of every operation keeps them: ignored, completed, or the error entry (R225). -/
theorem keepsConfigAndWindow_exec {i : Instr} {s t : State} (h : exec i s = .next t) : KeepsConfigAndWindow s t := by
  by_cases hi : i = .sreset
  · subst hi
    cases h
    exact keepsConfigAndWindow_softReset s
  rw [exec_eq_issue hi] at h
  obtain ⟨-, rfl⟩ | ⟨-, -, hb⟩ | ⟨-, e, rfl, -⟩ := issue_cases h
  · exact ⟨rfl, rfl, rfl⟩
  · exact keepsConfigAndWindow_body hb
  · exact keepsConfigAndWindow_raise e s

/-- Settles O18: `WIN` as a whole is kept, so every byte of it is. -/
theorem noOperationChangesConfigurationOrWindow : Obligations.NoOperationChangesConfigurationOrWindow := by
  intro i s t h
  obtain ⟨hregs, hwin, hcfg⟩ := keepsConfigAndWindow_exec h
  exact ⟨hregs, fun a => by rw [hwin], hcfg⟩

end Sys2Proof.Machine
end

section
/-! Hardware reset and the engine at rest (70_reset_and_hazards.md R260, R261, 10_state.md R40). -/

namespace Sys2Proof.Machine

/-- A state whose two channels are the same has that channel at every index. -/
theorem chan_eq_of_both {s : State} {ch : Chan} (h0 : s.ch0 = ch) (h1 : s.ch1 = ch) (c : Nat) : s.chan c = ch := by
  unfold State.chan; split
  · exact h0
  · exact h1

/-- Hardware reset clears the channels after the configuration, so with no level selected (R33, R40). -/
theorem hardReset_chan (s : State) (c : Nat) :
    (hardReset s).chan c = clearChan { s with regs := ConfigRegs.zero } 0 :=
  chan_eq_of_both rfl rfl c

/-- No row of `NNF_TABLE` is selected at reset, so a cleared channel has no stage, as the reset channels (R33). -/
theorem reset_chan (c : Nat) : State.reset.chan c = clearChan State.reset 0 :=
  chan_eq_of_both rfl rfl c

theorem standard_legal : Config.standard.Legal := by decide

/-- The first check of `FRAME_START`: a stream before version 3990 is reported with its version (R112). -/
theorem startError_of_version_lt {s : State} (h : s.regs.formatVersion.toNat < 3990) :
    Spec.startError s = some ⟨.unsupportedVersion, s.regs.formatVersion⟩ := by
  unfold Spec.startError
  exact if_pos h

/-- The reset input is served on the state with the request taken off the queue (R260). -/
theorem step_of_hardReset {s : State} {rest : List BusReq} (h : Spec.Pending s .hardReset rest) :
    step s = .next (hardReset { s with bus := rest }) := by
  obtain ⟨hcfg, hbus⟩ := h
  rw [step_of_request hcfg hbus, serve, finish]

/-- Settles O4: the empty queue is a case of the step (R260). -/
theorem nothingPendingNothingHappens : Obligations.NothingPendingNothingHappens := fun _ => step_of_idle

/-- Settles O5: both channels of the state the step answers are cleared channels. -/
theorem hardwareResetFromEveryState : Obligations.HardwareResetFromEveryState := by
  intro s rest h
  refine ⟨hardReset { s with bus := rest }, step_of_hardReset h, rfl, rfl, rfl, rfl, rfl, rfl, rfl, rfl, rfl, rfl, rfl,
    rfl, fun c _ => ?_, rfl, rfl⟩
  rw [hardReset_chan]
  exact ⟨rfl, rfl, clearChan_entries _ 0⟩

/-- Settles O1: the queue is empty at reset, both channels are cleared channels, and `FRAME` ends with the error of its
first check. -/
theorem resetHoldsTheSpecsValues : Obligations.ResetHoldsTheSpecsValues := by
  have hframe : ∃ t, exec .frame State.reset = .next t ∧ Spec.Raised State.reset t .unsupportedVersion 0 := by
    obtain ⟨-, -, hstart⟩ := frameStartValidatesAndStarts
    have herr := startError_of_version_lt (s := State.reset) (by decide)
    exact ((hstart State.reset (by decide)).2 _ herr).2
  refine ⟨rfl, rfl, rfl, rfl, rfl, rfl, rfl, rfl, rfl, rfl, rfl, rfl, step_of_idle standard_legal rfl, hframe,
    fun c _ => ?_⟩
  rw [reset_chan]
  exact ⟨rfl, rfl, clearChan_entries _ 0⟩

end Sys2Proof.Machine
end

section
/-! The invariant of the whole machine (10_state.md sections 4 to 7, 41_range_decoder.md R140): it holds at reset, and
every step keeps it, whatever request the step serves. -/

namespace Sys2Proof.Machine

/-! ## Operations -/

/-- A legal operation that completes keeps the invariant: it is one of the four of frame control, or a unit operation
of an open frame, which stays open. -/
theorem inv_body {i : Instr} {s t : State} (h : s.Inv) (hp : s.phase ≠ .err) (hl : Spec.Legal s i)
    (hb : body i s = .ok t) : t.Inv := by
  cases i with
  | nop => cases hb; exact h
  | sreset => cases hb; exact inv_softReset h
  | frameStart => exact (openInv_frameStart h hp hb).1
  | frame => exact inv_opFrame h hp hb
  | _ =>
    have hopen : t.phase = .opened := (onlyUnit_body (by simp) (by simp) (by simp) hb).phase.trans hl.1
    exact (openInv_body h hp hl hb hopen).1

/-- An operation's pseudocode raises neither the empty kind nor `Io` (R220). -/
theorem body_error_kind {i : Instr} {s : State} {e : Err} (hb : body i s = .error e) :
    e.kind ≠ .none ∧ e.kind ≠ .io := by
  obtain (hk | hk | hk | hk | hk | hk) | hk := raises_body i s e hb <;> simp [hk]

theorem inv_illegalCommand {s : State} (h : s.Inv) (w : Word) : (raise (illegalCommand w) s).Inv :=
  inv_raise h _ (by simp [illegalCommand]) (by simp [illegalCommand])

/-- Every outcome of every operation keeps the invariant: ignored, completed, or the error entry (R12). -/
theorem inv_exec {i : Instr} {s t : State} (h : s.Inv) (he : exec i s = .next t) : t.Inv := by
  by_cases hi : i = .sreset
  · subst hi
    cases he
    exact inv_softReset h
  rw [exec_eq_issue hi] at he
  obtain ⟨-, rfl⟩ | ⟨hp, hl, hb⟩ | ⟨-, e, rfl, ⟨-, hb⟩ | ⟨-, rfl⟩⟩ := issue_cases he
  · exact h
  · exact inv_body h hp ((legal_iff hp i).1 hl) hb
  · obtain ⟨hnone, hio⟩ := body_error_kind hb
    exact inv_raise h e hnone hio
  · exact inv_illegalCommand h _

theorem inv_rejectWord {s : State} (h : s.Inv) (w : Word) : (rejectWord w s).Inv := by
  unfold rejectWord
  split
  · exact h
  · exact inv_illegalCommand h w

/-- A command word keeps the invariant, whether it decodes or not (R81). -/
theorem inv_issueWord {w : Word} {s t : State} (h : s.Inv) (he : issueWord w s = .next t) : t.Inv := by
  cases hd : decode w with
  | ok i => rw [issueWord_of_ok hd] at he; exact inv_exec h he
  | error e =>
    simp only [issueWord, hd, Host.Outcome.next.injEq] at he
    exact he ▸ inv_rejectWord h w

/-! ## Bus requests -/

/-- A host read that hands over `d` and takes no free value. -/
theorem inv_readData {s : State} (h : s.Inv) (d : Word) : State.Inv { s with readData := d } :=
  inv_own_fields h s.bus d (Nat.le_refl _)

theorem inv_readUnspecified {s : State} (h : s.Inv) : (readUnspecified s).Inv :=
  inv_own_fields h s.bus _ (Nat.le_succ _)

theorem inv_readReg {s : State} (h : s.Inv) (r : Reg) : (readReg s r).Inv := by
  unfold readReg
  split
  · exact inv_readUnspecified h
  · exact inv_readData h _

theorem inv_readOut {s : State} (h : s.Inv) (i : Nat) : (readOut s i).Inv := by
  unfold readOut
  split
  · exact inv_readUnspecified h
  · exact inv_readData h _

/-- An access that reaches a word of `WIN` has all four bytes of it inside the capacity (R60, R68). -/
theorem lt_winCap_of_busTarget {p : Config} (hp : p.Legal) {addr bytes q : Nat}
    (h : busTarget p addr bytes = some (.win q)) : 4 * q + 3 < p.winCap := by
  have hcap := hp.winCap_mod
  have hbase := hp.winBase_mod
  obtain ⟨-, haddr, ⟨-, -, ht⟩ | ⟨hlo, hhi, ht⟩ | ⟨-, -, ht⟩⟩ := busTarget_some h <;> cases ht
  omega

theorem inv_busRead {s t : State} (h : s.Inv) {addr bytes : Nat} (he : busRead s addr bytes = .state t) : t.Inv := by
  unfold busRead at he
  split at he <;> cases he
  · exact inv_readReg h _
  · exact inv_readData h _
  · exact inv_readOut h _

theorem inv_busWrite {s t : State} (h : s.Inv) {addr bytes : Nat} {x : Word}
    (he : busWrite s addr bytes x = .state t) : t.Inv := by
  unfold busWrite at he
  split at he
  · split at he <;> cases he
    exact inv_writeReg h _ x
  · next hq => cases he; exact inv_writeWin h (lt_winCap_of_busTarget h.1 hq) x
  · cases he; exact h
  · cases he

/-- A request other than a command keeps the invariant. -/
theorem inv_serve {s t : State} (h : s.Inv) {q : BusReq} (he : serve s q = .state t) : t.Inv := by
  cases q with
  | read addr bytes => exact inv_busRead h he
  | write addr bytes x => exact inv_busWrite h he
  | hardReset => cases he; exact inv_hardReset h

/-- A served request ends in the state it has reached, or in the outcome of its command word. -/
theorem finish_cases {e : BusEffect} {s t : State} (h : finish e s = .next t) :
    e = .state t ∨ ∃ w, e = .command w ∧ issueWord w s = .next t := by
  cases e with
  | command w => exact .inr ⟨w, rfl, h⟩
  | state u => cases h; exact .inl rfl
  | outside => cases h

/-! ## The step and reset -/

/-- Settles O3: the request comes off the queue, and then a command's outcome or the host's access keeps the
invariant. -/
theorem stepKeepsTheInvariant : Obligations.StepKeepsTheInvariant := by
  intro s t h hstep
  cases hbus : s.bus with
  | nil =>
    rw [step_of_idle h.1 hbus] at hstep
    cases hstep
    exact h
  | cons q rest =>
    have hrest : State.Inv { s with bus := rest } := inv_own_fields h rest s.readData (Nat.le_refl _)
    rw [step_of_request h.1 hbus] at hstep
    obtain hserved | ⟨w, -, hword⟩ := finish_cases hstep
    · exact inv_serve hrest hserved
    · exact inv_issueWord hrest hword

/-- Both memories are empty at reset, and event 0 has been used (R260). -/
theorem memoryOk_reset : MemoryOk State.reset :=
  ⟨List.Pairwise.nil, fun _ hc => absurd hc List.not_mem_nil, Nat.zero_lt_one,
    List.Pairwise.nil, fun _ hc => absurd hc List.not_mem_nil, Nat.zero_lt_one⟩

theorem errorOk_reset : ErrorOk State.reset := by decide

/-- Settles O2: the parameters are the legal defaults, both channels are cleared channels, and no frame is open. -/
theorem resetMeetsTheInvariant : Obligations.ResetMeetsTheInvariant := by
  have hchan : ChanOk Config.standard (clearChan State.reset 0) := chanOk_clearChan State.reset (Nat.zero_le _)
  have hclosed : State.reset.phase ≠ .opened := by decide
  exact ⟨standard_legal, memoryOk_reset, errorOk_reset, hchan, hchan, fun hopen => absurd hopen hclosed⟩

end Sys2Proof.Machine
end
